-- ==== Sys2Proof/Word.lean ====
section
/-! DEFINITION. The two word widths of QCPU 2 (spec/00_scope.md R7, R10; spec/10_state.md R30, R46). -/

namespace Sys2Proof

/-- A 16-bit value: a general register, an address, an instruction word (R7, R10). `BitVec.toNat` is the spec's
`u(v)`, `BitVec.toInt` its `s(v)`. -/
abbrev Word := BitVec 16

/-- A byte of memory (spec/10_state.md R46). -/
abbrev Byte := BitVec 8

end Sys2Proof
end

