-- ==== Sys2Proof/Config.lean ====
section
/-! DEFINITION. The implementation parameters of spec/00_scope.md R8, each with the values the spec admits, set to the spec's
default; and the free values, which have no body, so that no proof can know them. The operations of Machine/ take a
parameter as an argument: `exec` and `step` pass the value set here (log 10 to 14), `execWith` and `stepWith` that of the
configuration they are given. -/

namespace Sys2Proof

/-- A range of byte addresses: `size` bytes from `base` on. -/
structure AddrRange where
  base : Nat
  size : Nat
  deriving DecidableEq, Repr

namespace Config

/-- `IFETCH_ORDER`: byte order of the instruction word in memory (spec/20_memory.md R61). -/
inductive IFetchOrder | little | big
  deriving DecidableEq, Repr

/-- `REL_BASE`: what a relative offset is added to (spec/45_jump_branch.md R226). -/
inductive RelBase | next | current
  deriving DecidableEq, Repr

/-- `SUB_CARRY`: the meaning of fl.c after a subtraction (spec/40_arithmetic.md R132). -/
inductive SubCarry | notBorrow | borrow
  deriving DecidableEq, Repr

/-- `LOGIC_CARRY`: fl.c after a logical instruction (spec/42_logic.md R176). -/
inductive LogicCarry | draw | unchanged | cleared
  deriving DecidableEq, Repr

/-- `FLAGS_OTHER_ALU`: fl.c, fl.s, fl.z after `slt`, `sltu`, `szr` and the shifts (spec/43_shift.md R198). -/
inductive FlagsOtherAlu | draw | unchanged | fromResult
  deriving DecidableEq, Repr

/-- `SLT_MODE`: `slt` when the signed difference overflows (spec/41_csr_compare.md R152). -/
inductive SltMode | signedCompare | signOfDifference
  deriving DecidableEq, Repr

/-- `SHIFT_AMOUNT_MODE`: a register shift amount of 16 or more (spec/43_shift.md R189). -/
inductive ShiftAmountMode | low4 | refuseGe16
  deriving DecidableEq, Repr

/-- `CSR_IP_VALUE`: what `csrr rd, ip` returns (spec/10_state.md R41). -/
inductive CsrIpValue | next | current
  deriving DecidableEq, Repr

/-- `MISALIGNED_WORD`: a word data access at an odd address (spec/20_memory.md R63). -/
inductive MisalignedWord | fault | ignoreBit0
  deriving DecidableEq, Repr

/-- `MEM_ORDER`: the order in which one core's accesses take effect (spec/20_memory.md R67, R75). -/
inductive MemOrder | programOrder | weak
  deriving DecidableEq, Repr

/-- `INTERRUPTS`: whether an external interrupt can arrive (spec/60_exceptions.md R287). -/
inductive Interrupts | never | any
  deriving DecidableEq, Repr

/-! The parameters, at the spec's defaults. -/

/-- DESIGN CHOICE, unsafe (log 10): the default of D2. -/
def ifetchOrder : IFetchOrder := .little

/-- DESIGN CHOICE, unsafe (log 10): the default of D5. -/
def relBase : RelBase := .next

/-- DESIGN CHOICE, unsafe (log 10): the default of D7. -/
def subCarry : SubCarry := .notBorrow

/-- DESIGN CHOICE, safe (log 11): the default of D8. -/
def logicCarry : LogicCarry := .draw

/-- DESIGN CHOICE, safe (log 11): the default of D9. -/
def flagsOtherAlu : FlagsOtherAlu := .draw

/-- DESIGN CHOICE, unsafe (log 10): the default of D12. -/
def sltMode : SltMode := .signedCompare

/-- DESIGN CHOICE, unsafe (log 10): the default of D14. -/
def shiftAmountMode : ShiftAmountMode := .low4

/-- DESIGN CHOICE, unsafe (log 10): the default of D16. -/
def csrIpValue : CsrIpValue := .next

/-- DESIGN CHOICE, safe (log 11): the default of D19. -/
def misalignedWord : MisalignedWord := .fault

/-- DESIGN CHOICE (log 14): the default of D20. No operation reads it: with one core and no other agent the two values admit
the same behaviours (spec/20_memory.md R67 (d)). -/
def memOrder : MemOrder := .programOrder

/-- DESIGN CHOICE, unsafe (log 12): `MMIO`, the default of D26, no range. -/
def mmio : List AddrRange := []

/-- DESIGN CHOICE, unsafe (log 13): the default of D36. -/
def interrupts : Interrupts := .never

/-- DESIGN CHOICE, unsafe (log 4): `RESET_PC` is OPEN (spec/10_state.md R50); ip bits [15:1] of the spec's placeholder 0x0000. -/
def resetPc : BitVec 15 := 0

/-! The CSR numbers, OPEN in the spec (spec/10_state.md R40, D15): four distinct numbers of which nothing else is known
(log 6). They are the images of 0, 1, 2, 3, the spec's placeholders, under an unknown renumbering. -/

/-- Free value (log 6, safe): the unknown numbering of the CSRs. A renumbering maps distinct numbers to distinct numbers. -/
opaque csrNumbering : Equiv.Perm (BitVec 6)

/-- `CSR_IP` (spec/10_state.md R41). -/
def csrIp : BitVec 6 := csrNumbering 0

/-- `CSR_FL` (spec/10_state.md R42). -/
def csrFl : BitVec 6 := csrNumbering 1

/-- `CSR_PEN` (spec/10_state.md R43). -/
def csrPen : BitVec 6 := csrNumbering 2

/-- `CSR_IRA` (spec/10_state.md R44). -/
def csrIra : BitVec 6 := csrNumbering 3

/-- The numbers of the four named CSRs (spec/00_scope.md R8). -/
structure CsrNumbers where
  ip : BitVec 6
  fl : BitVec 6
  pen : BitVec 6
  ira : BitVec 6
  deriving DecidableEq, Repr

/-- The four numbers are distinct, which is all the spec asks of them (R8, spec/10_state.md R40). -/
abbrev CsrNumbers.wf (n : CsrNumbers) : Prop := [n.ip, n.fl, n.pen, n.ira].Pairwise (· ≠ ·)

/-- The four numbers above. -/
def csrNumbers : CsrNumbers := { ip := csrIp, fl := csrFl, pen := csrPen, ira := csrIra }

/-- A choice of every named parameter (spec/00_scope.md R8), the configuration argument of `execWith`, `stepWith` and
`State.resetWith` (Machine/Configured.lean). `CODE_RANGE` depends on the program loaded and stands in State (log 18). -/
structure Params where
  ifetchOrder : IFetchOrder
  relBase : RelBase
  subCarry : SubCarry
  logicCarry : LogicCarry
  flagsOtherAlu : FlagsOtherAlu
  sltMode : SltMode
  shiftAmountMode : ShiftAmountMode
  csr : CsrNumbers
  csrIpValue : CsrIpValue
  misalignedWord : MisalignedWord
  memOrder : MemOrder
  resetPc : BitVec 15
  mmio : List AddrRange
  interrupts : Interrupts
  deriving DecidableEq, Repr

/-- The parameters set above: the spec's defaults, and the model's values where the spec leaves a parameter OPEN. -/
def params : Params :=
  { ifetchOrder := ifetchOrder
    relBase := relBase
    subCarry := subCarry
    logicCarry := logicCarry
    flagsOtherAlu := flagsOtherAlu
    sltMode := sltMode
    shiftAmountMode := shiftAmountMode
    csr := csrNumbers
    csrIpValue := csrIpValue
    misalignedWord := misalignedWord
    memOrder := memOrder
    resetPc := resetPc
    mmio := mmio
    interrupts := interrupts }

/-! The free values. -/

/-- Free value (log 9, safe): `DRAW1` (spec/00_scope.md R11), the bit that draw number `n` gives. -/
opaque drawBit : Nat → Bool

/-- Free value (log 8, safe): how many more instructions run before the load issued as draw number `n` must have arrived
(spec/10_state.md R39: every number 0, 1, 2, … is admitted, and the load always arrives). -/
opaque loadLatency : Nat → Nat

/-- Free value (log 13): under `INTERRUPTS = any`, the source that becomes pending at draw number `n`, if one does
(spec/60_exceptions.md R287). -/
opaque interruptOracle : Nat → Option Nat

/-- Free value (log 16, safe): which of several pending interrupts is taken; the source gives no priority (N12). -/
opaque interruptTaken : List Nat → Nat

end Config

end Sys2Proof
end

