-- ==== Sys2Proof/Syntax.lean ====
section
/-! DEFINITION. The instructions of QCPU 2 as data: one constructor for each of the 86 rows of spec/opcode_table.json, in the
table's order. Operands are named by their field: rd, rs, rs1, rs2, rw, base are register fields (spec/30_encoding.md R91, R94). -/

namespace Sys2Proof

/-- The general registers by their identifiers (spec/10_state.md R30): r0 to r7 in this order. -/
inductive Reg | zr | rp | sp | x1 | x2 | x3 | t1 | t2
  deriving DecidableEq, Repr

/-- The six conditions of `brh` (spec/45_jump_branch.md R227): carry, sign, zero and their negations. -/
inductive Cond | c | s | z | nc | ns | nz
  deriving DecidableEq, Repr

inductive Instr
  -- specials (spec/30_encoding.md R96)
  | bkpt
  | nop
  | sysc (x : BitVec 8)
  | fence
  | ftlb
  | rfi
  | wfi
  | scf
  | rscf
  -- rows of the jmpd and jmpdl space (R100 items 2, 3; R101 items c, d, e)
  | reservedJmpdl064
  | reservedJmpdl0128
  | reservedJmpdl0Other (f : BitVec 8)
  | jmpd (rs : Reg)
  | reservedJmpdFlags (rs : Reg) (f : BitVec 8)
  | jmpdl (rs : Reg)
  | reservedJmpdlFlags (rs : Reg) (f : BitVec 8)
  -- brh with condition 011 or 111 (R101 item b); condHi is bit 10
  | reservedBrhCond (condHi : BitVec 1) (imm : BitVec 8)
  -- arithmetic (spec/40_arithmetic.md)
  | add (rd rs1 rs2 : Reg)
  | addc (rd rs1 rs2 : Reg)
  | sub (rd rs1 rs2 : Reg)
  | subb (rd rs1 rs2 : Reg)
  | addi (rd : Reg) (imm : BitVec 8)
  | cmpi (rs : Reg) (imm : BitVec 8)
  -- CSR access and set-if-less-than (spec/41_csr_compare.md)
  | csrr (rd : Reg) (csr : BitVec 6)
  | csrw (rs : Reg) (csr : BitVec 6)
  | slt (rd rs1 rs2 : Reg)
  | sltu (rd rs1 rs2 : Reg)
  -- select and bitwise logic (spec/42_logic.md)
  | szr (rd rs1 rs2 : Reg)
  | ior (rd rs1 rs2 : Reg)
  | and (rd rs1 rs2 : Reg)
  | xor (rd rs1 rs2 : Reg)
  | iori (rd : Reg) (imm : BitVec 8)
  | ioriu (rd : Reg) (imm : BitVec 8)
  | andi (rd : Reg) (imm : BitVec 8)
  | andiu (rd : Reg) (imm : BitVec 8)
  | biti (rs : Reg) (imm : BitVec 8)
  | xori (rd : Reg) (imm : BitVec 8)
  | xoriu (rd : Reg) (imm : BitVec 8)
  -- shifts (spec/43_shift.md)
  | bsl (rd : Reg) (amt : BitVec 4) (rs : Reg)
  | bsr (rd : Reg) (amt : BitVec 4) (rs : Reg)
  | bsrs (rd : Reg) (amt : BitVec 4) (rs : Reg)
  | brr (rd : Reg) (amt : BitVec 4) (rs : Reg)
  | bsld (rd rs1 rs2 : Reg)
  | bsrd (rd rs1 rs2 : Reg)
  | bsrsd (rd rs1 rs2 : Reg)
  | brrd (rd rs1 rs2 : Reg)
  -- the unassigned major opcode (R101 item a); a, b, c are the fields A, B, C
  | reserved0111100 (a b c : Reg)
  | reserved0111101 (a b c : Reg)
  | reserved0111110 (a b c : Reg)
  | reserved0111111 (a b c : Reg)
  -- load immediate (spec/44_load_immediate.md)
  | lli (rd : Reg) (imm : BitVec 8)
  | lui (rd : Reg) (imm : BitVec 8)
  -- jumps, branch, instruction prefetch (spec/45_jump_branch.md)
  | jmp (imm : BitVec 11)
  | jmpl (imm : BitVec 11)
  | jmpr (imm : BitVec 11)
  | jmprl (imm : BitVec 11)
  | brh (cond : Cond) (imm : BitVec 8)
  | prfi (imm : BitVec 11)
  -- memory (spec/47_memory_ops.md)
  | mld (rd : Reg) (imm : BitVec 5) (base : Reg)
  | mldw (rd : Reg) (imm : BitVec 5) (base : Reg)
  | mst (rs : Reg) (imm : BitVec 5) (base : Reg)
  | mstw (rs : Reg) (imm : BitVec 5) (base : Reg)
  | xch (rw : Reg) (imm : BitVec 5) (base : Reg)
  | xchw (rw : Reg) (imm : BitVec 5) (base : Reg)
  -- aliases (spec/30_encoding.md R111): names of base instructions with some fields fixed
  | mov (rd rs : Reg)
  | test (rs : Reg)
  | neg (rd rs : Reg)
  | cmp (rs1 rs2 : Reg)
  | inc (rd : Reg)
  | dec (rd : Reg)
  | alloc (imm : BitVec 8)
  | ip (rd : Reg)
  | clri
  | sneg (rd rs : Reg)
  | spos (rd rs : Reg)
  | snez (rd rs : Reg)
  | cut4 (rd : Reg)
  | cut8 (rd : Reg)
  | clrl (rd : Reg)
  | not (rd : Reg)
  | not8 (rd : Reg)
  | clr (rd : Reg)
  | ret
  | prfd (imm : BitVec 5) (base : Reg)
  | mclr (imm : BitVec 5) (base : Reg)
  | mclrw (imm : BitVec 5) (base : Reg)
  deriving DecidableEq, Repr

end Sys2Proof
end

