-- ==== Sys2Proof/Decode.lean ====
section
/-! DEFINITION. From words to instructions and back (spec/30_encoding.md R90 to R101). `decode` is the decode procedure of R100,
total on all 65536 words; `encode` writes a term's word from the patterns of R91, R95, R96 and R111; `decodeTable` is the ordered
table of R95. -/

namespace Sys2Proof

/-! Register and condition fields. -/

/-- A 3-bit register field (spec/10_state.md R30). -/
def Reg.ofBits : BitVec 3 → Reg
  | 0b000#3 => .zr
  | 0b001#3 => .rp
  | 0b010#3 => .sp
  | 0b011#3 => .x1
  | 0b100#3 => .x2
  | 0b101#3 => .x3
  | 0b110#3 => .t1
  | _ => .t2

/-- The field value of a register (spec/10_state.md R30). -/
def Reg.toBits : Reg → BitVec 3
  | .zr => 0b000
  | .rp => 0b001
  | .sp => 0b010
  | .x1 => 0b011
  | .x2 => 0b100
  | .x3 => 0b101
  | .t1 => 0b110
  | .t2 => 0b111

/-- The condition field of `brh`: bit 2 negates, bits [1:0] select the flag; 011 and 111 are reserved
(spec/45_jump_branch.md R227). -/
def Cond.ofBits : BitVec 3 → Option Cond
  | 0b000#3 => some .c
  | 0b001#3 => some .s
  | 0b010#3 => some .z
  | 0b100#3 => some .nc
  | 0b101#3 => some .ns
  | 0b110#3 => some .nz
  | _ => none

/-- The condition code of R227. -/
def Cond.toBits : Cond → BitVec 3
  | .c => 0b000
  | .s => 0b001
  | .z => 0b010
  | .nc => 0b100
  | .ns => 0b101
  | .nz => 0b110

/-! The fields of a word (R90, R91, R93). -/

def fieldOp (w : Word) : BitVec 5 := w.extractLsb' 11 5
def fieldA (w : Word) : BitVec 3 := w.extractLsb' 8 3
def fieldFn (w : Word) : BitVec 2 := w.extractLsb' 6 2
def fieldB (w : Word) : BitVec 3 := w.extractLsb' 3 3
def fieldC (w : Word) : BitVec 3 := w.extractLsb' 0 3
def fieldImm8 (w : Word) : BitVec 8 := w.extractLsb' 0 8
def fieldImm11 (w : Word) : BitVec 11 := w.extractLsb' 0 11
def fieldImm5 (w : Word) : BitVec 5 := w.extractLsb' 3 5
def fieldCsr (w : Word) : BitVec 6 := w.extractLsb' 0 6
def fieldDir (w : Word) : BitVec 1 := w.extractLsb' 7 1
def fieldAmt (w : Word) : BitVec 4 := w.extractLsb' 3 4

/-- Field A as a register. -/
def regA (w : Word) : Reg := Reg.ofBits (fieldA w)
/-- Field B as a register. -/
def regB (w : Word) : Reg := Reg.ofBits (fieldB w)
/-- Field C as a register. -/
def regC (w : Word) : Reg := Reg.ofBits (fieldC w)

/-! The decode procedure. -/

/-- A three-register row chosen by fn (R95). -/
def decodeByFn (w : Word) (i0 i1 i2 i3 : Reg → Reg → Reg → Instr) : Instr :=
  match fieldFn w with
  | 0b00#2 => i0 (regA w) (regB w) (regC w)
  | 0b01#2 => i1 (regA w) (regB w) (regC w)
  | 0b10#2 => i2 (regA w) (regB w) (regC w)
  | _ => i3 (regA w) (regB w) (regC w)

/-- The rows of opcode 00011 (R95): CSR access and set-if-less-than. -/
def decodeCsrCompare (w : Word) : Instr :=
  match fieldFn w with
  | 0b00#2 => .csrr (regA w) (fieldCsr w)
  | 0b01#2 => .csrw (regA w) (fieldCsr w)
  | 0b10#2 => .slt (regA w) (regB w) (regC w)
  | _ => .sltu (regA w) (regB w) (regC w)

/-- An immediate shift row chosen by bit 7 (R95). -/
def decodeByDir (w : Word) (i0 i1 : Reg → BitVec 4 → Reg → Instr) : Instr :=
  if fieldDir w = 0 then i0 (regA w) (fieldAmt w) (regC w) else i1 (regA w) (fieldAmt w) (regC w)

/-- Opcode 10110 (R100 item 2). -/
def decodeJmpd (w : Word) : Instr :=
  if regA w = .zr then .sysc (fieldImm8 w)
  else if fieldImm8 w = 0 then .jmpd (regA w)
  else .reservedJmpdFlags (regA w) (fieldImm8 w)

/-- Opcode 10111 with A = 0 (R100 item 3, R101 items d, e). -/
def decodeControl (f : BitVec 8) : Instr :=
  match f with
  | 0x01#8 => .fence
  | 0x02#8 => .ftlb
  | 0x04#8 => .rfi
  | 0x08#8 => .wfi
  | 0x10#8 => .scf
  | 0x20#8 => .rscf
  | 0x40#8 => .reservedJmpdl064
  | 0x80#8 => .reservedJmpdl0128
  | f => .reservedJmpdl0Other f

/-- Opcode 10111 (R100 item 3). -/
def decodeJmpdl (w : Word) : Instr :=
  if regA w = .zr then decodeControl (fieldImm8 w)
  else if fieldImm8 w = 0 then .jmpdl (regA w)
  else .reservedJmpdlFlags (regA w) (fieldImm8 w)

/-- Opcode 11000 (R100 item 4). -/
def decodeBrh (w : Word) : Instr :=
  match Cond.ofBits (fieldA w) with
  | some cond => .brh cond (fieldImm8 w)
  | none => .reservedBrhCond (w.extractLsb' 10 1) (fieldImm8 w)

/-- The decode procedure of R100: the specials 0x0000 and 0x0800 first, then the row selected by the major opcode. The
alias rows take no part in it (R95, R111; log 20). -/
def decode (w : Word) : Instr :=
  if w = 0x0000 then .bkpt
  else if w = 0x0800 then .nop
  else match fieldOp w with
  | 0b00000#5 => decodeByFn w .add .addc .sub .subb
  | 0b00001#5 => .addi (regA w) (fieldImm8 w)
  | 0b00010#5 => .cmpi (regA w) (fieldImm8 w)
  | 0b00011#5 => decodeCsrCompare w
  | 0b00100#5 => decodeByFn w .szr .ior .and .xor
  | 0b00101#5 => .iori (regA w) (fieldImm8 w)
  | 0b00110#5 => .ioriu (regA w) (fieldImm8 w)
  | 0b00111#5 => .andi (regA w) (fieldImm8 w)
  | 0b01000#5 => .andiu (regA w) (fieldImm8 w)
  | 0b01001#5 => .biti (regA w) (fieldImm8 w)
  | 0b01010#5 => .xori (regA w) (fieldImm8 w)
  | 0b01011#5 => .xoriu (regA w) (fieldImm8 w)
  | 0b01100#5 => decodeByDir w .bsl .bsr
  | 0b01101#5 => decodeByDir w .bsrs .brr
  | 0b01110#5 => decodeByFn w .bsld .bsrd .bsrsd .brrd
  | 0b01111#5 => decodeByFn w .reserved0111100 .reserved0111101 .reserved0111110 .reserved0111111
  | 0b10000#5 => .lli (regA w) (fieldImm8 w)
  | 0b10001#5 => .lui (regA w) (fieldImm8 w)
  | 0b10010#5 => .jmp (fieldImm11 w)
  | 0b10011#5 => .jmpl (fieldImm11 w)
  | 0b10100#5 => .jmpr (fieldImm11 w)
  | 0b10101#5 => .jmprl (fieldImm11 w)
  | 0b10110#5 => decodeJmpd w
  | 0b10111#5 => decodeJmpdl w
  | 0b11000#5 => decodeBrh w
  | 0b11001#5 => .prfi (fieldImm11 w)
  | 0b11010#5 => .mld (regA w) (fieldImm5 w) (regC w)
  | 0b11011#5 => .mldw (regA w) (fieldImm5 w) (regC w)
  | 0b11100#5 => .mst (regA w) (fieldImm5 w) (regC w)
  | 0b11101#5 => .mstw (regA w) (fieldImm5 w) (regC w)
  | 0b11110#5 => .xch (regA w) (fieldImm5 w) (regC w)
  | _ => .xchw (regA w) (fieldImm5 w) (regC w)

/-! The bytes of a word. -/

/-- The bytes of an instruction word, lowest address first (spec/20_memory.md R61). -/
def layoutWord (o : Config.IFetchOrder) (w : Word) : List Byte :=
  match o with
  | .little => [w.extractLsb' 0 8, w.extractLsb' 8 8]
  | .big => [w.extractLsb' 8 8, w.extractLsb' 0 8]

/-- The instruction word whose bytes are `first`, at the even address, and `second`, after it (R61). -/
def assembleWord (o : Config.IFetchOrder) (first second : Byte) : Word :=
  match o with
  | .little => second ++ first
  | .big => first ++ second

/-- Why bytes do not decode: only when there are fewer than two, since every word is an instruction or a reserved row. -/
inductive DecodeError | truncated
  deriving DecidableEq, Repr

/-- The instruction at the head of a list of bytes, and the bytes after it (R90: always two). -/
def decodeBytes (o : Config.IFetchOrder) : List Byte → Except DecodeError (Instr × List Byte)
  | first :: second :: rest => .ok (decode (assembleWord o first second), rest)
  | _ => .error .truncated

/-- What the decoder reads from the instruction whose bits are `w`, numbered as spec/opcode_table.json numbers them, of which
the table gives `nbits`. -/
def decodeTableWord (nbits w : Nat) : Option Instr :=
  match decodeBytes Config.ifetchOrder (layoutWord Config.ifetchOrder (BitVec.ofNat 16 (w % 2 ^ nbits))) with
  | .ok (i, _) => some i
  | .error _ => none

/-! The encoder: the six formats of R91. -/

def formatRRR (op : BitVec 5) (fn : BitVec 2) (a b c : Reg) : Word :=
  op ++ a.toBits ++ fn ++ b.toBits ++ c.toBits
def formatCSR (op : BitVec 5) (fn : BitVec 2) (a : Reg) (csr : BitVec 6) : Word := op ++ a.toBits ++ fn ++ csr
def formatRI (op : BitVec 5) (a : BitVec 3) (imm : BitVec 8) : Word := op ++ a ++ imm
def formatSHI (op : BitVec 5) (dir : BitVec 1) (a : Reg) (amt : BitVec 4) (c : Reg) : Word :=
  op ++ a.toBits ++ dir ++ amt ++ c.toBits
def formatJ (op : BitVec 5) (imm : BitVec 11) : Word := op ++ imm
def formatMEM (op : BitVec 5) (a : Reg) (imm : BitVec 5) (c : Reg) : Word := op ++ a.toBits ++ imm ++ c.toBits

/-- The word of a term under a numbering of the CSRs (R91, R95, R96; the aliases as R111 prints them, with the corrections of C3).
The numbers stand in the words of `ip` and `clri` only (spec/10_state.md R40; log 6). -/
def encodeWith (n : Config.CsrNumbers) : Instr → Word
  | .bkpt => 0x0000
  | .nop => 0x0800
  | .sysc x => formatRI 0b10110 0b000 x
  | .fence => 0xB801
  | .ftlb => 0xB802
  | .rfi => 0xB804
  | .wfi => 0xB808
  | .scf => 0xB810
  | .rscf => 0xB820
  | .reservedJmpdl064 => 0xB840
  | .reservedJmpdl0128 => 0xB880
  | .reservedJmpdl0Other f => formatRI 0b10111 0b000 f
  | .jmpd rs => formatRI 0b10110 rs.toBits 0x00
  | .reservedJmpdFlags rs f => formatRI 0b10110 rs.toBits f
  | .jmpdl rs => formatRI 0b10111 rs.toBits 0x00
  | .reservedJmpdlFlags rs f => formatRI 0b10111 rs.toBits f
  | .reservedBrhCond condHi imm => formatRI 0b11000 (condHi ++ 0b11#2) imm
  | .add rd rs1 rs2 => formatRRR 0b00000 0b00 rd rs1 rs2
  | .addc rd rs1 rs2 => formatRRR 0b00000 0b01 rd rs1 rs2
  | .sub rd rs1 rs2 => formatRRR 0b00000 0b10 rd rs1 rs2
  | .subb rd rs1 rs2 => formatRRR 0b00000 0b11 rd rs1 rs2
  | .addi rd imm => formatRI 0b00001 rd.toBits imm
  | .cmpi rs imm => formatRI 0b00010 rs.toBits imm
  | .csrr rd csr => formatCSR 0b00011 0b00 rd csr
  | .csrw rs csr => formatCSR 0b00011 0b01 rs csr
  | .slt rd rs1 rs2 => formatRRR 0b00011 0b10 rd rs1 rs2
  | .sltu rd rs1 rs2 => formatRRR 0b00011 0b11 rd rs1 rs2
  | .szr rd rs1 rs2 => formatRRR 0b00100 0b00 rd rs1 rs2
  | .ior rd rs1 rs2 => formatRRR 0b00100 0b01 rd rs1 rs2
  | .and rd rs1 rs2 => formatRRR 0b00100 0b10 rd rs1 rs2
  | .xor rd rs1 rs2 => formatRRR 0b00100 0b11 rd rs1 rs2
  | .iori rd imm => formatRI 0b00101 rd.toBits imm
  | .ioriu rd imm => formatRI 0b00110 rd.toBits imm
  | .andi rd imm => formatRI 0b00111 rd.toBits imm
  | .andiu rd imm => formatRI 0b01000 rd.toBits imm
  | .biti rs imm => formatRI 0b01001 rs.toBits imm
  | .xori rd imm => formatRI 0b01010 rd.toBits imm
  | .xoriu rd imm => formatRI 0b01011 rd.toBits imm
  | .bsl rd amt rs => formatSHI 0b01100 0 rd amt rs
  | .bsr rd amt rs => formatSHI 0b01100 1 rd amt rs
  | .bsrs rd amt rs => formatSHI 0b01101 0 rd amt rs
  | .brr rd amt rs => formatSHI 0b01101 1 rd amt rs
  | .bsld rd rs1 rs2 => formatRRR 0b01110 0b00 rd rs1 rs2
  | .bsrd rd rs1 rs2 => formatRRR 0b01110 0b01 rd rs1 rs2
  | .bsrsd rd rs1 rs2 => formatRRR 0b01110 0b10 rd rs1 rs2
  | .brrd rd rs1 rs2 => formatRRR 0b01110 0b11 rd rs1 rs2
  | .reserved0111100 a b c => formatRRR 0b01111 0b00 a b c
  | .reserved0111101 a b c => formatRRR 0b01111 0b01 a b c
  | .reserved0111110 a b c => formatRRR 0b01111 0b10 a b c
  | .reserved0111111 a b c => formatRRR 0b01111 0b11 a b c
  | .lli rd imm => formatRI 0b10000 rd.toBits imm
  | .lui rd imm => formatRI 0b10001 rd.toBits imm
  | .jmp imm => formatJ 0b10010 imm
  | .jmpl imm => formatJ 0b10011 imm
  | .jmpr imm => formatJ 0b10100 imm
  | .jmprl imm => formatJ 0b10101 imm
  | .brh cond imm => formatRI 0b11000 cond.toBits imm
  | .prfi imm => formatJ 0b11001 imm
  | .mld rd imm base => formatMEM 0b11010 rd imm base
  | .mldw rd imm base => formatMEM 0b11011 rd imm base
  | .mst rs imm base => formatMEM 0b11100 rs imm base
  | .mstw rs imm base => formatMEM 0b11101 rs imm base
  | .xch rw imm base => formatMEM 0b11110 rw imm base
  | .xchw rw imm base => formatMEM 0b11111 rw imm base
  | .mov rd rs => formatRRR 0b00000 0b00 rd rs .zr
  | .test rs => formatRRR 0b00000 0b00 .zr rs .zr
  | .neg rd rs => formatRRR 0b00000 0b10 rd .zr rs
  | .cmp rs1 rs2 => formatRRR 0b00000 0b10 .zr rs1 rs2
  | .inc rd => formatRI 0b00001 rd.toBits 0x01
  | .dec rd => formatRI 0b00001 rd.toBits 0xFF
  | .alloc imm => formatRI 0b00001 0b010 imm
  | .ip rd => formatCSR 0b00011 0b00 rd n.ip
  | .clri => formatCSR 0b00011 0b01 .zr n.pen
  | .sneg rd rs => formatRRR 0b00011 0b10 rd rs .zr
  | .spos rd rs => formatRRR 0b00011 0b10 rd .zr rs
  | .snez rd rs => formatRRR 0b00011 0b11 rd .zr rs
  | .cut4 rd => formatRI 0b01000 rd.toBits 0x0F
  | .cut8 rd => formatRI 0b01000 rd.toBits 0xFF
  | .clrl rd => formatRI 0b01000 rd.toBits 0x00
  | .not rd => formatRI 0b01010 rd.toBits 0xFF
  | .not8 rd => formatRI 0b01011 rd.toBits 0xFF
  | .clr rd => formatRI 0b10001 rd.toBits 0x00
  | .ret => 0xB100
  | .prfd imm base => formatMEM 0b11011 .zr imm base
  | .mclr imm base => formatMEM 0b11100 .zr imm base
  | .mclrw imm base => formatMEM 0b11101 .zr imm base

/-- The word of a term, with the CSR numbers of Config.lean. -/
def encode (i : Instr) : Word := encodeWith Config.csrNumbers i

/-- The base instruction an alias names under a numbering of the CSRs (R111); every other term is its own. -/
def Instr.coreWith (n : Config.CsrNumbers) : Instr → Instr
  | .bkpt => .bkpt
  | .nop => .nop
  | .sysc x => .sysc x
  | .fence => .fence
  | .ftlb => .ftlb
  | .rfi => .rfi
  | .wfi => .wfi
  | .scf => .scf
  | .rscf => .rscf
  | .reservedJmpdl064 => .reservedJmpdl064
  | .reservedJmpdl0128 => .reservedJmpdl0128
  | .reservedJmpdl0Other f => .reservedJmpdl0Other f
  | .jmpd rs => .jmpd rs
  | .reservedJmpdFlags rs f => .reservedJmpdFlags rs f
  | .jmpdl rs => .jmpdl rs
  | .reservedJmpdlFlags rs f => .reservedJmpdlFlags rs f
  | .reservedBrhCond condHi imm => .reservedBrhCond condHi imm
  | .add rd rs1 rs2 => .add rd rs1 rs2
  | .addc rd rs1 rs2 => .addc rd rs1 rs2
  | .sub rd rs1 rs2 => .sub rd rs1 rs2
  | .subb rd rs1 rs2 => .subb rd rs1 rs2
  | .addi rd imm => .addi rd imm
  | .cmpi rs imm => .cmpi rs imm
  | .csrr rd csr => .csrr rd csr
  | .csrw rs csr => .csrw rs csr
  | .slt rd rs1 rs2 => .slt rd rs1 rs2
  | .sltu rd rs1 rs2 => .sltu rd rs1 rs2
  | .szr rd rs1 rs2 => .szr rd rs1 rs2
  | .ior rd rs1 rs2 => .ior rd rs1 rs2
  | .and rd rs1 rs2 => .and rd rs1 rs2
  | .xor rd rs1 rs2 => .xor rd rs1 rs2
  | .iori rd imm => .iori rd imm
  | .ioriu rd imm => .ioriu rd imm
  | .andi rd imm => .andi rd imm
  | .andiu rd imm => .andiu rd imm
  | .biti rs imm => .biti rs imm
  | .xori rd imm => .xori rd imm
  | .xoriu rd imm => .xoriu rd imm
  | .bsl rd amt rs => .bsl rd amt rs
  | .bsr rd amt rs => .bsr rd amt rs
  | .bsrs rd amt rs => .bsrs rd amt rs
  | .brr rd amt rs => .brr rd amt rs
  | .bsld rd rs1 rs2 => .bsld rd rs1 rs2
  | .bsrd rd rs1 rs2 => .bsrd rd rs1 rs2
  | .bsrsd rd rs1 rs2 => .bsrsd rd rs1 rs2
  | .brrd rd rs1 rs2 => .brrd rd rs1 rs2
  | .reserved0111100 a b c => .reserved0111100 a b c
  | .reserved0111101 a b c => .reserved0111101 a b c
  | .reserved0111110 a b c => .reserved0111110 a b c
  | .reserved0111111 a b c => .reserved0111111 a b c
  | .lli rd imm => .lli rd imm
  | .lui rd imm => .lui rd imm
  | .jmp imm => .jmp imm
  | .jmpl imm => .jmpl imm
  | .jmpr imm => .jmpr imm
  | .jmprl imm => .jmprl imm
  | .brh cond imm => .brh cond imm
  | .prfi imm => .prfi imm
  | .mld rd imm base => .mld rd imm base
  | .mldw rd imm base => .mldw rd imm base
  | .mst rs imm base => .mst rs imm base
  | .mstw rs imm base => .mstw rs imm base
  | .xch rw imm base => .xch rw imm base
  | .xchw rw imm base => .xchw rw imm base
  | .mov rd rs => .add rd rs .zr
  | .test rs => .add .zr rs .zr
  | .neg rd rs => .sub rd .zr rs
  | .cmp rs1 rs2 => .sub .zr rs1 rs2
  | .inc rd => .addi rd 0x01
  | .dec rd => .addi rd 0xFF
  | .alloc imm => .addi .sp imm
  | .ip rd => .csrr rd n.ip
  | .clri => .csrw .zr n.pen
  | .sneg rd rs => .slt rd rs .zr
  | .spos rd rs => .slt rd .zr rs
  | .snez rd rs => .sltu rd .zr rs
  | .cut4 rd => .andiu rd 0x0F
  | .cut8 rd => .andiu rd 0xFF
  | .clrl rd => .andiu rd 0x00
  | .not rd => .xori rd 0xFF
  | .not8 rd => .xoriu rd 0xFF
  | .clr rd => .lui rd 0x00
  | .ret => .jmpd .rp
  | .prfd imm base => .mldw .zr imm base
  | .mclr imm base => .mst .zr imm base
  | .mclrw imm base => .mstw .zr imm base

/-- The base instruction an alias names, with the CSR numbers of Config.lean. -/
def Instr.core (i : Instr) : Instr := i.coreWith Config.csrNumbers

/-- Is the term an alias (R111)? -/
def Instr.isAlias : Instr → Bool
  | .bkpt => false
  | .nop => false
  | .sysc _ => false
  | .fence => false
  | .ftlb => false
  | .rfi => false
  | .wfi => false
  | .scf => false
  | .rscf => false
  | .reservedJmpdl064 => false
  | .reservedJmpdl0128 => false
  | .reservedJmpdl0Other _ => false
  | .jmpd _ => false
  | .reservedJmpdFlags _ _ => false
  | .jmpdl _ => false
  | .reservedJmpdlFlags _ _ => false
  | .reservedBrhCond _ _ => false
  | .add _ _ _ => false
  | .addc _ _ _ => false
  | .sub _ _ _ => false
  | .subb _ _ _ => false
  | .addi _ _ => false
  | .cmpi _ _ => false
  | .csrr _ _ => false
  | .csrw _ _ => false
  | .slt _ _ _ => false
  | .sltu _ _ _ => false
  | .szr _ _ _ => false
  | .ior _ _ _ => false
  | .and _ _ _ => false
  | .xor _ _ _ => false
  | .iori _ _ => false
  | .ioriu _ _ => false
  | .andi _ _ => false
  | .andiu _ _ => false
  | .biti _ _ => false
  | .xori _ _ => false
  | .xoriu _ _ => false
  | .bsl _ _ _ => false
  | .bsr _ _ _ => false
  | .bsrs _ _ _ => false
  | .brr _ _ _ => false
  | .bsld _ _ _ => false
  | .bsrd _ _ _ => false
  | .bsrsd _ _ _ => false
  | .brrd _ _ _ => false
  | .reserved0111100 _ _ _ => false
  | .reserved0111101 _ _ _ => false
  | .reserved0111110 _ _ _ => false
  | .reserved0111111 _ _ _ => false
  | .lli _ _ => false
  | .lui _ _ => false
  | .jmp _ => false
  | .jmpl _ => false
  | .jmpr _ => false
  | .jmprl _ => false
  | .brh _ _ => false
  | .prfi _ => false
  | .mld _ _ _ => false
  | .mldw _ _ _ => false
  | .mst _ _ _ => false
  | .mstw _ _ _ => false
  | .xch _ _ _ => false
  | .xchw _ _ _ => false
  | .mov _ _ => true
  | .test _ => true
  | .neg _ _ => true
  | .cmp _ _ => true
  | .inc _ => true
  | .dec _ => true
  | .alloc _ => true
  | .ip _ => true
  | .clri => true
  | .sneg _ _ => true
  | .spos _ _ => true
  | .snez _ _ => true
  | .cut4 _ => true
  | .cut8 _ => true
  | .clrl _ => true
  | .not _ => true
  | .not8 _ => true
  | .clr _ => true
  | .ret => true
  | .prfd _ _ => true
  | .mclr _ _ => true
  | .mclrw _ _ => true

/-- The mnemonic of a term's row, as spec/opcode_table.json spells it. -/
def Instr.mnemonic : Instr → String
  | .bkpt => "bkpt"
  | .nop => "nop"
  | .sysc _ => "sysc"
  | .fence => "fence"
  | .ftlb => "ftlb"
  | .rfi => "rfi"
  | .wfi => "wfi"
  | .scf => "scf"
  | .rscf => "rscf"
  | .reservedJmpdl064 => "reserved_jmpdl_0_64"
  | .reservedJmpdl0128 => "reserved_jmpdl_0_128"
  | .reservedJmpdl0Other _ => "reserved_jmpdl_0_other"
  | .jmpd _ => "jmpd"
  | .reservedJmpdFlags _ _ => "reserved_jmpd_flags"
  | .jmpdl _ => "jmpdl"
  | .reservedJmpdlFlags _ _ => "reserved_jmpdl_flags"
  | .reservedBrhCond _ _ => "reserved_brh_cond"
  | .add _ _ _ => "add"
  | .addc _ _ _ => "addc"
  | .sub _ _ _ => "sub"
  | .subb _ _ _ => "subb"
  | .addi _ _ => "addi"
  | .cmpi _ _ => "cmpi"
  | .csrr _ _ => "csrr"
  | .csrw _ _ => "csrw"
  | .slt _ _ _ => "slt"
  | .sltu _ _ _ => "sltu"
  | .szr _ _ _ => "szr"
  | .ior _ _ _ => "ior"
  | .and _ _ _ => "and"
  | .xor _ _ _ => "xor"
  | .iori _ _ => "iori"
  | .ioriu _ _ => "ioriu"
  | .andi _ _ => "andi"
  | .andiu _ _ => "andiu"
  | .biti _ _ => "biti"
  | .xori _ _ => "xori"
  | .xoriu _ _ => "xoriu"
  | .bsl _ _ _ => "bsl"
  | .bsr _ _ _ => "bsr"
  | .bsrs _ _ _ => "bsrs"
  | .brr _ _ _ => "brr"
  | .bsld _ _ _ => "bsld"
  | .bsrd _ _ _ => "bsrd"
  | .bsrsd _ _ _ => "bsrsd"
  | .brrd _ _ _ => "brrd"
  | .reserved0111100 _ _ _ => "reserved_01111_00"
  | .reserved0111101 _ _ _ => "reserved_01111_01"
  | .reserved0111110 _ _ _ => "reserved_01111_10"
  | .reserved0111111 _ _ _ => "reserved_01111_11"
  | .lli _ _ => "lli"
  | .lui _ _ => "lui"
  | .jmp _ => "jmp"
  | .jmpl _ => "jmpl"
  | .jmpr _ => "jmpr"
  | .jmprl _ => "jmprl"
  | .brh _ _ => "brh"
  | .prfi _ => "prfi"
  | .mld _ _ _ => "mld"
  | .mldw _ _ _ => "mldw"
  | .mst _ _ _ => "mst"
  | .mstw _ _ _ => "mstw"
  | .xch _ _ _ => "xch"
  | .xchw _ _ _ => "xchw"
  | .mov _ _ => "mov"
  | .test _ => "test"
  | .neg _ _ => "neg"
  | .cmp _ _ => "cmp"
  | .inc _ => "inc"
  | .dec _ => "dec"
  | .alloc _ => "alloc"
  | .ip _ => "ip"
  | .clri => "clri"
  | .sneg _ _ => "sneg"
  | .spos _ _ => "spos"
  | .snez _ _ => "snez"
  | .cut4 _ => "cut4"
  | .cut8 _ => "cut8"
  | .clrl _ => "clrl"
  | .not _ => "not"
  | .not8 _ => "not8"
  | .clr _ => "clr"
  | .ret => "ret"
  | .prfd _ _ => "prfd"
  | .mclr _ _ => "mclr"
  | .mclrw _ _ => "mclrw"

/-! The decode table. -/

/-- A row of the decode table of R95: a word belongs to the row when `word &&& mask = value`. -/
structure TableRow where
  mnemonic : String
  value : Word
  mask : Word
  deriving DecidableEq, Repr

/-- The specials and reserved carve-outs, which come first (R96, R101). -/
def decodeTableSpecials : List TableRow :=
  [⟨"bkpt", 0x0000, 0xFFFF⟩,
   ⟨"nop", 0x0800, 0xFFFF⟩,
   ⟨"sysc", 0xB000, 0xFF00⟩,
   ⟨"fence", 0xB801, 0xFFFF⟩,
   ⟨"ftlb", 0xB802, 0xFFFF⟩,
   ⟨"rfi", 0xB804, 0xFFFF⟩,
   ⟨"wfi", 0xB808, 0xFFFF⟩,
   ⟨"scf", 0xB810, 0xFFFF⟩,
   ⟨"rscf", 0xB820, 0xFFFF⟩,
   ⟨"reserved_jmpdl_0_64", 0xB840, 0xFFFF⟩,
   ⟨"reserved_jmpdl_0_128", 0xB880, 0xFFFF⟩,
   ⟨"reserved_jmpdl_0_other", 0xB800, 0xFF00⟩,
   ⟨"jmpd", 0xB000, 0xF8FF⟩,
   ⟨"reserved_jmpd_flags", 0xB000, 0xF800⟩,
   ⟨"jmpdl", 0xB800, 0xF8FF⟩,
   ⟨"reserved_jmpdl_flags", 0xB800, 0xF800⟩,
   ⟨"reserved_brh_cond", 0xC300, 0xFB00⟩]

/-- The rows of opcodes 00000 to 01011 (R95). -/
def decodeTableAlu : List TableRow :=
  [⟨"add", 0x0000, 0xF8C0⟩,
   ⟨"addc", 0x0040, 0xF8C0⟩,
   ⟨"sub", 0x0080, 0xF8C0⟩,
   ⟨"subb", 0x00C0, 0xF8C0⟩,
   ⟨"addi", 0x0800, 0xF800⟩,
   ⟨"cmpi", 0x1000, 0xF800⟩,
   ⟨"csrr", 0x1800, 0xF8C0⟩,
   ⟨"csrw", 0x1840, 0xF8C0⟩,
   ⟨"slt", 0x1880, 0xF8C0⟩,
   ⟨"sltu", 0x18C0, 0xF8C0⟩,
   ⟨"szr", 0x2000, 0xF8C0⟩,
   ⟨"ior", 0x2040, 0xF8C0⟩,
   ⟨"and", 0x2080, 0xF8C0⟩,
   ⟨"xor", 0x20C0, 0xF8C0⟩,
   ⟨"iori", 0x2800, 0xF800⟩,
   ⟨"ioriu", 0x3000, 0xF800⟩,
   ⟨"andi", 0x3800, 0xF800⟩,
   ⟨"andiu", 0x4000, 0xF800⟩,
   ⟨"biti", 0x4800, 0xF800⟩,
   ⟨"xori", 0x5000, 0xF800⟩,
   ⟨"xoriu", 0x5800, 0xF800⟩]

/-- The rows of opcodes 01100 to 11111 (R95). -/
def decodeTableRest : List TableRow :=
  [⟨"bsl", 0x6000, 0xF880⟩,
   ⟨"bsr", 0x6080, 0xF880⟩,
   ⟨"bsrs", 0x6800, 0xF880⟩,
   ⟨"brr", 0x6880, 0xF880⟩,
   ⟨"bsld", 0x7000, 0xF8C0⟩,
   ⟨"bsrd", 0x7040, 0xF8C0⟩,
   ⟨"bsrsd", 0x7080, 0xF8C0⟩,
   ⟨"brrd", 0x70C0, 0xF8C0⟩,
   ⟨"reserved_01111_00", 0x7800, 0xF8C0⟩,
   ⟨"reserved_01111_01", 0x7840, 0xF8C0⟩,
   ⟨"reserved_01111_10", 0x7880, 0xF8C0⟩,
   ⟨"reserved_01111_11", 0x78C0, 0xF8C0⟩,
   ⟨"lli", 0x8000, 0xF800⟩,
   ⟨"lui", 0x8800, 0xF800⟩,
   ⟨"jmp", 0x9000, 0xF800⟩,
   ⟨"jmpl", 0x9800, 0xF800⟩,
   ⟨"jmpr", 0xA000, 0xF800⟩,
   ⟨"jmprl", 0xA800, 0xF800⟩,
   ⟨"brh", 0xC000, 0xF800⟩,
   ⟨"prfi", 0xC800, 0xF800⟩,
   ⟨"mld", 0xD000, 0xF800⟩,
   ⟨"mldw", 0xD800, 0xF800⟩,
   ⟨"mst", 0xE000, 0xF800⟩,
   ⟨"mstw", 0xE800, 0xF800⟩,
   ⟨"xch", 0xF000, 0xF800⟩,
   ⟨"xchw", 0xF800, 0xF800⟩]

/-- The 64 ordered rows of R95: the first row a word belongs to is its decode. -/
def decodeTable : List TableRow := decodeTableSpecials ++ decodeTableAlu ++ decodeTableRest

/-- The mnemonic of the first row of `decodeTable` that `w` belongs to (R95). -/
def tableMnemonic (w : Word) : Option String :=
  (decodeTable.find? fun r => w &&& r.mask == r.value).map (·.mnemonic)

end Sys2Proof
end

