-- ==== Sys2Proof/Machine/State.lean ====
section
/-! DEFINITION. The state of one QCPU 2 core (spec/10_state.md), the ways a step can stop (spec/60_exceptions.md R280), and the
state after reset (spec/10_state.md R50). -/

namespace Sys2Proof.Machine

/-- Memory: the bytes that have a value, as (address, byte) pairs with strictly rising addresses below 65536
(spec/10_state.md R46). An address that is not listed has no value (spec/70_reset_and_hazards.md R311; log 5). -/
abbrev Memory := List Host.Cell

/-- A load on its way (spec/10_state.md R39): the value it will deliver, fixed at issue, and the number of instructions that
may still run before it has arrived (a free value of the model, log 8). -/
structure PendingLoad where
  value : Word
  left : Nat
  deriving DecidableEq, Repr

/-- A general register r1 to r7 with its async state: `resolved` is false exactly while a load is on its way
(spec/10_state.md R36, R39). -/
structure Gpr where
  val : Word
  load : Option PendingLoad
  deriving DecidableEq, Repr

/-- The registers r1 to r7 by their identifiers (spec/10_state.md R30); r0 has no storage (R31). -/
structure Gprs where
  rp : Gpr
  sp : Gpr
  x1 : Gpr
  x2 : Gpr
  x3 : Gpr
  t1 : Gpr
  t2 : Gpr
  deriving DecidableEq, Repr

/-- The flags register fl (spec/10_state.md R34): carry, sign, zero and the unnamed fourth bit. -/
structure Flags where
  c : Bool
  s : Bool
  z : Bool
  u : Bool
  deriving DecidableEq, Repr

/-- Hidden state (spec/10_state.md R47 (c), (d), R50): the TLB, the prefetched 32-byte lines and the armed TLB flush. None of it
has an architectural effect (spec/20_memory.md R66, R71): no operation reads or writes it (log 19). The source gives no format
for a TLB entry; a number stands for one (DESIGN CHOICE, safe, log 30). A prefetched line is a 32-byte line, named by address bits
[15:5]: DESIGN CHOICE, safe, log 30, since R47 only finds that size suggested and N18 says not to assume it. -/
structure Hidden where
  tlb : List Nat
  prefetched : List (BitVec 11)
  flushArmed : Bool
  deriving DecidableEq, Repr

/-- The privilege mode: there is a single one, in which everything is permitted (spec/60_exceptions.md R300; log 24). -/
inductive Mode | single
  deriving DecidableEq, Repr

/-- The state of the core: everything spec/10_state.md gives it, and `draws`, the model's own. -/
structure State where
  /-- r1 to r7 with their async state (R30, R36, R39). -/
  gprs : Gprs
  /-- The instruction pointer, address bits [15:1] of the instruction (R33). -/
  ip : BitVec 15
  /-- The flags register (R34). -/
  fl : Flags
  /-- Memory (R46). -/
  mem : Memory
  /-- CSR `ira`, the interrupt return address, bits [15:1] (R44). -/
  ira : BitVec 15
  /-- CSR `pen`, the set of pending interrupts, as rising source numbers (R43, R47 (b); log 17). -/
  pendingInterrupts : List Nat
  /-- State a program can neither name nor observe (R47). -/
  hidden : Hidden
  /-- The privilege mode (spec/60_exceptions.md R300). -/
  mode : Mode
  /-- `CODE_RANGE`: where the loaded program image lies (spec/20_memory.md R70; log 18). -/
  code : List AddrRange
  /-- The MODEL's own field: how many free values have been taken so far (log 9). -/
  draws : Nat
  deriving DecidableEq, Repr

/-- Why a run stops at an event (spec/60_exceptions.md R280, R284): the modelled run ends in the state before the instruction,
with pc at the instruction. All of them are safe: nothing can be proved of what the chip does afterwards (log 15). -/
inductive Fault
  /-- Raised by an instruction that writes register `d` while its load has not arrived (R281). Safe. -/
  | asyncWriteFault (d : Reg)
  /-- Raised by `bkpt` (spec/40_arithmetic.md R136). Safe. -/
  | breakpoint
  /-- Raised by `sysc n` (spec/46_system.md R247). Safe. -/
  | syscall (n : BitVec 8)
  /-- Raised by every reserved word `w` (R282). Safe. -/
  | reservedInstruction (w : Word)
  /-- Raised by a word access at the odd address `ea` (R283). Safe. -/
  | misalignedAccess (ea : Word)
  /-- Raised by `rfi` (spec/46_system.md R243). Safe. -/
  | returnFromInterrupt
  /-- Raised by `wfi` when no interrupt is pending and none can arrive, `INTERRUPTS = never` (spec/46_system.md R244; log 16).
  Safe. -/
  | waitForInterrupt
  /-- Raised by a read of the memory byte at `a`, which has no value (spec/70_reset_and_hazards.md R311). Safe. -/
  | unsetRead (a : Word)
  /-- Raised when interrupt `src` is taken (R287): under `INTERRUPTS = any`, or by `wfi` with a pending interrupt. Safe. -/
  | interrupt (src : Nat)
  deriving DecidableEq, Repr

/-- What the model has no meaning for: not a behaviour of the chip (spec/10_state.md R45). All of them are safe. -/
inductive Refusal
  /-- An instruction without a meaning in this model, by its mnemonic; raised by no arm of `exec`. Safe. -/
  | notModelled (mnemonic : String)
  /-- Raised by `csrr`, `csrw` with a number that is none of the four named CSRs (spec/10_state.md R45). Safe. -/
  | unassignedCsr (csr : BitVec 6)
  /-- Raised by `csrw` to ip (spec/10_state.md R41). Safe. -/
  | csrIpWrite
  /-- Raised by `csrr` from pen (spec/10_state.md R43). Safe. -/
  | csrPenRead
  /-- Raised by `csrw` of a value other than zero to pen (spec/10_state.md R43). Safe. -/
  | csrPenWrite (v : Word)
  /-- Raised by `csrr` and `csrw` of the interrupt return address (spec/10_state.md R44). Safe. -/
  | csrIraAccess
  /-- Raised by a fetch, load, store or exchange of a byte in `MMIO` (spec/20_memory.md R72). Safe. -/
  | mmioAccess (a : Word)
  /-- Raised by a store or exchange whose bytes reach into `CODE_RANGE` (spec/20_memory.md R70). Safe. -/
  | storeIntoCode (a : Word)
  /-- Raised by a register shift under `SHIFT_AMOUNT_MODE = refuse_ge16` (spec/43_shift.md R189). Safe. -/
  | shiftAmountTooLarge (amount : Word)
  deriving DecidableEq, Repr

/-- The outcome of a step of this machine. -/
abbrev Outcome := Host.Outcome State Fault Refusal

/-! Reset. -/

/-- A register after reset: resolved (R50), value zero (DESIGN CHOICE, unsafe, log 1: the spec gives none). -/
def Gpr.reset : Gpr := { val := 0, load := none }

/-- r1 to r7 after reset. -/
def Gprs.reset : Gprs :=
  { rp := .reset, sp := .reset, x1 := .reset, x2 := .reset, x3 := .reset, t1 := .reset, t2 := .reset }

/-- fl after reset: all clear (DESIGN CHOICE, unsafe, log 2: the spec gives no value). -/
def Flags.reset : Flags := { c := false, s := false, z := false, u := false }

/-- Hidden state after reset: empty, none, not armed (spec/10_state.md R50). -/
def Hidden.reset : Hidden := { tlb := [], prefetched := [], flushArmed := false }

/-- The machine right after reset (spec/10_state.md R50, spec/70_reset_and_hazards.md R310). The values of r1 to r7, fl, ira,
ip and draws are the model's (log 1 to 4, 9); no program is loaded (log 18). -/
def State.reset : State :=
  { gprs := .reset
    ip := Config.resetPc
    fl := .reset
    mem := []
    ira := 0
    pendingInterrupts := []
    hidden := .reset
    mode := .single
    code := []
    draws := 0 }

end Sys2Proof.Machine
end

