-- ==== Sys2Proof/Machine/Ops.lean ====
section
/-! DEFINITION. The named operations over registers, pc, memory and events: the primitives of spec/00_scope.md R11, the
asynchronous registers of spec/10_state.md R36 to R39, memory access of spec/20_memory.md, instruction fetch, and the one way an
event is taken (spec/60_exceptions.md R284). -/

namespace Sys2Proof.Machine

/-! Memory (spec/10_state.md R46). -/

/-- The byte at an address, `none` where nothing has given it a value (spec/70_reset_and_hazards.md R311; log 5). -/
def Memory.read : Memory → Nat → Option Byte
  | [], _ => none
  | (k, v) :: m, a => if k = a then some v else Memory.read m a

/-- Store a byte, keeping the addresses rising. -/
def Memory.write : Memory → Nat → Byte → Memory
  | [], a, b => [(a, b)]
  | (k, v) :: m, a, b =>
    if a < k then (a, b) :: (k, v) :: m else if a = k then (a, b) :: m else (k, v) :: Memory.write m a b

/-- The canonical form: addresses strictly rise and lie in the 65536-byte space (spec/10_state.md R46). -/
abbrev Memory.wf (m : Memory) : Prop := (m.map (·.1)).Pairwise (· < ·) ∧ ∀ a ∈ m.map (·.1), a < 65536

/-- Does an address lie in one of the ranges? -/
def inRanges (ranges : List AddrRange) (a : Word) : Bool :=
  ranges.any fun r => decide (r.base ≤ a.toNat) && decide (a.toNat < r.base + r.size)

/-! The general registers and their async state (spec/10_state.md R30, R31, R36 to R39). -/

/-- r0: reads zero, never pending (R31). -/
def Gpr.zero : Gpr := { val := 0, load := none }

/-- The resolve step of one register (R39): `x[d] <- pending[d]; resolved[d] <- true`. -/
def Gpr.resolve (g : Gpr) : Gpr :=
  match g.load with
  | none => g
  | some p => { val := p.value, load := none }

/-- The memory side's turn for one register: a load that is due arrives, any other comes one instruction closer (R39; log 8). -/
def Gpr.tick (g : Gpr) : Gpr :=
  match g.load with
  | none => g
  | some { value := v, left := 0 } => { val := v, load := none }
  | some { value := v, left := n + 1 } => { g with load := some { value := v, left := n } }

/-- The value the register has, or will have once its load has arrived (R39). -/
def Gpr.view (g : Gpr) : Word :=
  match g.load with
  | none => g.val
  | some p => p.value

/-- The same operation on each of r1 to r7. -/
def Gprs.map (f : Gpr → Gpr) (g : Gprs) : Gprs :=
  { rp := f g.rp, sp := f g.sp, x1 := f g.x1, x2 := f g.x2, x3 := f g.x3, t1 := f g.t1, t2 := f g.t2 }

/-- A register of the file; r0 is the constant zero (R30, R31). -/
def Gprs.get (g : Gprs) : Reg → Gpr
  | .zr => .zero
  | .rp => g.rp
  | .sp => g.sp
  | .x1 => g.x1
  | .x2 => g.x2
  | .x3 => g.x3
  | .t1 => g.t1
  | .t2 => g.t2

/-- Replace a register of the file; a write to r0 is discarded (R31). -/
def Gprs.set (g : Gprs) (r : Reg) (v : Gpr) : Gprs :=
  match r with
  | .zr => g
  | .rp => { g with rp := v }
  | .sp => { g with sp := v }
  | .x1 => { g with x1 := v }
  | .x2 => { g with x2 := v }
  | .x3 => { g with x3 := v }
  | .t1 => { g with t1 := v }
  | .t2 => { g with t2 := v }

/-- A register with its async state. -/
def State.gpr (s : State) (r : Reg) : Gpr := s.gprs.get r

/-- Replace a register with its async state. -/
def State.setGpr (s : State) (r : Reg) (g : Gpr) : State := { s with gprs := s.gprs.set r g }

/-- `resolved[r]`; r0 is always resolved (R31, R36). -/
def State.resolved (s : State) (r : Reg) : Bool := (s.gpr r).load.isNone

/-- `x[r]`, for a register that is resolved (spec/00_scope.md R11). -/
def State.readReg (s : State) (r : Reg) : Word := (s.gpr r).val

/-- The value that a reader of `r` gets: a pending register's reader is held until the load has arrived (R37, R39). -/
def State.view (s : State) (r : Reg) : Word := (s.gpr r).view

/-- `x[r] <- v` for a register that is resolved; nothing for r0 (spec/00_scope.md R11). -/
def State.setReg (s : State) (r : Reg) (v : Word) : State := s.setGpr r { val := v, load := none }

/-- The state in which a read of `r` goes on: held while `r` is unresolved, lifted by its resolve step, which is always
eventually taken (R37, R39, spec/70_reset_and_hazards.md R321). A hold changes no state, so it is no step of its own
(DEDUCED, safe, log 7). -/
def State.await (s : State) (r : Reg) : State := s.setGpr r (s.gpr r).resolve

/-- The state in which every load has arrived (spec/46_system.md R241; log 7). -/
def State.awaitAll (s : State) : State := { s with gprs := s.gprs.map Gpr.resolve }

/-- Issue a load into `r`, r not r0: its value is fixed now, `x[r]` is unchanged, `r` is unresolved, and how long that lasts is
a free value (R39, spec/47_memory_ops.md R261; log 8). -/
def State.issueLoad (s : State) (r : Reg) (v : Word) : State :=
  { s.setGpr r { s.gpr r with load := some { value := v, left := Config.loadLatency s.draws } } with draws := s.draws + 1 }

/-- The memory side's turn between two instructions: any pending load may arrive (R39, U19; log 8). One free value is counted,
for the interrupt that may arrive here (log 13). -/
def State.memorySide (s : State) : State := { s with gprs := s.gprs.map Gpr.tick, draws := s.draws + 1 }

/-! The instruction pointer (spec/10_state.md R33, R35). -/

/-- `pc`, the byte address `{ip, 0}` (R33). -/
def State.pc (s : State) : Word := s.ip ++ 0#1

/-- `npc = (pc + 2) mod 2^16` (R33). -/
def State.npc (s : State) : Word := s.pc + 2

/-- `pc <- t`: ip keeps bits [15:1] of the address (R33). -/
def State.setPc (s : State) (t : Word) : State := { s with ip := t.extractLsb' 1 15 }

/-- `pc <- npc` (R35). -/
def State.advance (s : State) : State := s.setPc s.npc

/-! Other state updates. -/

/-- Replace the flags register. -/
def State.setFl (s : State) (fl : Flags) : State := { s with fl := fl }

/-- Take `n` free values (spec/00_scope.md R11 `DRAW1`; log 9). -/
def State.takeDraws (s : State) (n : Nat) : State := { s with draws := s.draws + n }

/-! Events (spec/60_exceptions.md). -/

/-- `raise E(info)`: the ONE way every event is taken (spec/00_scope.md R11, spec/60_exceptions.md R284). No handler is entered,
nothing is saved, nothing is written: the run ends, in the state before the instruction (log 15). The return from an interrupt
is an event of this kind as well (R289). -/
def raise (f : Fault) : Outcome := .fault f

/-- The destination check of the template (spec/00_scope.md R12 step 3, spec/10_state.md R38). -/
def guardDest (d : Reg) (s : State) (k : Outcome) : Outcome :=
  if s.resolved d then k else raise (.asyncWriteFault d)

/-- The pending interrupt that is taken; which one of several is a free value (spec/46_system.md R244; log 16). -/
def takenInterrupt (pending : List Nat) : Nat := pending.getD (Config.interruptTaken pending % pending.length) 0

/-- The interrupt that arrives before this instruction, if one does (spec/60_exceptions.md R287; log 13). -/
def arrivingInterrupt (mode : Config.Interrupts) (s : State) : Option Nat :=
  match mode with
  | .never => none
  | .any => Config.interruptOracle s.draws

/-! Reading sources (spec/00_scope.md R12 step 2). -/

/-- Read one source register, holding while it is unresolved. -/
def withSource (r : Reg) (s : State) (k : Word → State → Outcome) : Outcome :=
  k ((s.await r).readReg r) (s.await r)

/-- Read two source registers, holding while either is unresolved. -/
def withSources (r1 r2 : Reg) (s : State) (k : Word → Word → State → Outcome) : Outcome :=
  k (((s.await r1).await r2).readReg r1) (((s.await r1).await r2).readReg r2) ((s.await r1).await r2)

/-- Write a result and go on: `x[rd] <- v; pc <- npc`. -/
def writeBack (rd : Reg) (v : Word) (s : State) : Outcome := .next (s.setReg rd v).advance

/-! Data memory (spec/20_memory.md). -/

/-- The byte at an address. -/
def State.readByte (s : State) (a : Word) : Option Byte := s.mem.read a.toNat

/-- Store a byte. -/
def State.writeByte (s : State) (a : Word) (b : Byte) : State := { s with mem := s.mem.write a.toNat b }

/-- Store a word, low byte at the lower address; addresses wrap (R60, R73). -/
def State.writeWord (s : State) (a v : Word) : State :=
  (s.writeByte a (v.extractLsb' 0 8)).writeByte (a + 1) (v.extractLsb' 8 8)

/-- The alignment check of a word access (R63): the address it is made at. -/
def alignWord (m : Config.MisalignedWord) (ea : Word) (k : Word → Outcome) : Outcome :=
  if ea.getLsbD 0 then
    match m with
    | .fault => raise (.misalignedAccess ea)
    | .ignoreBit0 => k (ea &&& 0xFFFE)
  else k ea

/-- The check that no accessed byte lies in `MMIO` (R72, spec/47_memory_ops.md R260 item 4). -/
def guardMmio (mmio : List AddrRange) (bytes : List Word) (k : Outcome) : Outcome :=
  match bytes.find? (inRanges mmio) with
  | some a => .refused (.mmioAccess a)
  | none => k

/-- The check that no written byte lies in `CODE_RANGE` (R70, spec/47_memory_ops.md R260 item 4). -/
def guardCode (bytes : List Word) (s : State) (k : Outcome) : Outcome :=
  match bytes.find? (inRanges s.code) with
  | some a => .refused (.storeIntoCode a)
  | none => k

/-- Read a byte that must have a value (spec/70_reset_and_hazards.md R311). -/
def withByte (a : Word) (s : State) (k : Byte → Outcome) : Outcome :=
  match s.readByte a with
  | some b => k b
  | none => raise (.unsetRead a)

/-- `MemRead(a, 2)`: the byte at the lower address is the low half (R60). -/
def withWord (a : Word) (s : State) (k : Word → Outcome) : Outcome :=
  withByte a s fun lo => withByte (a + 1) s fun hi => k (hi ++ lo)

/-! Instruction fetch (spec/20_memory.md R61, R62). -/

/-- Fetch the instruction word at pc. Fetch is never misaligned; its bytes must have a value (R311); a fetch from `MMIO` is an
access to it (R72; DEDUCED, log 22). It reads memory as it stands: a byte that the program stored outside `CODE_RANGE` is seen
as stored, at once. The source is silent on whether a later fetch sees a store (R70, spec/70_reset_and_hazards.md R318, N18):
DESIGN CHOICE, unsafe, log 29. -/
def fetch (o : Config.IFetchOrder) (mmio : List AddrRange) (s : State) (k : Word → Outcome) : Outcome :=
  guardMmio mmio [s.pc, s.pc + 1] <|
    withByte s.pc s fun first => withByte (s.pc + 1) s fun second => k (assembleWord o first second)

/-- One step of a machine that executes an instruction by `run` (spec/00_scope.md R12). Between two instructions the memory side
may deliver loads (spec/10_state.md R39) and an interrupt may arrive (spec/60_exceptions.md R287); then the instruction at pc is
fetched, decoded and executed. -/
def stepBy (run : Instr → State → Outcome) (o : Config.IFetchOrder) (mmio : List AddrRange) (ints : Config.Interrupts)
    (s : State) : Outcome :=
  match arrivingInterrupt ints s with
  | some src => raise (.interrupt src)
  | none => fetch o mmio s.memorySide fun w => run (decode w) s.memorySide

/-- Put the bytes of a list into memory from address `a` on. -/
def State.placeBytes (s : State) (a : Word) : List Byte → State
  | [] => s
  | b :: bs => (s.writeByte a b).placeBytes (a + 1) bs

/-- Put an instruction word into memory at pc, where the next step fetches (spec/20_memory.md R61). -/
def State.placeWord (o : Config.IFetchOrder) (w : Word) (s : State) : State := s.placeBytes s.pc (layoutWord o w)

end Sys2Proof.Machine
end

