-- ==== Sys2Proof/Machine/Flags.lean ====
section
/-! DEFINITION. Every flag computation: the adder and the arithmetic flag write (spec/00_scope.md R11, spec/40_arithmetic.md
R138, R147), the logical one (spec/42_logic.md R176), that of the other ALU instructions (spec/43_shift.md R198), the 4-bit value
of fl (spec/10_state.md R34, R42) and the conditions of `brh` (spec/45_jump_branch.md R227). -/

namespace Sys2Proof.Machine

/-- `AddC(a, b, cin)`: the 16-bit sum and the carry out of the 17-bit sum (R11, R147). -/
def addC (a b : Word) (cin : Bool) : Word × Bool :=
  (BitVec.ofNat 16 (a.toNat + b.toNat + cin.toNat), decide (65536 ≤ a.toNat + b.toNat + cin.toNat))

/-- Subtraction as a + ~b + cin, with the carry as `SUB_CARRY` writes it (R132, R133, R147, C1). -/
def subC (m : Config.SubCarry) (a b : Word) (cin : Bool) : Word × Bool :=
  match m with
  | .notBorrow => addC a (~~~b) cin
  | .borrow => ((addC a (~~~b) cin).1, !(addC a (~~~b) cin).2)

/-- `ArithFlags(r, k)`: c from the carry, z and s from the result, u unchanged (R138). -/
def arithFlags (r : Word) (k : Bool) (fl : Flags) : Flags :=
  { c := k, s := r.msb, z := r == 0, u := fl.u }

/-- `LogicFlags(r)`: z and s from the result; c a free value by default (R176; log 9, log 11). -/
def logicFlags (m : Config.LogicCarry) (r : Word) (s : State) : State :=
  match m with
  | .draw => (s.setFl (arithFlags r (Config.drawBit s.draws) s.fl)).takeDraws 1
  | .unchanged => s.setFl (arithFlags r s.fl.c s.fl)
  | .cleared => s.setFl (arithFlags r false s.fl)

/-- fl after `slt`, `sltu`, `szr` and the shifts, `r` the value computed: c, s, z each a free value by default, u unchanged
(R48, R152, R165, R198; log 9, log 11). -/
def otherAluFlags (m : Config.FlagsOtherAlu) (r : Word) (s : State) : State :=
  match m with
  | .draw =>
    (s.setFl { c := Config.drawBit s.draws, s := Config.drawBit (s.draws + 1), z := Config.drawBit (s.draws + 2),
               u := s.fl.u }).takeDraws 3
  | .unchanged => s
  | .fromResult => (s.setFl (arithFlags r (Config.drawBit s.draws) s.fl)).takeDraws 1

/-- fl as a 16-bit CSR value `{0x000, u, z, s, c}` (R34, R42; DESIGN CHOICE, unsafe, log 28). -/
def Flags.toWord (fl : Flags) : Word :=
  0x000#12 ++ BitVec.ofBool fl.u ++ BitVec.ofBool fl.z ++ BitVec.ofBool fl.s ++ BitVec.ofBool fl.c

/-- fl from the low four bits of a CSR write (R42). -/
def Flags.ofWord (v : Word) : Flags :=
  { c := v.getLsbD 0, s := v.getLsbD 1, z := v.getLsbD 2, u := v.getLsbD 3 }

/-- The condition table of `brh` (R227). -/
def condHolds (cond : Cond) (fl : Flags) : Bool :=
  match cond with
  | .c => fl.c
  | .s => fl.s
  | .z => fl.z
  | .nc => !fl.c
  | .ns => !fl.s
  | .nz => !fl.z

end Sys2Proof.Machine
end

