-- ==== Sys2Proof/Machine/Operands.lean ====
section
/-! DEFINITION. Operand forms: how each immediate is extended and scaled (spec/30_encoding.md R93), the addresses formed from
them, and which registers each instruction reads and writes (spec/00_scope.md R11 to R13). -/

namespace Sys2Proof.Machine

/-- `sext_8(imm8)` (R93: addi cmpi iori andi xori lli; spec/47_memory_ops.md R261: a loaded byte). -/
def sext8 (v : BitVec 8) : Word := v.signExtend 16

/-- `zext_8(imm8)` (R93: ioriu andiu biti xoriu). -/
def zext8 (v : BitVec 8) : Word := v.zeroExtend 16

/-- `{imm8, 0x00}` (R93: lui). -/
def upper8 (v : BitVec 8) : Word := v ++ 0x00#8

/-- `sext_8(imm8) << 1` (R93: brh). -/
def branchOffset (v : BitVec 8) : Word := v.signExtend 16 <<< 1

/-- `zext_11(imm11) << 5` (R93: jmp jmpl). -/
def absoluteTarget (v : BitVec 11) : Word := v.zeroExtend 16 <<< 5

/-- `sext_11(imm11) << 1` (R93: jmpr jmprl). -/
def relativeOffset (v : BitVec 11) : Word := v.signExtend 16 <<< 1

/-- `imm11 << 5` modulo 2^16 (R93: prfi); the hint has no effect (spec/45_jump_branch.md R228). -/
def prefetchTarget (pc : Word) (v : BitVec 11) : Word := pc + v.zeroExtend 16 <<< 5

/-- `zext_5(imm5)` (R93: mld mst xch). -/
def byteOffset (v : BitVec 5) : Word := v.zeroExtend 16

/-- `zext_5(imm5) << 1` (R93: mldw mstw xchw). -/
def wordOffset (v : BitVec 5) : Word := v.zeroExtend 16 <<< 1

/-- The effective address of a byte access, from the value of the base register (spec/47_memory_ops.md R260,
spec/20_memory.md R73). -/
def byteEa (base : Word) (imm : BitVec 5) : Word := base + byteOffset imm

/-- The effective address of a word access, from the value of the base register (R260, R73). -/
def wordEa (base : Word) (imm : BitVec 5) : Word := base + wordOffset imm

/-- What a relative offset is added to (spec/45_jump_branch.md R226 (b)). -/
def relativeBase (m : Config.RelBase) (s : State) : Word :=
  match m with
  | .next => s.npc
  | .current => s.pc

/-- The amount of a register shift (spec/43_shift.md R189). -/
def withShiftAmount (m : Config.ShiftAmountMode) (v : Word) (k : BitVec 4 → Outcome) : Outcome :=
  match m with
  | .low4 => k (v.extractLsb' 0 4)
  | .refuseGe16 => if 16 ≤ v.toNat then .refused (.shiftAmountTooLarge v) else k (v.extractLsb' 0 4)

/-- The registers an instruction waits for: its sources, that is its S and W fields (spec/00_scope.md R11, R12 step 2), and
every register for `fence` (spec/46_system.md R241). -/
def sources : Instr → List Reg
  | .bkpt | .nop | .sysc _ | .ftlb | .rfi | .wfi | .scf | .rscf => []
  | .fence => [.rp, .sp, .x1, .x2, .x3, .t1, .t2]
  | .reservedJmpdl064 | .reservedJmpdl0128 | .reservedJmpdl0Other _ => []
  | .reservedJmpdFlags _ _ | .reservedJmpdlFlags _ _ | .reservedBrhCond _ _ => []
  | .reserved0111100 _ _ _ | .reserved0111101 _ _ _ | .reserved0111110 _ _ _ | .reserved0111111 _ _ _ => []
  | .jmpd rs | .jmpdl rs => [rs]
  | .add _ a b | .addc _ a b | .sub _ a b | .subb _ a b | .slt _ a b | .sltu _ a b => [a, b]
  | .szr _ a b | .ior _ a b | .and _ a b | .xor _ a b => [a, b]
  | .bsld _ a b | .bsrd _ a b | .bsrsd _ a b | .brrd _ a b => [a, b]
  | .addi rd _ | .iori rd _ | .ioriu rd _ | .andi rd _ | .andiu rd _ | .xori rd _ | .xoriu rd _ => [rd]
  | .cmpi rs _ | .biti rs _ | .csrw rs _ => [rs]
  | .csrr _ _ | .lli _ _ | .lui _ _ => []
  | .bsl _ _ rs | .bsr _ _ rs | .bsrs _ _ rs | .brr _ _ rs => [rs]
  | .jmp _ | .jmpl _ | .jmpr _ | .jmprl _ | .brh _ _ | .prfi _ => []
  | .mld _ _ base | .mldw _ _ base => [base]
  | .mst rs _ base | .mstw rs _ base => [base, rs]
  | .xch rw _ base | .xchw rw _ base => [base, rw]
  | .mov _ rs | .test rs | .neg _ rs | .sneg _ rs | .spos _ rs | .snez _ rs => [rs]
  | .cmp a b => [a, b]
  | .inc rd | .dec rd | .cut4 rd | .cut8 rd | .clrl rd | .not rd | .not8 rd => [rd]
  | .alloc _ => [.sp]
  | .ip _ | .clri | .clr _ => []
  | .ret => [.rp]
  | .prfd _ base | .mclr _ base | .mclrw _ base => [base]

/-- The register an instruction writes without having read it through the same field: a D field, or the implicit rp of the
linking jumps (spec/10_state.md R38). A W field is no destination of this kind. -/
def destination : Instr → Option Reg
  | .bkpt | .nop | .sysc _ | .fence | .ftlb | .rfi | .wfi | .scf | .rscf => none
  | .reservedJmpdl064 | .reservedJmpdl0128 | .reservedJmpdl0Other _ => none
  | .reservedJmpdFlags _ _ | .reservedJmpdlFlags _ _ | .reservedBrhCond _ _ => none
  | .reserved0111100 _ _ _ | .reserved0111101 _ _ _ | .reserved0111110 _ _ _ | .reserved0111111 _ _ _ => none
  | .jmpd _ => none
  | .jmpdl _ => some .rp
  | .add d _ _ | .addc d _ _ | .sub d _ _ | .subb d _ _ | .slt d _ _ | .sltu d _ _ => some d
  | .szr d _ _ | .ior d _ _ | .and d _ _ | .xor d _ _ => some d
  | .bsld d _ _ | .bsrd d _ _ | .bsrsd d _ _ | .brrd d _ _ => some d
  | .addi _ _ | .iori _ _ | .ioriu _ _ | .andi _ _ | .andiu _ _ | .xori _ _ | .xoriu _ _ => none
  | .cmpi _ _ | .biti _ _ | .csrw _ _ => none
  | .csrr d _ | .lli d _ | .lui d _ => some d
  | .bsl d _ _ | .bsr d _ _ | .bsrs d _ _ | .brr d _ _ => some d
  | .jmp _ | .jmpr _ | .brh _ _ | .prfi _ => none
  | .jmpl _ | .jmprl _ => some .rp
  | .mld d _ _ | .mldw d _ _ => some d
  | .mst _ _ _ | .mstw _ _ _ | .xch _ _ _ | .xchw _ _ _ => none
  | .mov d _ | .neg d _ | .sneg d _ | .spos d _ | .snez d _ => some d
  | .test _ | .cmp _ _ => none
  | .inc _ | .dec _ | .cut4 _ | .cut8 _ | .clrl _ | .not _ | .not8 _ | .alloc _ => none
  | .ip d | .clr d => some d
  | .clri | .ret => none
  | .prfd _ _ | .mclr _ _ | .mclrw _ _ => none

end Sys2Proof.Machine
end

