-- ==== Sys2Proof/Machine/Arith.lean ====
section
/-! DEFINITION. Meanings of spec/40_arithmetic.md: addition and subtraction with carry, the immediate forms, the specials `bkpt` and `nop`, and the aliases `mov test neg cmp inc dec alloc`. -/

namespace Sys2Proof.Machine

/-- The end of an arithmetic instruction: `x[rd] <- r; ArithFlags(r, k); pc <- npc` (R130, R138, R139). -/
def writeArith (rd : Reg) (rk : Word × Bool) (s : State) : Outcome :=
  writeBack rd rk.1 (s.setFl (arithFlags rk.1 rk.2 s.fl))

/-- `(r, k) = AddC(x[rs1], x[rs2], 0)` (R130). -/
def addOp (rd rs1 rs2 : Reg) (s : State) : Outcome :=
  withSources rs1 rs2 s fun a b s => guardDest rd s (writeArith rd (addC a b false) s)

/-- `(r, k) = AddC(x[rs1], ~x[rs2], 1)` (R132). -/
def subOp (m : Config.SubCarry) (rd rs1 rs2 : Reg) (s : State) : Outcome :=
  withSources rs1 rs2 s fun a b s => guardDest rd s (writeArith rd (subC m a b true) s)

/-- `(r, k) = AddC(x[rs1], ~x[rs2], fl.c)` (R133). -/
def subbOp (m : Config.SubCarry) (rd rs1 rs2 : Reg) (s : State) : Outcome :=
  withSources rs1 rs2 s fun a b s => guardDest rd s (writeArith rd (subC m a b s.fl.c) s)

/-- The flags of x[rs] - sext_8(imm), no register written (R135). -/
def cmpiOp (m : Config.SubCarry) (rs : Reg) (imm : BitVec 8) (s : State) : Outcome :=
  withSource rs s fun a s => writeArith .zr (subC m a (sext8 imm) true) s

/-- `(r, k) = AddC(x[rd], sext_8(imm), 0)`; rd is a W field (R134). -/
def addiOp (rd : Reg) (imm : BitVec 8) (s : State) : Outcome :=
  withSource rd s fun a s => writeArith rd (addC a (sext8 imm) false) s

/-- `add` (R130). -/
def execAdd (rd rs1 rs2 : Reg) (s : State) : Outcome := addOp rd rs1 rs2 s

/-- `addc` (R131). -/
def execAddc (rd rs1 rs2 : Reg) (s : State) : Outcome :=
  withSources rs1 rs2 s fun a b s => guardDest rd s (writeArith rd (addC a b s.fl.c) s)

/-- `sub` (R132). -/
def execSub (rd rs1 rs2 : Reg) (s : State) : Outcome := subOp Config.subCarry rd rs1 rs2 s

/-- `subb` (R133). -/
def execSubb (rd rs1 rs2 : Reg) (s : State) : Outcome := subbOp Config.subCarry rd rs1 rs2 s

/-- `addi` (R134). -/
def execAddi (rd : Reg) (imm : BitVec 8) (s : State) : Outcome := addiOp rd imm s

/-- `cmpi` (R135). -/
def execCmpi (rs : Reg) (imm : BitVec 8) (s : State) : Outcome := cmpiOp Config.subCarry rs imm s

/-- `bkpt`: raises `Breakpoint` (R136). -/
def execBkpt (_s : State) : Outcome := raise .breakpoint

/-- `nop`: `pc <- npc` and nothing else, no flag (R137). -/
def execNop (s : State) : Outcome := .next s.advance

/-- `mov rd, rs` = `add rd, rs, 0` (R140). -/
def execMov (rd rs : Reg) (s : State) : Outcome := addOp rd rs .zr s

/-- `test rs` = `add 0, rs, 0` (R141). -/
def execTest (rs : Reg) (s : State) : Outcome := addOp .zr rs .zr s

/-- `neg rd, rs` = `sub rd, 0, rs` (R142). -/
def execNeg (rd rs : Reg) (s : State) : Outcome := subOp Config.subCarry rd .zr rs s

/-- `cmp rs1, rs2` = `sub 0, rs1, rs2` (R143). -/
def execCmp (rs1 rs2 : Reg) (s : State) : Outcome := subOp Config.subCarry .zr rs1 rs2 s

/-- `inc rd` = `addi rd, 1` (R144). -/
def execInc (rd : Reg) (s : State) : Outcome := addiOp rd 0x01 s

/-- `dec rd` = `addi rd, -1` (R145). -/
def execDec (rd : Reg) (s : State) : Outcome := addiOp rd 0xFF s

/-- `alloc x` = `addi sp, x` (R146). -/
def execAlloc (imm : BitVec 8) (s : State) : Outcome := addiOp .sp imm s

end Sys2Proof.Machine
end

