-- ==== Sys2Proof/Machine/CsrCompare.lean ====
section
/-! DEFINITION. Meanings of spec/41_csr_compare.md: CSR access (with spec/10_state.md R40 to R45) and set-if-less-than, and the aliases `ip clri sneg spos snez`. -/

namespace Sys2Proof.Machine

/-- What `csrr rd, ip` returns (spec/10_state.md R41). -/
def csrIpRead (m : Config.CsrIpValue) (s : State) : Word :=
  match m with
  | .next => s.npc
  | .current => s.pc

/-- `csr[k]` as a source (spec/10_state.md R41 to R45): pen, ira and unassigned numbers have no meaning. -/
def withCsr (n : Config.CsrNumbers) (m : Config.CsrIpValue) (k : BitVec 6) (s : State) (cont : Word → Outcome) : Outcome :=
  if k = n.ip then cont (csrIpRead m s)
  else if k = n.fl then cont s.fl.toWord
  else if k = n.pen then .refused .csrPenRead
  else if k = n.ira then .refused .csrIraAccess
  else .refused (.unassignedCsr k)

/-- `csr[k] <- v` (spec/10_state.md R41 to R45): fl takes the low four bits, zero clears pen, everything else has no meaning. -/
def writeCsr (n : Config.CsrNumbers) (k : BitVec 6) (v : Word) (s : State) : Outcome :=
  if k = n.ip then .refused .csrIpWrite
  else if k = n.fl then .next (s.setFl (Flags.ofWord v)).advance
  else if k = n.pen then
    if v = 0 then .next { s with pendingInterrupts := [] }.advance else .refused (.csrPenWrite v)
  else if k = n.ira then .refused .csrIraAccess
  else .refused (.unassignedCsr k)

/-- `x[rd] <- csr[k]` (R150); the destination check comes before a refusal (spec/60_exceptions.md R286; log 21). -/
def csrrOp (n : Config.CsrNumbers) (m : Config.CsrIpValue) (rd : Reg) (k : BitVec 6) (s : State) : Outcome :=
  guardDest rd s (withCsr n m k s fun v => writeBack rd v s)

/-- `csr[k] <- x[rs]` (R151). -/
def csrwOp (n : Config.CsrNumbers) (rs : Reg) (k : BitVec 6) (s : State) : Outcome :=
  withSource rs s fun v s => writeCsr n k v s

/-- The value of `slt` (R152): the signed comparison, or the sign bit of the wrapped difference. -/
def sltValue (m : Config.SltMode) (a b : Word) : Word :=
  match m with
  | .signedCompare => if a.toInt < b.toInt then 1 else 0
  | .signOfDifference => if (addC a (~~~b) true).1.msb then 1 else 0

/-- The value of `sltu` (R153). -/
def sltuValue (a b : Word) : Word := if a.toNat < b.toNat then 1 else 0

/-- `slt` (R152): the flags become free values by default. -/
def sltOp (m : Config.SltMode) (f : Config.FlagsOtherAlu) (rd rs1 rs2 : Reg) (s : State) : Outcome :=
  withSources rs1 rs2 s fun a b s =>
    guardDest rd s <|
      writeBack rd (sltValue m a b) (otherAluFlags f (sltValue m a b) s)

/-- `sltu` (R153): the flags become free values by default. -/
def sltuOp (f : Config.FlagsOtherAlu) (rd rs1 rs2 : Reg) (s : State) : Outcome :=
  withSources rs1 rs2 s fun a b s =>
    guardDest rd s <| writeBack rd (sltuValue a b) (otherAluFlags f (sltuValue a b) s)

/-- `csrr` (R150). -/
def execCsrr (rd : Reg) (csr : BitVec 6) (s : State) : Outcome :=
  csrrOp Config.csrNumbers Config.csrIpValue rd csr s

/-- `csrw` (R151). -/
def execCsrw (rs : Reg) (csr : BitVec 6) (s : State) : Outcome := csrwOp Config.csrNumbers rs csr s

/-- `slt` (R152). -/
def execSlt (rd rs1 rs2 : Reg) (s : State) : Outcome :=
  sltOp Config.sltMode Config.flagsOtherAlu rd rs1 rs2 s

/-- `sltu` (R153). -/
def execSltu (rd rs1 rs2 : Reg) (s : State) : Outcome := sltuOp Config.flagsOtherAlu rd rs1 rs2 s

/-- `ip rd` = `csrr rd, ip` (R154). -/
def execIp (rd : Reg) (s : State) : Outcome :=
  csrrOp Config.csrNumbers Config.csrIpValue rd Config.csrIp s

/-- `clri` = `csrw 0, pen` (R155). -/
def execClri (s : State) : Outcome := csrwOp Config.csrNumbers .zr Config.csrPen s

/-- `sneg rd, rs` = `slt rd, rs, 0` (R156). -/
def execSneg (rd rs : Reg) (s : State) : Outcome :=
  sltOp Config.sltMode Config.flagsOtherAlu rd rs .zr s

/-- `spos rd, rs` = `slt rd, 0, rs` (R157). -/
def execSpos (rd rs : Reg) (s : State) : Outcome :=
  sltOp Config.sltMode Config.flagsOtherAlu rd .zr rs s

/-- `snez rd, rs` = `sltu rd, 0, rs` (R158). -/
def execSnez (rd rs : Reg) (s : State) : Outcome := sltuOp Config.flagsOtherAlu rd .zr rs s

end Sys2Proof.Machine
end

