-- ==== Sys2Proof/Machine/Jump.lean ====
section
/-! DEFINITION. Meanings of spec/45_jump_branch.md: jumps, the conditional branch, the instruction prefetch and the alias `ret`. -/

namespace Sys2Proof.Machine

/-- A linking jump to `t`: rp receives npc, the address after the jump (R226 (a)); rp is a destination (R221). -/
def linkTo (t : Word) (s : State) : Outcome := guardDest .rp s (.next ((s.setReg .rp s.npc).setPc t))

/-- `pc <- {x[rs][15:1], 0}` (R224). -/
def jmpdOp (rs : Reg) (s : State) : Outcome := withSource rs s fun t s => .next (s.setPc t)

/-- The target of a relative transfer (R222, R226 (b), R227). -/
def relativeTarget (m : Config.RelBase) (offset : Word) (s : State) : Word := relativeBase m s + offset

/-- `pc <- base + (sext_11(imm) << 1)` (R222). -/
def jmprOp (m : Config.RelBase) (imm : BitVec 11) (s : State) : Outcome := .next (s.setPc (relativeTarget m (relativeOffset imm) s))

/-- `x[1] <- npc; pc <- base + (sext_11(imm) << 1)` (R223). -/
def jmprlOp (m : Config.RelBase) (imm : BitVec 11) (s : State) : Outcome := linkTo (relativeTarget m (relativeOffset imm) s) s

/-- `pc <- base + (sext_8(imm) << 1)` if the condition holds, else `pc <- npc` (R227). -/
def brhOp (m : Config.RelBase) (cond : Cond) (imm : BitVec 8) (s : State) : Outcome :=
  if condHolds cond s.fl then .next (s.setPc (relativeTarget m (branchOffset imm) s)) else .next s.advance

/-- `jmp` (R220). -/
def execJmp (imm : BitVec 11) (s : State) : Outcome := .next (s.setPc (absoluteTarget imm))

/-- `jmpl` (R221). -/
def execJmpl (imm : BitVec 11) (s : State) : Outcome := linkTo (absoluteTarget imm) s

/-- `jmpr` (R222). -/
def execJmpr (imm : BitVec 11) (s : State) : Outcome := jmprOp Config.relBase imm s

/-- `jmprl` (R223). -/
def execJmprl (imm : BitVec 11) (s : State) : Outcome := jmprlOp Config.relBase imm s

/-- `jmpd` (R224). -/
def execJmpd (rs : Reg) (s : State) : Outcome := jmpdOp rs s

/-- `jmpdl`: the register is read before rp is written (R225). -/
def execJmpdl (rs : Reg) (s : State) : Outcome := withSource rs s fun t s => linkTo t s

/-- `brh` (R227). -/
def execBrh (cond : Cond) (imm : BitVec 8) (s : State) : Outcome := brhOp Config.relBase cond imm s

/-- `prfi`: a hint, which has no architectural effect (R228; log 19). -/
def execPrfi (_imm : BitVec 11) (s : State) : Outcome := .next s.advance

/-- `ret` = `jmpd rp, 0` (R229). -/
def execRet (s : State) : Outcome := jmpdOp .rp s

end Sys2Proof.Machine
end

