-- ==== Sys2Proof/Machine/LoadImm.lean ====
section
/-! DEFINITION. Meanings of spec/44_load_immediate.md: `lli`, `lui` and the alias `clr`. -/

namespace Sys2Proof.Machine

/-- `x[rd] <- v` for a destination that is not read, no flag written (R210, R211). -/
def loadImmOp (rd : Reg) (v : Word) (s : State) : Outcome := guardDest rd s (writeBack rd v s)

/-- `lli` (R210). -/
def execLli (rd : Reg) (imm : BitVec 8) (s : State) : Outcome := loadImmOp rd (sext8 imm) s

/-- `lui` (R211). -/
def execLui (rd : Reg) (imm : BitVec 8) (s : State) : Outcome := loadImmOp rd (upper8 imm) s

/-- `clr rd` = `lui rd, 0` (R212). -/
def execClr (rd : Reg) (s : State) : Outcome := loadImmOp rd (upper8 0x00) s

end Sys2Proof.Machine
end

