-- ==== Sys2Proof/Machine/Logic.lean ====
section
/-! DEFINITION. Meanings of spec/42_logic.md: the conditional select, bitwise logic, and the aliases `cut4 cut8 clrl not not8`. -/

namespace Sys2Proof.Machine

/-- The end of a bitwise instruction: `x[rd] <- r; LogicFlags(r); pc <- npc` (R166, R176). -/
def writeLogic (m : Config.LogicCarry) (rd : Reg) (r : Word) (s : State) : Outcome :=
  writeBack rd r (logicFlags m r s)

/-- A bitwise register form (R166 to R168). -/
def logicOp (m : Config.LogicCarry) (f : Word → Word → Word) (rd rs1 rs2 : Reg) (s : State) : Outcome :=
  withSources rs1 rs2 s fun a b s => guardDest rd s (writeLogic m rd (f a b) s)

/-- A bitwise immediate form with a W field; `imm` is the extended immediate (R169 to R175). -/
def logicImmOp (m : Config.LogicCarry) (f : Word → Word → Word) (rd : Reg) (imm : Word) (s : State) : Outcome :=
  withSource rd s fun a s => writeLogic m rd (f a imm) s

/-- The flags of x[rs] & zext_8(imm), no register written (R173). -/
def bitiOp (m : Config.LogicCarry) (rs : Reg) (imm : BitVec 8) (s : State) : Outcome :=
  withSource rs s fun a s => writeLogic m .zr (a &&& zext8 imm) s

/-- `if x[rs2] = 0 then x[rd] <- x[rs1]`; the destination is checked whether or not the test succeeds (R165, D38). -/
def szrOp (m : Config.FlagsOtherAlu) (rd rs1 rs2 : Reg) (s : State) : Outcome :=
  withSources rs1 rs2 s fun a b s =>
    guardDest rd s <|
      if b = 0 then writeBack rd a (otherAluFlags m a s) else .next (otherAluFlags m a s).advance

/-- `szr` (R165). -/
def execSzr (rd rs1 rs2 : Reg) (s : State) : Outcome := szrOp Config.flagsOtherAlu rd rs1 rs2 s

/-- `ior` (R166). -/
def execIor (rd rs1 rs2 : Reg) (s : State) : Outcome := logicOp Config.logicCarry (· ||| ·) rd rs1 rs2 s

/-- `and` (R167). -/
def execAnd (rd rs1 rs2 : Reg) (s : State) : Outcome := logicOp Config.logicCarry (· &&& ·) rd rs1 rs2 s

/-- `xor` (R168). -/
def execXor (rd rs1 rs2 : Reg) (s : State) : Outcome := logicOp Config.logicCarry (· ^^^ ·) rd rs1 rs2 s

/-- `iori` (R169). -/
def execIori (rd : Reg) (imm : BitVec 8) (s : State) : Outcome := logicImmOp Config.logicCarry (· ||| ·) rd (sext8 imm) s

/-- `ioriu` (R170). -/
def execIoriu (rd : Reg) (imm : BitVec 8) (s : State) : Outcome := logicImmOp Config.logicCarry (· ||| ·) rd (zext8 imm) s

/-- `andi` (R171). -/
def execAndi (rd : Reg) (imm : BitVec 8) (s : State) : Outcome := logicImmOp Config.logicCarry (· &&& ·) rd (sext8 imm) s

/-- `andiu` (R172). -/
def execAndiu (rd : Reg) (imm : BitVec 8) (s : State) : Outcome := logicImmOp Config.logicCarry (· &&& ·) rd (zext8 imm) s

/-- `biti` (R173). -/
def execBiti (rs : Reg) (imm : BitVec 8) (s : State) : Outcome := bitiOp Config.logicCarry rs imm s

/-- `xori` (R174). -/
def execXori (rd : Reg) (imm : BitVec 8) (s : State) : Outcome := logicImmOp Config.logicCarry (· ^^^ ·) rd (sext8 imm) s

/-- `xoriu` (R175). -/
def execXoriu (rd : Reg) (imm : BitVec 8) (s : State) : Outcome := logicImmOp Config.logicCarry (· ^^^ ·) rd (zext8 imm) s

/-- `cut4 rd` = `andiu rd, 0xF` (R177). -/
def execCut4 (rd : Reg) (s : State) : Outcome := logicImmOp Config.logicCarry (· &&& ·) rd (zext8 0x0F) s

/-- `cut8 rd` = `andiu rd, 0xFF` (R178). -/
def execCut8 (rd : Reg) (s : State) : Outcome := logicImmOp Config.logicCarry (· &&& ·) rd (zext8 0xFF) s

/-- `clrl rd` = `andiu rd, 0` (R179). -/
def execClrl (rd : Reg) (s : State) : Outcome := logicImmOp Config.logicCarry (· &&& ·) rd (zext8 0x00) s

/-- `not rd` = `xori rd, -1` (R180). -/
def execNot (rd : Reg) (s : State) : Outcome := logicImmOp Config.logicCarry (· ^^^ ·) rd (sext8 0xFF) s

/-- `not8 rd` = `xoriu rd, -1` (R181). -/
def execNot8 (rd : Reg) (s : State) : Outcome := logicImmOp Config.logicCarry (· ^^^ ·) rd (zext8 0xFF) s

end Sys2Proof.Machine
end

