-- ==== Sys2Proof/Machine/MemOps.lean ====
section
/-! DEFINITION. Meanings of spec/47_memory_ops.md: loads, stores, the atomic exchange, and the aliases `prfd mclr mclrw`. -/

namespace Sys2Proof.Machine

/-- The checks of a data access at the bytes `bytes` that writes (R260 item 4). -/
def guardStore (mmio : List AddrRange) (bytes : List Word) (s : State) (k : Outcome) : Outcome :=
  guardMmio mmio bytes (guardCode bytes s k)

/-- A word load (R262); with destination zr it is a prefetch, which raises nothing (R266 (a)). -/
def loadWordOp (m : Config.MisalignedWord) (mmio : List AddrRange) (rd : Reg) (imm : BitVec 5) (base : Reg) (s : State) : Outcome :=
  withSource base s fun b s =>
    if rd = .zr then .next s.advance
    else guardDest rd s <| alignWord m (wordEa b imm) fun ea =>
      guardMmio mmio [ea, ea + 1] <| withWord ea s fun v => .next (s.issueLoad rd v).advance

/-- A byte store: the low byte of the register (R263). -/
def storeByteOp (mmio : List AddrRange) (rs : Reg) (imm : BitVec 5) (base : Reg) (s : State) : Outcome :=
  withSources base rs s fun b v s =>
    guardStore mmio [byteEa b imm] s <| .next (s.writeByte (byteEa b imm) (v.extractLsb' 0 8)).advance

/-- A word store (R264). -/
def storeWordOp (m : Config.MisalignedWord) (mmio : List AddrRange) (rs : Reg) (imm : BitVec 5) (base : Reg) (s : State) : Outcome :=
  withSources base rs s fun b v s =>
    alignWord m (wordEa b imm) fun ea =>
      guardStore mmio [ea, ea + 1] s <| .next (s.writeWord ea v).advance

/-- A byte load (R261); with destination zr it is a prefetch (R266 (a)). -/
def loadByteOp (mmio : List AddrRange) (rd : Reg) (imm : BitVec 5) (base : Reg) (s : State) : Outcome :=
  withSource base s fun b s =>
    if rd = .zr then .next s.advance
    else guardDest rd s <| guardMmio mmio [byteEa b imm] <|
      withByte (byteEa b imm) s fun v => .next (s.issueLoad rd (sext8 v)).advance

/-- A byte exchange: the old byte goes to the register like a load, the register's low byte to memory; with zr it stores zero and discards
the old byte (R265, R266 (c)). -/
def exchangeByteOp (mmio : List AddrRange) (rw : Reg) (imm : BitVec 5) (base : Reg) (s : State) : Outcome :=
  withSources base rw s fun b v s =>
    guardStore mmio [byteEa b imm] s <|
      if rw = .zr then .next (s.writeByte (byteEa b imm) (v.extractLsb' 0 8)).advance
      else withByte (byteEa b imm) s fun old =>
        .next ((s.writeByte (byteEa b imm) (v.extractLsb' 0 8)).issueLoad rw (sext8 old)).advance

/-- A word exchange (R267). -/
def exchangeWordOp (m : Config.MisalignedWord) (mmio : List AddrRange) (rw : Reg) (imm : BitVec 5) (base : Reg) (s : State) : Outcome :=
  withSources base rw s fun b v s =>
    alignWord m (wordEa b imm) fun ea =>
      guardStore mmio [ea, ea + 1] s <|
        if rw = .zr then .next (s.writeWord ea v).advance
        else withWord ea s fun old => .next ((s.writeWord ea v).issueLoad rw old).advance

/-- `mld` (R261). -/
def execMld (rd : Reg) (imm : BitVec 5) (base : Reg) (s : State) : Outcome :=
  loadByteOp Config.mmio rd imm base s

/-- `mldw` (R262). -/
def execMldw (rd : Reg) (imm : BitVec 5) (base : Reg) (s : State) : Outcome :=
  loadWordOp Config.misalignedWord Config.mmio rd imm base s

/-- `mst` (R263). -/
def execMst (rs : Reg) (imm : BitVec 5) (base : Reg) (s : State) : Outcome :=
  storeByteOp Config.mmio rs imm base s

/-- `mstw` (R264). -/
def execMstw (rs : Reg) (imm : BitVec 5) (base : Reg) (s : State) : Outcome :=
  storeWordOp Config.misalignedWord Config.mmio rs imm base s

/-- `xch` (R265). -/
def execXch (rw : Reg) (imm : BitVec 5) (base : Reg) (s : State) : Outcome :=
  exchangeByteOp Config.mmio rw imm base s

/-- `xchw` (R267). -/
def execXchw (rw : Reg) (imm : BitVec 5) (base : Reg) (s : State) : Outcome :=
  exchangeWordOp Config.misalignedWord Config.mmio rw imm base s

/-- `prfd rs, x` = `mldw 0, rs, x` (R268). -/
def execPrfd (imm : BitVec 5) (base : Reg) (s : State) : Outcome :=
  loadWordOp Config.misalignedWord Config.mmio .zr imm base s

/-- `mclr rs, x` = `mst 0, rs, x` (R269). -/
def execMclr (imm : BitVec 5) (base : Reg) (s : State) : Outcome :=
  storeByteOp Config.mmio .zr imm base s

/-- `mclrw rs, x` = `mstw 0, rs, x` (R270). -/
def execMclrw (imm : BitVec 5) (base : Reg) (s : State) : Outcome :=
  storeWordOp Config.misalignedWord Config.mmio .zr imm base s

end Sys2Proof.Machine
end

