-- ==== Sys2Proof/Machine/Reserved.lean ====
section
/-! DEFINITION. Meanings of the reserved rows of the opcode table (spec/30_encoding.md R101). -/

namespace Sys2Proof.Machine

/-- Every reserved word raises `ReservedInstruction(w)`, w the word itself (spec/60_exceptions.md R282). -/
def raiseReserved (w : Word) : Outcome := raise (.reservedInstruction w)

/-- The word 0xB840 (spec/46_system.md R248, item d). -/
def execReservedJmpdl064 (_s : State) : Outcome :=
  raiseReserved (encode .reservedJmpdl064)

/-- The word 0xB880 (spec/46_system.md R248, item d). -/
def execReservedJmpdl0128 (_s : State) : Outcome :=
  raiseReserved (encode .reservedJmpdl0128)

/-- `jmpdl` with A = 0 and an unlisted F (item e). -/
def execReservedJmpdl0Other (f : BitVec 8) (_s : State) : Outcome :=
  raiseReserved (encode (.reservedJmpdl0Other f))

/-- `jmpd` with A and F not zero (item c). -/
def execReservedJmpdFlags (rs : Reg) (f : BitVec 8) (_s : State) : Outcome :=
  raiseReserved (encode (.reservedJmpdFlags rs f))

/-- `jmpdl` with A and F not zero (item c). -/
def execReservedJmpdlFlags (rs : Reg) (f : BitVec 8) (_s : State) : Outcome :=
  raiseReserved (encode (.reservedJmpdlFlags rs f))

/-- `brh` with condition 011 or 111 (item b; spec/45_jump_branch.md R227). -/
def execReservedBrhCond (condHi : BitVec 1) (imm : BitVec 8) (_s : State) : Outcome :=
  raiseReserved (encode (.reservedBrhCond condHi imm))

/-- Opcode 01111 with fn 00 (item a; spec/43_shift.md R199). -/
def execReserved0111100 (a : Reg) (b : Reg) (c : Reg) (_s : State) : Outcome :=
  raiseReserved (encode (.reserved0111100 a b c))

/-- Opcode 01111 with fn 01 (item a; spec/43_shift.md R199). -/
def execReserved0111101 (a : Reg) (b : Reg) (c : Reg) (_s : State) : Outcome :=
  raiseReserved (encode (.reserved0111101 a b c))

/-- Opcode 01111 with fn 10 (item a; spec/43_shift.md R199). -/
def execReserved0111110 (a : Reg) (b : Reg) (c : Reg) (_s : State) : Outcome :=
  raiseReserved (encode (.reserved0111110 a b c))

/-- Opcode 01111 with fn 11 (item a; spec/43_shift.md R199). -/
def execReserved0111111 (a : Reg) (b : Reg) (c : Reg) (_s : State) : Outcome :=
  raiseReserved (encode (.reserved0111111 a b c))

end Sys2Proof.Machine
end

