-- ==== Sys2Proof/Machine/Shift.lean ====
section
/-! DEFINITION. Meanings of spec/43_shift.md: the barrel shifts and the rotate, with the amount in the instruction or in a register. -/

namespace Sys2Proof.Machine

/-- `SHL(v, n)` (R198): towards bit 15, zeros enter at bit 0. -/
def shl (v : Word) (n : BitVec 4) : Word := v <<< n.toNat

/-- `SHR(v, n)` (R198): towards bit 0, zeros enter at bit 15. -/
def shr (v : Word) (n : BitVec 4) : Word := v >>> n.toNat

/-- `SAR(v, n)` (R198): towards bit 0, copies of bit 15 enter. -/
def sar (v : Word) (n : BitVec 4) : Word := v.sshiftRight n.toNat

/-- `ROR(v, n)` (R198): `rs >> n | rs << -n`; for n = 0 both halves are v. -/
def ror (v : Word) (n : BitVec 4) : Word := shr v n ||| shl v (-n)

/-- The end of a shift: `x[rd] <- r`, the flags become free values by default, `pc <- npc` (R190, R198). -/
def writeShift (m : Config.FlagsOtherAlu) (rd : Reg) (r : Word) (s : State) : Outcome :=
  writeBack rd r (otherAluFlags m r s)

/-- A shift by the amount in the instruction (R190 to R193). -/
def shiftImmOp (m : Config.FlagsOtherAlu) (f : Word → BitVec 4 → Word) (rd : Reg) (amt : BitVec 4) (rs : Reg) (s : State) :
    Outcome :=
  withSource rs s fun v s => guardDest rd s (writeShift m rd (f v amt) s)

/-- A shift of rs1 by the amount in rs2 (R189, R194 to R197). -/
def shiftRegOp (a : Config.ShiftAmountMode) (m : Config.FlagsOtherAlu) (f : Word → BitVec 4 → Word) (rd rs1 rs2 : Reg)
    (s : State) : Outcome :=
  withSources rs1 rs2 s fun v amount s =>
    guardDest rd s (withShiftAmount a amount fun n => writeShift m rd (f v n) s)

/-- `bsl` (R190). -/
def execBsl (rd : Reg) (amt : BitVec 4) (rs : Reg) (s : State) : Outcome :=
  shiftImmOp Config.flagsOtherAlu shl rd amt rs s

/-- `bsr` (R191). -/
def execBsr (rd : Reg) (amt : BitVec 4) (rs : Reg) (s : State) : Outcome :=
  shiftImmOp Config.flagsOtherAlu shr rd amt rs s

/-- `bsrs` (R192). -/
def execBsrs (rd : Reg) (amt : BitVec 4) (rs : Reg) (s : State) : Outcome :=
  shiftImmOp Config.flagsOtherAlu sar rd amt rs s

/-- `brr` (R193). -/
def execBrr (rd : Reg) (amt : BitVec 4) (rs : Reg) (s : State) : Outcome :=
  shiftImmOp Config.flagsOtherAlu ror rd amt rs s

/-- `bsld` (R194). -/
def execBsld (rd rs1 rs2 : Reg) (s : State) : Outcome :=
  shiftRegOp Config.shiftAmountMode Config.flagsOtherAlu shl rd rs1 rs2 s

/-- `bsrd` (R195). -/
def execBsrd (rd rs1 rs2 : Reg) (s : State) : Outcome :=
  shiftRegOp Config.shiftAmountMode Config.flagsOtherAlu shr rd rs1 rs2 s

/-- `bsrsd` (R196). -/
def execBsrsd (rd rs1 rs2 : Reg) (s : State) : Outcome :=
  shiftRegOp Config.shiftAmountMode Config.flagsOtherAlu sar rd rs1 rs2 s

/-- `brrd` (R197). -/
def execBrrd (rd rs1 rs2 : Reg) (s : State) : Outcome :=
  shiftRegOp Config.shiftAmountMode Config.flagsOtherAlu ror rd rs1 rs2 s

end Sys2Proof.Machine
end

