-- ==== Sys2Proof/Machine/System.lean ====
section
/-! DEFINITION. Meanings of spec/46_system.md: the specials in the space of `jmpd` and `jmpdl`. -/

namespace Sys2Proof.Machine

/-- `sysc x`: raises `Syscall(x)` (R247). -/
def execSysc (x : BitVec 8) (_s : State) : Outcome := raise (.syscall x)

/-- `fence`: holds until every load has arrived, then goes on (R241; log 7); stores are in place already (log 14). -/
def execFence (s : State) : Outcome := .next s.awaitAll.advance

/-- `ftlb`: `pc <- npc` and nothing else (R242; log 19). -/
def execFtlb (s : State) : Outcome := .next s.advance

/-- `rfi`: raises `ReturnFromInterrupt` (R243, spec/60_exceptions.md R289; log 15). -/
def execRfi (_s : State) : Outcome := raise .returnFromInterrupt

/-- The sleep of `wfi` (R244, spec/60_exceptions.md R305): a pending interrupt is taken. With none pending, the run ends when no
interrupt can arrive; when one can, the instruction holds, in the same state and at the same pc, and is tried again by the next
step, in which an interrupt may arrive and be taken (spec/70_reset_and_hazards.md R321; log 16). -/
def wfiOp (m : Config.Interrupts) (s : State) : Outcome :=
  match s.pendingInterrupts with
  | [] =>
    match m with
    | .never => raise .waitForInterrupt
    | .any => .next s
  | p :: ps => raise (.interrupt (takenInterrupt (p :: ps)))

/-- `wfi` (R244). -/
def execWfi (s : State) : Outcome := wfiOp Config.interrupts s

/-- `scf`: `fl.c <- 1` (R245). -/
def execScf (s : State) : Outcome := .next (s.setFl { s.fl with c := true }).advance

/-- `rscf`: `fl.c <- 0` (R246). -/
def execRscf (s : State) : Outcome := .next (s.setFl { s.fl with c := false }).advance

end Sys2Proof.Machine
end

