-- ==== Sys2Proof/Machine/Dispatch.lean ====
section
/-! DEFINITION. One arm per instruction: the meaning it calls. -/

namespace Sys2Proof.Machine

def exec (i : Instr) (s : State) : Host.Outcome State Fault Refusal :=
  match i with
  | .bkpt => Sys2Proof.Machine.execBkpt s
  | .nop => Sys2Proof.Machine.execNop s
  | .sysc x => Sys2Proof.Machine.execSysc x s
  | .fence => Sys2Proof.Machine.execFence s
  | .ftlb => Sys2Proof.Machine.execFtlb s
  | .rfi => Sys2Proof.Machine.execRfi s
  | .wfi => Sys2Proof.Machine.execWfi s
  | .scf => Sys2Proof.Machine.execScf s
  | .rscf => Sys2Proof.Machine.execRscf s
  | .reservedJmpdl064 => Sys2Proof.Machine.execReservedJmpdl064 s
  | .reservedJmpdl0128 => Sys2Proof.Machine.execReservedJmpdl0128 s
  | .reservedJmpdl0Other f => Sys2Proof.Machine.execReservedJmpdl0Other f s
  | .jmpd rs => Sys2Proof.Machine.execJmpd rs s
  | .reservedJmpdFlags rs f => Sys2Proof.Machine.execReservedJmpdFlags rs f s
  | .jmpdl rs => Sys2Proof.Machine.execJmpdl rs s
  | .reservedJmpdlFlags rs f => Sys2Proof.Machine.execReservedJmpdlFlags rs f s
  | .reservedBrhCond condHi imm => Sys2Proof.Machine.execReservedBrhCond condHi imm s
  | .add rd rs1 rs2 => Sys2Proof.Machine.execAdd rd rs1 rs2 s
  | .addc rd rs1 rs2 => Sys2Proof.Machine.execAddc rd rs1 rs2 s
  | .sub rd rs1 rs2 => Sys2Proof.Machine.execSub rd rs1 rs2 s
  | .subb rd rs1 rs2 => Sys2Proof.Machine.execSubb rd rs1 rs2 s
  | .addi rd imm => Sys2Proof.Machine.execAddi rd imm s
  | .cmpi rs imm => Sys2Proof.Machine.execCmpi rs imm s
  | .csrr rd csr => Sys2Proof.Machine.execCsrr rd csr s
  | .csrw rs csr => Sys2Proof.Machine.execCsrw rs csr s
  | .slt rd rs1 rs2 => Sys2Proof.Machine.execSlt rd rs1 rs2 s
  | .sltu rd rs1 rs2 => Sys2Proof.Machine.execSltu rd rs1 rs2 s
  | .szr rd rs1 rs2 => Sys2Proof.Machine.execSzr rd rs1 rs2 s
  | .ior rd rs1 rs2 => Sys2Proof.Machine.execIor rd rs1 rs2 s
  | .and rd rs1 rs2 => Sys2Proof.Machine.execAnd rd rs1 rs2 s
  | .xor rd rs1 rs2 => Sys2Proof.Machine.execXor rd rs1 rs2 s
  | .iori rd imm => Sys2Proof.Machine.execIori rd imm s
  | .ioriu rd imm => Sys2Proof.Machine.execIoriu rd imm s
  | .andi rd imm => Sys2Proof.Machine.execAndi rd imm s
  | .andiu rd imm => Sys2Proof.Machine.execAndiu rd imm s
  | .biti rs imm => Sys2Proof.Machine.execBiti rs imm s
  | .xori rd imm => Sys2Proof.Machine.execXori rd imm s
  | .xoriu rd imm => Sys2Proof.Machine.execXoriu rd imm s
  | .bsl rd amt rs => Sys2Proof.Machine.execBsl rd amt rs s
  | .bsr rd amt rs => Sys2Proof.Machine.execBsr rd amt rs s
  | .bsrs rd amt rs => Sys2Proof.Machine.execBsrs rd amt rs s
  | .brr rd amt rs => Sys2Proof.Machine.execBrr rd amt rs s
  | .bsld rd rs1 rs2 => Sys2Proof.Machine.execBsld rd rs1 rs2 s
  | .bsrd rd rs1 rs2 => Sys2Proof.Machine.execBsrd rd rs1 rs2 s
  | .bsrsd rd rs1 rs2 => Sys2Proof.Machine.execBsrsd rd rs1 rs2 s
  | .brrd rd rs1 rs2 => Sys2Proof.Machine.execBrrd rd rs1 rs2 s
  | .reserved0111100 a b c => Sys2Proof.Machine.execReserved0111100 a b c s
  | .reserved0111101 a b c => Sys2Proof.Machine.execReserved0111101 a b c s
  | .reserved0111110 a b c => Sys2Proof.Machine.execReserved0111110 a b c s
  | .reserved0111111 a b c => Sys2Proof.Machine.execReserved0111111 a b c s
  | .lli rd imm => Sys2Proof.Machine.execLli rd imm s
  | .lui rd imm => Sys2Proof.Machine.execLui rd imm s
  | .jmp imm => Sys2Proof.Machine.execJmp imm s
  | .jmpl imm => Sys2Proof.Machine.execJmpl imm s
  | .jmpr imm => Sys2Proof.Machine.execJmpr imm s
  | .jmprl imm => Sys2Proof.Machine.execJmprl imm s
  | .brh cond imm => Sys2Proof.Machine.execBrh cond imm s
  | .prfi imm => Sys2Proof.Machine.execPrfi imm s
  | .mld rd imm base => Sys2Proof.Machine.execMld rd imm base s
  | .mldw rd imm base => Sys2Proof.Machine.execMldw rd imm base s
  | .mst rs imm base => Sys2Proof.Machine.execMst rs imm base s
  | .mstw rs imm base => Sys2Proof.Machine.execMstw rs imm base s
  | .xch rw imm base => Sys2Proof.Machine.execXch rw imm base s
  | .xchw rw imm base => Sys2Proof.Machine.execXchw rw imm base s
  | .mov rd rs => Sys2Proof.Machine.execMov rd rs s
  | .test rs => Sys2Proof.Machine.execTest rs s
  | .neg rd rs => Sys2Proof.Machine.execNeg rd rs s
  | .cmp rs1 rs2 => Sys2Proof.Machine.execCmp rs1 rs2 s
  | .inc rd => Sys2Proof.Machine.execInc rd s
  | .dec rd => Sys2Proof.Machine.execDec rd s
  | .alloc imm => Sys2Proof.Machine.execAlloc imm s
  | .ip rd => Sys2Proof.Machine.execIp rd s
  | .clri => Sys2Proof.Machine.execClri s
  | .sneg rd rs => Sys2Proof.Machine.execSneg rd rs s
  | .spos rd rs => Sys2Proof.Machine.execSpos rd rs s
  | .snez rd rs => Sys2Proof.Machine.execSnez rd rs s
  | .cut4 rd => Sys2Proof.Machine.execCut4 rd s
  | .cut8 rd => Sys2Proof.Machine.execCut8 rd s
  | .clrl rd => Sys2Proof.Machine.execClrl rd s
  | .not rd => Sys2Proof.Machine.execNot rd s
  | .not8 rd => Sys2Proof.Machine.execNot8 rd s
  | .clr rd => Sys2Proof.Machine.execClr rd s
  | .ret => Sys2Proof.Machine.execRet s
  | .prfd imm base => Sys2Proof.Machine.execPrfd imm base s
  | .mclr imm base => Sys2Proof.Machine.execMclr imm base s
  | .mclrw imm base => Sys2Proof.Machine.execMclrw imm base s

end Sys2Proof.Machine
end

