-- ==== Sys2Proof/Machine/Step.lean ====
section
/-! DEFINITION. One step of the machine (spec/00_scope.md R12): the memory side's turn, an interrupt if one can arrive, fetch,
decode, execution. -/

namespace Sys2Proof.Machine

/-- One step under the parameters set in Config.lean (by default no interrupt arrives). -/
def step (s : State) : Host.Outcome State Fault Refusal :=
  stepBy exec Config.ifetchOrder Config.mmio Config.interrupts s

/-- `s` with the instruction word `w` (the low `nbits` of it) in memory at pc, where the next step fetches; nothing else
changes. -/
def State.withFetchWord (s : State) (nbits w : Nat) : State :=
  s.placeWord Config.ifetchOrder (BitVec.ofNat 16 (w % 2 ^ nbits))

end Sys2Proof.Machine
end

