-- ==== Sys2Proof/Machine/Image.lean ====
section
/-! DEFINITION. How a program reaches memory: the assembler's data directives (spec/30_encoding.md R112), the image they and the
instructions make, and loading it (spec/20_memory.md R70, spec/70_reset_and_hazards.md R312; log 18, log 26). -/

namespace Sys2Proof.Machine

/-- The value types of the data directives (R112). -/
inductive DataType | u8 | u16 | u24 | u32 | i8 | i16 | i24 | i32
  deriving DecidableEq, Repr

/-- Bytes of one value (R112). -/
def DataType.size : DataType → Nat
  | .u8 => 1
  | .u16 => 2
  | .u24 => 3
  | .u32 => 4
  | .i8 => 1
  | .i16 => 2
  | .i24 => 3
  | .i32 => 4

/-- Is the type one of the two's complement ones (R112)? -/
def DataType.signed : DataType → Bool
  | .u8 => false
  | .u16 => false
  | .u24 => false
  | .u32 => false
  | .i8 => true
  | .i16 => true
  | .i24 => true
  | .i32 => true

/-- Can the type hold the value? The source's examples give the ends of each range (R112). -/
def DataType.holds (ty : DataType) (v : Int) : Bool :=
  if ty.signed then decide (-2 ^ (8 * ty.size - 1) ≤ v) && decide (v < 2 ^ (8 * ty.size - 1))
  else decide (0 ≤ v) && decide (v < 2 ^ (8 * ty.size))

/-- A data directive with its operands known, as the source demands ("analysis-known", R112). A symbol operand stands for its
value; how symbols are defined is not in the source. -/
inductive Directive
  /-- A value of a type. -/
  | value (ty : DataType) (v : Int)
  /-- Room for `amt` values of a type; without an amount, for one. -/
  | reserve (ty : DataType) (amt : Option Nat)
  /-- One byte for each character, and the sentinel if there is one. -/
  | ascii (text : List Char) (sentinel : Option Byte)
  deriving DecidableEq, Repr

/-- The operands are in range: ASCII characters have 7-bit codes (R112, spec/93_implementation_defined.md section 2). -/
def Directive.wf : Directive → Bool
  | .value ty v => ty.holds v
  | .reserve _ _ => true
  | .ascii text _ => text.all fun c => decide (c.toNat < 128)

/-- The `n` low bytes of the two's complement form of a number, low byte first (R112). -/
def leBytes : Nat → Int → List Byte
  | 0, _ => []
  | n + 1, v => BitVec.ofInt 8 v :: leBytes n (v / 256)

/-- The bytes of a directive, lowest address first; reserved space has no value (R112). -/
def Directive.emit : Directive → List (Option Byte)
  | .value ty v => (leBytes ty.size v).map some
  | .reserve ty amt => List.replicate (ty.size * amt.getD 1) none
  | .ascii text sentinel => (text.map fun c => some (BitVec.ofNat 8 c.toNat)) ++ sentinel.toList.map some

/-- One item of a program. -/
inductive Item
  | instr (i : Instr)
  | data (d : Directive)
  deriving DecidableEq, Repr

/-- The bytes of an item under a configuration; an instruction's are those of its word, in the order of `IFETCH_ORDER`
(spec/20_memory.md R61). -/
def Item.emit (p : Config.Params) : Item → List (Option Byte)
  | .instr i => (layoutWord p.ifetchOrder (encodeWith p.csr i)).map some
  | .data d => d.emit

/-- The image of a program under a configuration, from its lowest address on. Each item starts at the byte after the last one's, with
no alignment and no padding: DESIGN CHOICE, unsafe, log 26, since the source says nothing of the alignment of data (N24). -/
def image (p : Config.Params) (items : List Item) : List (Option Byte) := items.flatMap (Item.emit p)

/-- Put the address `a` into `CODE_RANGE`. -/
def State.coverByte (s : State) (a : Word) : State :=
  match s.code with
  | r :: rs =>
    if r.base + r.size = a.toNat then { s with code := { r with size := r.size + 1 } :: rs }
    else { s with code := { base := a.toNat, size := 1 } :: r :: rs }
  | [] => { s with code := [{ base := a.toNat, size := 1 }] }

/-- Load an image from address `a` on: its bytes get their values and belong to `CODE_RANGE` (R70); reserved space gets neither
(R312). -/
def State.loadImage (s : State) (a : Word) : List (Option Byte) → State
  | [] => s
  | some b :: rest => ((s.writeByte a b).coverByte a).loadImage (a + 1) rest
  | none :: rest => s.loadImage (a + 1) rest

end Sys2Proof.Machine
end

