-- ==== Sys2Proof/Machine/Configured.lean ====
section
/-! DEFINITION. The machine with its configuration as an argument (spec/00_scope.md R8): every named parameter at any of its
values. `exec`, `step`, `State.reset` and `Sys2Proof.core` are these at the parameters set in Config.lean. -/

namespace Sys2Proof.Machine

/-- `exec` under a configuration. An instruction that reads no parameter has its meaning of `exec`. -/
def execWith (p : Config.Params) (i : Instr) (s : State) : Outcome :=
  match i with
  -- no parameter
  | .bkpt | .nop | .sysc _ | .fence | .ftlb | .rfi | .scf | .rscf => exec i s
  | .reservedJmpdl064 | .reservedJmpdl0128 | .reservedJmpdl0Other _ => exec i s
  | .reservedJmpdFlags _ _ | .reservedJmpdlFlags _ _ | .reservedBrhCond _ _ => exec i s
  | .reserved0111100 _ _ _ | .reserved0111101 _ _ _ | .reserved0111110 _ _ _ | .reserved0111111 _ _ _ => exec i s
  | .jmpd _ | .jmpdl _ | .jmp _ | .jmpl _ | .prfi _ | .ret => exec i s
  | .add _ _ _ | .addc _ _ _ | .addi _ _ | .mov _ _ | .test _ | .inc _ | .dec _ | .alloc _ => exec i s
  | .lli _ _ | .lui _ _ | .clr _ => exec i s
  -- SUB_CARRY (spec/40_arithmetic.md R132, R133, R135)
  | .sub rd rs1 rs2 => subOp p.subCarry rd rs1 rs2 s
  | .subb rd rs1 rs2 => subbOp p.subCarry rd rs1 rs2 s
  | .cmpi rs imm => cmpiOp p.subCarry rs imm s
  | .neg rd rs => subOp p.subCarry rd .zr rs s
  | .cmp rs1 rs2 => subOp p.subCarry .zr rs1 rs2 s
  -- the CSR numbers and CSR_IP_VALUE (spec/10_state.md R40 to R45)
  | .csrr rd k => csrrOp p.csr p.csrIpValue rd k s
  | .csrw rs k => csrwOp p.csr rs k s
  | .ip rd => csrrOp p.csr p.csrIpValue rd p.csr.ip s
  | .clri => csrwOp p.csr .zr p.csr.pen s
  -- SLT_MODE, FLAGS_OTHER_ALU (spec/41_csr_compare.md R152, R153, spec/42_logic.md R165)
  | .slt rd rs1 rs2 => sltOp p.sltMode p.flagsOtherAlu rd rs1 rs2 s
  | .sneg rd rs => sltOp p.sltMode p.flagsOtherAlu rd rs .zr s
  | .spos rd rs => sltOp p.sltMode p.flagsOtherAlu rd .zr rs s
  | .sltu rd rs1 rs2 => sltuOp p.flagsOtherAlu rd rs1 rs2 s
  | .snez rd rs => sltuOp p.flagsOtherAlu rd .zr rs s
  | .szr rd rs1 rs2 => szrOp p.flagsOtherAlu rd rs1 rs2 s
  -- LOGIC_CARRY (spec/42_logic.md R176)
  | .ior rd rs1 rs2 => logicOp p.logicCarry (· ||| ·) rd rs1 rs2 s
  | .and rd rs1 rs2 => logicOp p.logicCarry (· &&& ·) rd rs1 rs2 s
  | .xor rd rs1 rs2 => logicOp p.logicCarry (· ^^^ ·) rd rs1 rs2 s
  | .iori rd imm => logicImmOp p.logicCarry (· ||| ·) rd (sext8 imm) s
  | .ioriu rd imm => logicImmOp p.logicCarry (· ||| ·) rd (zext8 imm) s
  | .andi rd imm => logicImmOp p.logicCarry (· &&& ·) rd (sext8 imm) s
  | .andiu rd imm => logicImmOp p.logicCarry (· &&& ·) rd (zext8 imm) s
  | .biti rs imm => bitiOp p.logicCarry rs imm s
  | .xori rd imm => logicImmOp p.logicCarry (· ^^^ ·) rd (sext8 imm) s
  | .xoriu rd imm => logicImmOp p.logicCarry (· ^^^ ·) rd (zext8 imm) s
  | .cut4 rd => logicImmOp p.logicCarry (· &&& ·) rd (zext8 0x0F) s
  | .cut8 rd => logicImmOp p.logicCarry (· &&& ·) rd (zext8 0xFF) s
  | .clrl rd => logicImmOp p.logicCarry (· &&& ·) rd (zext8 0x00) s
  | .not rd => logicImmOp p.logicCarry (· ^^^ ·) rd (sext8 0xFF) s
  | .not8 rd => logicImmOp p.logicCarry (· ^^^ ·) rd (zext8 0xFF) s
  -- SHIFT_AMOUNT_MODE, FLAGS_OTHER_ALU (spec/43_shift.md R189, R198)
  | .bsl rd amt rs => shiftImmOp p.flagsOtherAlu shl rd amt rs s
  | .bsr rd amt rs => shiftImmOp p.flagsOtherAlu shr rd amt rs s
  | .bsrs rd amt rs => shiftImmOp p.flagsOtherAlu sar rd amt rs s
  | .brr rd amt rs => shiftImmOp p.flagsOtherAlu ror rd amt rs s
  | .bsld rd rs1 rs2 => shiftRegOp p.shiftAmountMode p.flagsOtherAlu shl rd rs1 rs2 s
  | .bsrd rd rs1 rs2 => shiftRegOp p.shiftAmountMode p.flagsOtherAlu shr rd rs1 rs2 s
  | .bsrsd rd rs1 rs2 => shiftRegOp p.shiftAmountMode p.flagsOtherAlu sar rd rs1 rs2 s
  | .brrd rd rs1 rs2 => shiftRegOp p.shiftAmountMode p.flagsOtherAlu ror rd rs1 rs2 s
  -- REL_BASE (spec/45_jump_branch.md R226)
  | .jmpr imm => jmprOp p.relBase imm s
  | .jmprl imm => jmprlOp p.relBase imm s
  | .brh cond imm => brhOp p.relBase cond imm s
  -- INTERRUPTS (spec/46_system.md R244)
  | .wfi => wfiOp p.interrupts s
  -- MISALIGNED_WORD, MMIO (spec/20_memory.md R63, R72)
  | .mld rd imm base => loadByteOp p.mmio rd imm base s
  | .mldw rd imm base => loadWordOp p.misalignedWord p.mmio rd imm base s
  | .mst rs imm base => storeByteOp p.mmio rs imm base s
  | .mstw rs imm base => storeWordOp p.misalignedWord p.mmio rs imm base s
  | .xch rw imm base => exchangeByteOp p.mmio rw imm base s
  | .xchw rw imm base => exchangeWordOp p.misalignedWord p.mmio rw imm base s
  | .prfd imm base => loadWordOp p.misalignedWord p.mmio .zr imm base s
  | .mclr imm base => storeByteOp p.mmio .zr imm base s
  | .mclrw imm base => storeWordOp p.misalignedWord p.mmio .zr imm base s

/-- `step` under a configuration: `IFETCH_ORDER`, `MMIO` and `INTERRUPTS` act on it besides `execWith`. `MEM_ORDER` acts on
nothing: with one core and no other agent both its values admit the same behaviours (spec/20_memory.md R67 (d), D20; log 14). -/
def stepWith (p : Config.Params) (s : State) : Outcome := stepBy (execWith p) p.ifetchOrder p.mmio p.interrupts s

/-- `State.reset` under a configuration: pc at `RESET_PC` (spec/10_state.md R50). -/
def State.resetWith (p : Config.Params) : State := { State.reset with ip := p.resetPc }

/-- `State.withFetchWord` under a configuration: the word lies at pc in the order of `IFETCH_ORDER`. -/
def State.withFetchWordWith (p : Config.Params) (s : State) (nbits w : Nat) : State :=
  s.placeWord p.ifetchOrder (BitVec.ofNat 16 (w % 2 ^ nbits))

/-- The machine under a configuration. -/
def coreWith (p : Config.Params) : Host.Core :=
  { State := State, Fault := Fault, Refusal := Refusal, step := stepWith p, reset := State.resetWith p }

end Sys2Proof.Machine
end

