-- ==== Sys2Proof/WellFormed.lean ====
section
/-! DEFINITION. Which instruction terms have a word of their own (spec/30_encoding.md R96, R100, R101): the fields a row's pattern
leaves free, less the words that an earlier row of the table takes. -/

namespace Sys2Proof

/-- A term is well-formed when its row gives it a word: `jmpd`, `jmpdl` need a register other than zr and their reserved rows
a non-zero F (R100 items 2, 3); `reservedJmpdl0Other` has none of the listed one-bit F (R101 items d, e); `add 0, 0, 0` and
`addi 0, 0` are the words of `bkpt` and `nop` (R96), so `mov zr, zr` and `test zr` have no word (R140, R141). Every other
term is well-formed: the operand types hold exactly the values of the fields. -/
def Instr.wf : Instr → Bool
  | .bkpt => true
  | .nop => true
  | .sysc _ => true
  | .fence => true
  | .ftlb => true
  | .rfi => true
  | .wfi => true
  | .scf => true
  | .rscf => true
  | .reservedJmpdl064 => true
  | .reservedJmpdl0128 => true
  | .reservedJmpdl0Other f => !([0x01, 0x02, 0x04, 0x08, 0x10, 0x20, 0x40, 0x80] : List (BitVec 8)).contains f
  | .jmpd rs => rs != .zr
  | .reservedJmpdFlags rs f => rs != .zr && f != 0
  | .jmpdl rs => rs != .zr
  | .reservedJmpdlFlags rs f => rs != .zr && f != 0
  | .reservedBrhCond _ _ => true
  | .add rd rs1 rs2 => !(rd == .zr && rs1 == .zr && rs2 == .zr)
  | .addc _ _ _ => true
  | .sub _ _ _ => true
  | .subb _ _ _ => true
  | .addi rd imm => !(rd == .zr && imm == 0)
  | .cmpi _ _ => true
  | .csrr _ _ => true
  | .csrw _ _ => true
  | .slt _ _ _ => true
  | .sltu _ _ _ => true
  | .szr _ _ _ => true
  | .ior _ _ _ => true
  | .and _ _ _ => true
  | .xor _ _ _ => true
  | .iori _ _ => true
  | .ioriu _ _ => true
  | .andi _ _ => true
  | .andiu _ _ => true
  | .biti _ _ => true
  | .xori _ _ => true
  | .xoriu _ _ => true
  | .bsl _ _ _ => true
  | .bsr _ _ _ => true
  | .bsrs _ _ _ => true
  | .brr _ _ _ => true
  | .bsld _ _ _ => true
  | .bsrd _ _ _ => true
  | .bsrsd _ _ _ => true
  | .brrd _ _ _ => true
  | .reserved0111100 _ _ _ => true
  | .reserved0111101 _ _ _ => true
  | .reserved0111110 _ _ _ => true
  | .reserved0111111 _ _ _ => true
  | .lli _ _ => true
  | .lui _ _ => true
  | .jmp _ => true
  | .jmpl _ => true
  | .jmpr _ => true
  | .jmprl _ => true
  | .brh _ _ => true
  | .prfi _ => true
  | .mld _ _ _ => true
  | .mldw _ _ _ => true
  | .mst _ _ _ => true
  | .mstw _ _ _ => true
  | .xch _ _ _ => true
  | .xchw _ _ _ => true
  | .mov rd rs => !(rd == .zr && rs == .zr)
  | .test rs => rs != .zr
  | .neg _ _ => true
  | .cmp _ _ => true
  | .inc _ => true
  | .dec _ => true
  | .alloc _ => true
  | .ip _ => true
  | .clri => true
  | .sneg _ _ => true
  | .spos _ _ => true
  | .snez _ _ => true
  | .cut4 _ => true
  | .cut8 _ => true
  | .clrl _ => true
  | .not _ => true
  | .not8 _ => true
  | .clr _ => true
  | .ret => true
  | .prfd _ _ => true
  | .mclr _ _ => true
  | .mclrw _ _ => true

end Sys2Proof
end

