-- ==== Sys2Proof/Safety.lean ====
section
/-! DEFINITION. The terms claims use: what an instruction leaves alone, what a result looks like, which instructions belong to
which group, the invariant of the machine, and what counts as a safe run. -/

namespace Sys2Proof.Machine

/-! What stays. -/

/-- Every register but those of `written` is as it was, except that a register the instruction waited for is resolved and holds
the value of its load (spec/10_state.md R37, R39). -/
def KeepsRegs (i : Instr) (written : List Reg) (s t : State) : Prop :=
  ∀ r, r ∉ written → t.gpr r = if r ∈ sources i then (s.gpr r).resolve else s.gpr r

/-- Every byte of memory reads as before. -/
def KeepsMemory (s t : State) : Prop := ∀ a, t.readByte a = s.readByte a

/-- The CSRs, the hidden state, the mode and the code range are as before. -/
def KeepsSystem (s t : State) : Prop :=
  t.ira = s.ira ∧ t.pendingInterrupts = s.pendingInterrupts ∧ t.hidden = s.hidden ∧ t.mode = s.mode ∧ t.code = s.code

/-! What a result looks like. -/

/-- The instruction's destination `d`, if it is not r0, holds `v` and is resolved; nothing else but fl and pc may differ. -/
structure WritesRegister (i : Instr) (d : Reg) (v : Word) (s t : State) : Prop where
  result : d ≠ .zr → t.gpr d = { val := v, load := none }
  registers : KeepsRegs i [d] s t
  memory : KeepsMemory s t
  system : KeepsSystem s t

/-- Nothing but fl and pc may differ. -/
structure WritesNoRegister (i : Instr) (s t : State) : Prop where
  registers : KeepsRegs i [] s t
  memory : KeepsMemory s t
  system : KeepsSystem s t

/-- The instruction's destination `d`, not r0, awaits the value `v` of a load just issued; its old value still stands
(spec/10_state.md R39). Nothing but memory, fl and pc may differ otherwise. -/
structure IssuesLoad (i : Instr) (d : Reg) (v : Word) (s t : State) : Prop where
  pending : ∃ left, t.gpr d =
    { val := (if d ∈ sources i then (s.gpr d).resolve else s.gpr d).val, load := some { value := v, left := left } }
  registers : KeepsRegs i [d] s t
  system : KeepsSystem s t

/-- The byte at `a` is `b`, and every other byte of memory reads as before. -/
def StoresByte (a : Word) (b : Byte) (s t : State) : Prop :=
  t.readByte a = some b ∧ ∀ a', a' ≠ a → t.readByte a' = s.readByte a'

/-- The two bytes from `a` on are the low and the high half of `v` (spec/20_memory.md R60), and every other byte reads as
before. -/
def StoresWord (a v : Word) (s t : State) : Prop :=
  t.readByte a = some (v.extractLsb' 0 8) ∧ t.readByte (a + 1) = some (v.extractLsb' 8 8) ∧
    ∀ a', a' ≠ a → a' ≠ a + 1 → t.readByte a' = s.readByte a'

/-- fl after an ALU result `r` with carry `k` (spec/40_arithmetic.md R138). -/
def flagsOf (k : Bool) (r : Word) (u : Bool) : Flags :=
  { c := k, s := decide (2 ^ 15 ≤ r.toNat), z := decide (r.toNat = 0), u := u }

/-- fl after a bitwise result `r`: s and z from it, u as before; c is not said (spec/42_logic.md R176). -/
def LogicFlagsFrom (r : Word) (s t : State) : Prop :=
  t.fl.s = decide (2 ^ 15 ≤ r.toNat) ∧ t.fl.z = decide (r.toNat = 0) ∧ t.fl.u = s.fl.u

/-! Shapes of completion: the instruction answers a next state, and what it holds. -/

/-- `u(sext_8(v))`, the sign-extended immediate as a number (spec/00_scope.md R11): v, or v + 0x10000 - 2^8 if its bit 7 is set. -/
def sextNat (v : BitVec 8) : Nat := if 128 ≤ v.toNat then v.toNat + 65280 else v.toNat

/-- Completes with the result `r` in `d` and the flags of `r` with carry `k` (spec/40_arithmetic.md R138). -/
def CompletesArith (i : Instr) (d : Reg) (r : Word) (k : Bool) (s : State) : Prop :=
  ∃ t, exec i s = .next t ∧ WritesRegister i d r s t ∧ t.fl = flagsOf k r s.fl.u ∧ t.pc = s.pc + 2

/-- Completes with the flags of `r` with carry `k`, and writes no register (spec/40_arithmetic.md R139). -/
def CompletesCompare (i : Instr) (r : Word) (k : Bool) (s : State) : Prop :=
  ∃ t, exec i s = .next t ∧ WritesNoRegister i s t ∧ t.fl = flagsOf k r s.fl.u ∧ t.pc = s.pc + 2

/-- Completes with the result `r` in `d` and the s and z flags of `r` (spec/42_logic.md R176). -/
def CompletesLogic (i : Instr) (d : Reg) (r : Word) (s : State) : Prop :=
  ∃ t, exec i s = .next t ∧ WritesRegister i d r s t ∧ LogicFlagsFrom r s t ∧ t.pc = s.pc + 2

/-- Completes with the s and z flags of `r`, and writes no register (spec/42_logic.md R173). -/
def CompletesBitTest (i : Instr) (r : Word) (s : State) : Prop :=
  ∃ t, exec i s = .next t ∧ WritesNoRegister i s t ∧ LogicFlagsFrom r s t ∧ t.pc = s.pc + 2

/-- Completes with the result `r` in `d`; nothing is said of c, s, z, and u is kept (spec/10_state.md R48). -/
def CompletesFreeFlags (i : Instr) (d : Reg) (r : Word) (s : State) : Prop :=
  ∃ t, exec i s = .next t ∧ WritesRegister i d r s t ∧ t.fl.u = s.fl.u ∧ t.pc = s.pc + 2

/-- Completes with the result `r` in `d` and fl as before. -/
def CompletesQuiet (i : Instr) (d : Reg) (r : Word) (s : State) : Prop :=
  ∃ t, exec i s = .next t ∧ WritesRegister i d r s t ∧ t.fl = s.fl ∧ t.pc = s.pc + 2

/-- Goes on at `target`, with nothing else changed. -/
def GoesTo (i : Instr) (target : Word) (s : State) : Prop :=
  ∃ t, exec i s = .next t ∧ WritesNoRegister i s t ∧ t.fl = s.fl ∧ t.pc = target

/-- Goes on at `target` with the link value in rp (spec/45_jump_branch.md R226), and nothing else changed. -/
def GoesToAndLinks (i : Instr) (target : Word) (s : State) : Prop :=
  ∃ t, exec i s = .next t ∧ WritesRegister i .rp (s.pc + 2) s t ∧ t.fl = s.fl ∧ t.pc = target

/-- Raises the write fault of its destination `d` (spec/10_state.md R38). -/
def FaultsOnWrite (i : Instr) (d : Reg) (s : State) : Prop := exec i s = .fault (.asyncWriteFault d)

/-- Completes with a load issued into `d`, memory and fl as before (spec/47_memory_ops.md R261). -/
def CompletesLoad (i : Instr) (d : Reg) (v : Word) (s : State) : Prop :=
  ∃ t, exec i s = .next t ∧ IssuesLoad i d v s t ∧ KeepsMemory s t ∧ t.fl = s.fl ∧ t.pc = s.pc + 2

/-- Completes with the byte `b` stored at `a`, registers and fl as before (spec/47_memory_ops.md R263). -/
def CompletesByteStore (i : Instr) (a : Word) (b : Byte) (s : State) : Prop :=
  ∃ t, exec i s = .next t ∧ StoresByte a b s t ∧ KeepsRegs i [] s t ∧ KeepsSystem s t ∧ t.fl = s.fl ∧ t.pc = s.pc + 2

/-- Completes with the word `v` stored at `a`, registers and fl as before (spec/47_memory_ops.md R264). -/
def CompletesWordStore (i : Instr) (a v : Word) (s : State) : Prop :=
  ∃ t, exec i s = .next t ∧ StoresWord a v s t ∧ KeepsRegs i [] s t ∧ KeepsSystem s t ∧ t.fl = s.fl ∧ t.pc = s.pc + 2

/-! When an instruction may run. -/

/-- The destination, if there is one, may be written: it was read first, or its load has arrived (spec/10_state.md R38). -/
def destReady (i : Instr) (s : State) : Bool :=
  match destination i with
  | none => true
  | some d => (sources i).contains d || s.resolved d

/-- No byte of the list lies in `CODE_RANGE`. -/
def outsideCode (bytes : List Word) (s : State) : Bool := bytes.all fun a => !inRanges s.code a

/-! Groups of instructions. -/

/-- The instructions that can store to memory (spec/47_memory_ops.md). -/
def storesToMemory : Instr → Bool
  | .mst _ _ _ | .mstw _ _ _ | .xch _ _ _ | .xchw _ _ _ | .mclr _ _ | .mclrw _ _ => true
  | _ => false

/-- The base instructions and aliases that can write fl (spec/10_state.md R48). -/
def canWriteFlags : Instr → Bool
  | .add _ _ _ | .addc _ _ _ | .sub _ _ _ | .subb _ _ _ | .addi _ _ | .cmpi _ _ | .csrw _ _ => true
  | .slt _ _ _ | .sltu _ _ _ | .szr _ _ _ | .ior _ _ _ | .and _ _ _ | .xor _ _ _ => true
  | .iori _ _ | .ioriu _ _ | .andi _ _ | .andiu _ _ | .biti _ _ | .xori _ _ | .xoriu _ _ => true
  | .bsl _ _ _ | .bsr _ _ _ | .bsrs _ _ _ | .brr _ _ _ => true
  | .bsld _ _ _ | .bsrd _ _ _ | .bsrsd _ _ _ | .brrd _ _ _ => true
  | .scf | .rscf => true
  | .mov _ _ | .test _ | .neg _ _ | .cmp _ _ | .inc _ | .dec _ | .alloc _ => true
  | .sneg _ _ | .spos _ _ | .snez _ _ => true
  | .cut4 _ | .cut8 _ | .clrl _ | .not _ | .not8 _ => true
  | _ => false

/-- The reserved rows (spec/30_encoding.md R101). -/
def isReserved : Instr → Bool
  | .reservedJmpdl064 | .reservedJmpdl0128 | .reservedJmpdl0Other _ => true
  | .reservedJmpdFlags _ _ | .reservedJmpdlFlags _ _ | .reservedBrhCond _ _ => true
  | .reserved0111100 _ _ _ | .reserved0111101 _ _ _ | .reserved0111110 _ _ _ | .reserved0111111 _ _ _ => true
  | _ => false

/-- The reserved words as spec/60_exceptions.md R282 lists them, by their fields. -/
def ReservedWord (w : Word) : Prop :=
  fieldOp w = 0b01111 ∨
  (fieldOp w = 0b11000 ∧ (fieldA w = 0b011 ∨ fieldA w = 0b111)) ∨
  ((fieldOp w = 0b10110 ∨ fieldOp w = 0b10111) ∧ fieldA w ≠ 0 ∧ fieldImm8 w ≠ 0) ∨
  (fieldOp w = 0b10111 ∧ fieldA w = 0 ∧ fieldImm8 w ∉ ([0x01, 0x02, 0x04, 0x08, 0x10, 0x20] : List (BitVec 8)))

/-! Runs. -/

/-- The invariant of every run: memory in its canonical form, no pending interrupt under `INTERRUPTS = never`
(spec/60_exceptions.md R287), and hidden state as reset left it, since nothing changes it (spec/10_state.md R47). -/
def State.Inv (s : State) : Prop := s.mem.wf ∧ s.pendingInterrupts = [] ∧ s.hidden = Hidden.reset

/-- `k` steps from `s` end in `t`. -/
def RunsTo (k : Nat) (s t : State) : Prop := Sys2Proof.core.run k s = .next t

/-- A run of `k` steps from `s` is safe when it meets no fault and no refusal. -/
def SafeRun (k : Nat) (s : State) : Prop := ∃ t, RunsTo k s t

/-- The instruction whose bytes lie at pc, if they have values (spec/20_memory.md R61). -/
def instructionAt (s : State) : Option Instr :=
  match s.readByte s.pc, s.readByte (s.pc + 1) with
  | some first, some second => some (decode (assembleWord Config.ifetchOrder first second))
  | _, _ => none

end Sys2Proof.Machine
end

