-- ==== Sys2Proof/Certificates/Slice0/Obligations.lean ====
section
/-! DEFINITION. The statements for the provers. The sources of an instruction are read through `State.view`: a reader of a pending
register is held until its load has arrived and then sees the loaded value (spec/10_state.md R37). What the shapes
(`CompletesArith`, `GoesTo`, …) say stands in Safety.lean; each has as its first part that `exec` answers a next state. -/

open Sys2Proof Sys2Proof.Machine

/-! Encoding and the step. -/

/-- The instruction whose bytes lie at pc is well-formed, and a step is `exec` of it after the memory side's turn, which only
lets each pending load arrive or come one instruction closer; a byte at pc that has no value stops the step. That the fetch sees
a byte the program has stored, at once and outside the code range as well, is the model's (log 29); that no interrupt arrives
and that no address is a device are the spec's own defaults (D36, log 13; D26, log 12). -/
def Obligations.StepRunsDecodedInstruction : Prop :=
  ∀ s : State,
    (∀ i, instructionAt s = some i → i.wf = true ∧ step s = exec i s.memorySide) ∧
    s.memorySide.pc = s.pc ∧ s.memorySide.fl = s.fl ∧ KeepsMemory s s.memorySide ∧ KeepsSystem s s.memorySide ∧
    (∀ r, s.memorySide.gpr r = (s.gpr r).tick) ∧
    (s.readByte s.pc = none → step s = .fault (.unsetRead s.pc)) ∧
    (∀ b, s.readByte s.pc = some b → s.readByte (s.pc + 1) = none → step s = .fault (.unsetRead (s.pc + 1)))

/-- Words of the spec's decoder sweep and what they stand for. -/
def Obligations.SpecWordsDecode : Prop :=
  decode 0x0325 = .add .x1 .x2 .x3 ∧ decode 0x0CFF = .addi .x2 0xFF ∧ decode 0x1BA5 = .slt .x1 .x2 .x3 ∧
  decode 0x4B80 = .biti .x1 0x80 ∧ decode 0x6BA4 = .brr .x1 4 .x2 ∧ decode 0x7365 = .bsrd .x1 .x2 .x3 ∧
  decode 0x8B12 = .lui .x1 0x12 ∧ decode 0xC6FD = .brh .nz 0xFD ∧ decode 0xB003 = .sysc 3 ∧ decode 0xB900 = .jmpdl .rp ∧
  decode 0xDE0A = .mldw .t1 1 .sp ∧ decode 0xFFFF = .xchw .t2 31 .t2

/-- Decoding the word of a well-formed instruction gives it back; an alias gives the base instruction it names. -/
def Obligations.DecodeOfEncode : Prop :=
  ∀ i : Instr, i.wf = true → decode (encode i) = i.core

/-- Every word is the word of the instruction it decodes to, which is well-formed and no alias: each word has one meaning. -/
def Obligations.EncodeOfDecode : Prop :=
  ∀ w : Word, encode (decode w) = w ∧ (decode w).wf = true ∧ (decode w).isAlias = false

/-- The words that decode to a reserved row are those of the spec's list, and each raises `ReservedInstruction` with the word
itself; so does every term of a reserved row. That a reserved word raises an event is the spec's own decision (D18). -/
def Obligations.ReservedWordsStop : Prop :=
  (∀ w : Word, isReserved (decode w) = true ↔ ReservedWord w) ∧
  (∀ (w : Word) (s : State), ReservedWord w → exec (decode w) s = .fault (.reservedInstruction w)) ∧
  (∀ (i : Instr) (s : State), isReserved i = true → exec i s = .fault (.reservedInstruction (encode i)))

/-- `bkpt`, `sysc`, `rfi` and `wfi` stop the run: what the chip does then is not in the source (the spec's decisions D17, D31,
D40). A `wfi` takes a pending interrupt if there is one (log 16); with none it stops because none can arrive, the spec's own default
`INTERRUPTS = never` (D36, log 13). -/
def Obligations.SpecialsStop : Prop :=
  ∀ s : State,
    exec .bkpt s = .fault .breakpoint ∧ (∀ n, exec (.sysc n) s = .fault (.syscall n)) ∧
    exec .rfi s = .fault .returnFromInterrupt ∧
    (s.pendingInterrupts = [] → exec .wfi s = .fault .waitForInterrupt) ∧
    (s.pendingInterrupts ≠ [] → ∃ src ∈ s.pendingInterrupts, exec .wfi s = .fault (.interrupt src))

/-! Arithmetic. -/

/-- `add`: the sum modulo 2^16, carry when it does not fit, the write fault of a pending destination, the encoding. That a pending
source is waited for within the step is the model's (log 7). -/
def Obligations.AddRule : Prop :=
  ∀ (rd rs1 rs2 : Reg) (s : State),
    (destReady (.add rd rs1 rs2) s = true →
      CompletesArith (.add rd rs1 rs2) rd (BitVec.ofNat 16 ((s.view rs1).toNat + (s.view rs2).toNat))
        (decide (65536 ≤ (s.view rs1).toNat + (s.view rs2).toNat)) s) ∧
    (destReady (.add rd rs1 rs2) s = false → FaultsOnWrite (.add rd rs1 rs2) rd s) ∧
    encode (.add rd rs1 rs2) = 0b00000#5 ++ rd.toBits ++ 0b00#2 ++ rs1.toBits ++ rs2.toBits ∧
    decode 0x0000 = .bkpt

/-- `addc`: the three-term sum with fl.c. -/
def Obligations.AddWithCarry : Prop :=
  ∀ (rd rs1 rs2 : Reg) (s : State),
    (destReady (.addc rd rs1 rs2) s = true →
      CompletesArith (.addc rd rs1 rs2) rd
        (BitVec.ofNat 16 ((s.view rs1).toNat + (s.view rs2).toNat + s.fl.c.toNat))
        (decide (65536 ≤ (s.view rs1).toNat + (s.view rs2).toNat + s.fl.c.toNat)) s) ∧
    (destReady (.addc rd rs1 rs2) s = false → FaultsOnWrite (.addc rd rs1 rs2) rd s)

/-- `sub`, `subb`, `neg`: the difference modulo 2^16; `subb` takes 1 more when fl.c is 0; c is 1 exactly when there is no borrow,
the spec's own choice of polarity (D7, log 10). -/
def Obligations.SubtractRules : Prop :=
  ∀ (rd rs1 rs2 : Reg) (s : State),
    (destReady (.sub rd rs1 rs2) s = true →
      CompletesArith (.sub rd rs1 rs2) rd (BitVec.ofInt 16 ((s.view rs1).toNat - (s.view rs2).toNat))
        (decide ((s.view rs2).toNat ≤ (s.view rs1).toNat)) s) ∧
    (destReady (.subb rd rs1 rs2) s = true →
      CompletesArith (.subb rd rs1 rs2) rd
        (BitVec.ofInt 16 ((s.view rs1).toNat - (s.view rs2).toNat - (1 - s.fl.c.toNat)))
        (decide ((s.view rs2).toNat + (1 - s.fl.c.toNat) ≤ (s.view rs1).toNat)) s) ∧
    (destReady (.neg rd rs2) s = true →
      CompletesArith (.neg rd rs2) rd (BitVec.ofInt 16 (-(s.view rs2).toNat)) (decide ((s.view rs2).toNat = 0)) s) ∧
    (destReady (.sub rd rs1 rs2) s = false → FaultsOnWrite (.sub rd rs1 rs2) rd s) ∧
    (destReady (.subb rd rs1 rs2) s = false → FaultsOnWrite (.subb rd rs1 rs2) rd s) ∧
    (destReady (.neg rd rs2) s = false → FaultsOnWrite (.neg rd rs2) rd s)

/-- `cmp` and `cmpi`: the flags of a difference, no register; the carry's polarity is the spec's own choice (D7, log 10). -/
def Obligations.CompareRules : Prop :=
  ∀ (rs1 rs2 : Reg) (imm : BitVec 8) (s : State),
    CompletesCompare (.cmp rs1 rs2) (BitVec.ofInt 16 ((s.view rs1).toNat - (s.view rs2).toNat))
      (decide ((s.view rs2).toNat ≤ (s.view rs1).toNat)) s ∧
    CompletesCompare (.cmpi rs1 imm) (BitVec.ofInt 16 ((s.view rs1).toNat - imm.toInt))
      (decide (sextNat imm ≤ (s.view rs1).toNat)) s

/-- `addi`: the sum with the sign-extended immediate; it never raises the write fault; the encoding. That a pending register is
waited for within the step is the model's (log 7). -/
def Obligations.AddImmediateRule : Prop :=
  ∀ (rd : Reg) (imm : BitVec 8) (s : State),
    CompletesArith (.addi rd imm) rd (BitVec.ofInt 16 ((s.view rd).toNat + imm.toInt))
      (decide (65536 ≤ (s.view rd).toNat + sextNat imm)) s ∧
    encode (.addi rd imm) = 0b00001#5 ++ rd.toBits ++ imm ∧
    decode 0x0800 = .nop

/-- `mov`, `test`, `inc`, `dec`, `alloc`: their results, flags and words. That a pending source is waited for within the step is
the model's (log 7). -/
def Obligations.AdditionAliases : Prop :=
  ∀ (rd rs : Reg) (imm : BitVec 8) (s : State),
    (destReady (.mov rd rs) s = true → CompletesArith (.mov rd rs) rd (s.view rs) false s) ∧
    (destReady (.mov rd rs) s = false → FaultsOnWrite (.mov rd rs) rd s) ∧
    CompletesCompare (.test rs) (s.view rs) false s ∧
    CompletesArith (.inc rd) rd (BitVec.ofNat 16 ((s.view rd).toNat + 1)) (decide ((s.view rd).toNat = 65535)) s ∧
    CompletesArith (.dec rd) rd (BitVec.ofNat 16 ((s.view rd).toNat + 65535)) (decide ((s.view rd).toNat ≠ 0)) s ∧
    CompletesArith (.alloc imm) .sp (BitVec.ofInt 16 ((s.view .sp).toNat + imm.toInt))
      (decide (65536 ≤ (s.view .sp).toNat + sextNat imm)) s ∧
    encode (.mov rd rs) = 0b00000#5 ++ rd.toBits ++ 0b00#2 ++ rs.toBits ++ 0b000#3 ∧
    encode (.test rs) = 0b00000#5 ++ 0b000#3 ++ 0b00#2 ++ rs.toBits ++ 0b000#3 ∧
    encode (.inc rd) = 0b00001#5 ++ rd.toBits ++ 0b00000001#8 ∧
    encode (.dec rd) = 0b00001#5 ++ rd.toBits ++ 0b11111111#8 ∧
    encode (.alloc imm) = 0b00001#5 ++ 0b010#3 ++ imm ∧
    encode (.mov .x1 .sp) = 0x0310 ∧ encode (.test .x1) = 0x0018 ∧ encode (.inc .x1) = 0x0B01 ∧
    encode (.dec .x2) = 0x0CFF ∧ encode (.alloc 0xF8) = 0x0AF8 ∧ decode (encode (.mov .zr .zr)) = .bkpt

/-- After `cmp a, b`, the branches z, nz, c, nc decide equality and the unsigned order (D7), and s the sign of the wrapped
difference, which is the signed order when the difference does not overflow. -/
def Obligations.CompareThenBranch : Prop :=
  ∀ (a b : Reg) (imm : BitVec 8) (s : State), ∃ t, exec (.cmp a b) s = .next t ∧
    GoesTo (.brh .z imm) (if s.view a = s.view b then s.pc + 4 + BitVec.ofInt 16 (2 * imm.toInt) else s.pc + 4) t ∧
    GoesTo (.brh .nz imm) (if s.view a = s.view b then s.pc + 4 else s.pc + 4 + BitVec.ofInt 16 (2 * imm.toInt)) t ∧
    GoesTo (.brh .c imm)
      (if (s.view b).toNat ≤ (s.view a).toNat then s.pc + 4 + BitVec.ofInt 16 (2 * imm.toInt) else s.pc + 4) t ∧
    GoesTo (.brh .nc imm)
      (if (s.view b).toNat ≤ (s.view a).toNat then s.pc + 4 else s.pc + 4 + BitVec.ofInt 16 (2 * imm.toInt)) t ∧
    (-32768 ≤ (s.view a).toInt - (s.view b).toInt → (s.view a).toInt - (s.view b).toInt ≤ 32767 →
      GoesTo (.brh .s imm)
        (if (s.view a).toInt < (s.view b).toInt then s.pc + 4 + BitVec.ofInt 16 (2 * imm.toInt) else s.pc + 4) t)

/-- `nop` moves on and writes no flag; its word is 0x0800, and every other `addi zr, imm` is not `nop` and writes flags. -/
def Obligations.NopRule : Prop :=
  ∀ (imm : BitVec 8) (s : State),
    GoesTo .nop (s.pc + 2) s ∧ encode .nop = 0x0800 ∧ decode 0x0800 = .nop ∧
    (imm ≠ 0 → decode (0b00001#5 ++ 0b000#3 ++ imm) = .addi .zr imm ∧
      CompletesCompare (.addi .zr imm) (BitVec.ofInt 16 imm.toInt) false s)

/-- An arithmetic or logical instruction with destination zr always completes, writes no register, and leaves the fl it leaves
with any other destination; the two words where the control unit routes the logic otherwise are `bkpt` and `nop`. That a free flag
is the same for both, the draw being numbered by a counter, is the model's (log 9), as is the waiting for a source (log 7). -/
def Obligations.ZeroDestinationFlagsOnly : Prop :=
  ∀ (rs1 rs2 : Reg) (imm : BitVec 8) (s : State),
    (∀ f ∈ ([.add, .addc, .sub, .subb, .szr, .ior, .and, .xor] : List (Reg → Reg → Reg → Instr)),
      ∃ t, exec (f .zr rs1 rs2) s = .next t ∧ WritesNoRegister (f .zr rs1 rs2) s t ∧ t.pc = s.pc + 2 ∧
        ∀ rd t', exec (f rd rs1 rs2) s = .next t' → t'.fl = t.fl) ∧
    (∀ f ∈ ([.addi, .iori, .ioriu, .andi, .andiu, .xori, .xoriu] : List (Reg → BitVec 8 → Instr)),
      ∃ t, exec (f .zr imm) s = .next t ∧ WritesNoRegister (f .zr imm) s t ∧ t.pc = s.pc + 2 ∧
        ∀ rd t', s.view rd = 0 → exec (f rd imm) s = .next t' → t'.fl = t.fl) ∧
    (∀ f ∈ ([.cmpi, .biti] : List (Reg → BitVec 8 → Instr)),
      ∃ t, exec (f rs1 imm) s = .next t ∧ WritesNoRegister (f rs1 imm) s t ∧ t.pc = s.pc + 2) ∧
    decode 0x0000 = .bkpt ∧ decode 0x0800 = .nop

/-- `add` of the low words, then `addc` of the high words, adds 32-bit numbers; `sub`, then `subb`, subtracts them (the carry's
polarity after `sub` is the spec's own choice, D7, log 10). -/
def Obligations.WideArithmetic : Prop :=
  ∀ (dl al bl dh ah bh : Reg) (s : State),
    dl ≠ .zr → dh ≠ .zr → dl ≠ dh → dl ≠ ah → dl ≠ bh → s.resolved dl = true → s.resolved dh = true →
    (∃ t u, exec (.add dl al bl) s = .next t ∧ exec (.addc dh ah bh) t = .next u ∧
      65536 * (u.view dh).toNat + (u.view dl).toNat =
        (65536 * (s.view ah).toNat + (s.view al).toNat + (65536 * (s.view bh).toNat + (s.view bl).toNat)) % 4294967296 ∧
      (u.fl.c = true ↔ 4294967296 ≤
        65536 * (s.view ah).toNat + (s.view al).toNat + (65536 * (s.view bh).toNat + (s.view bl).toNat)) ∧
      (∀ r, r ≠ dl → r ≠ dh → u.view r = s.view r) ∧ KeepsMemory s u) ∧
    (∃ t u, exec (.sub dl al bl) s = .next t ∧ exec (.subb dh ah bh) t = .next u ∧
      ((65536 * (u.view dh).toNat + (u.view dl).toNat : Nat) : Int) =
        ((65536 * (s.view ah).toNat + (s.view al).toNat : Nat) - (65536 * (s.view bh).toNat + (s.view bl).toNat : Nat) : Int) %
          4294967296 ∧
      (u.fl.c = true ↔
        65536 * (s.view bh).toNat + (s.view bl).toNat ≤ 65536 * (s.view ah).toNat + (s.view al).toNat) ∧
      (∀ r, r ≠ dl → r ≠ dh → u.view r = s.view r) ∧ KeepsMemory s u)

/-! CSR access and comparison. The numbers and the layout of fl are the spec's own choices (D11, D15, D16, D41). -/

/-- `csrr` of ip gives the address of the next instruction, of fl its four bits from bit 0 up: c, s, z, u; `ip` is the former. -/
def Obligations.CsrReads : Prop :=
  ∀ (rd : Reg) (s : State),
    (destReady (.csrr rd Config.csrIp) s = true → CompletesQuiet (.csrr rd Config.csrIp) rd (s.pc + 2) s) ∧
    (destReady (.ip rd) s = true → CompletesQuiet (.ip rd) rd (s.pc + 2) s) ∧
    (destReady (.csrr rd Config.csrFl) s = true →
      CompletesQuiet (.csrr rd Config.csrFl) rd
        (BitVec.ofNat 16 (s.fl.c.toNat + 2 * s.fl.s.toNat + 4 * s.fl.z.toNat + 8 * s.fl.u.toNat)) s) ∧
    (∀ k, destReady (.csrr rd k) s = false → FaultsOnWrite (.csrr rd k) rd s) ∧
    (destReady (.ip rd) s = false → FaultsOnWrite (.ip rd) rd s)

/-- `csrw` to fl writes its four bits from the low four bits; a zero written to pen, and `clri`, empty the pending interrupts. -/
def Obligations.CsrWrites : Prop :=
  ∀ (rs : Reg) (s : State),
    (∃ t, exec (.csrw rs Config.csrFl) s = .next t ∧ WritesNoRegister (.csrw rs Config.csrFl) s t ∧
      t.fl = { c := decide ((s.view rs).toNat % 2 = 1), s := decide ((s.view rs).toNat / 2 % 2 = 1),
               z := decide ((s.view rs).toNat / 4 % 2 = 1), u := decide ((s.view rs).toNat / 8 % 2 = 1) } ∧
      t.pc = s.pc + 2) ∧
    (s.view rs = 0 → ∃ t, exec (.csrw rs Config.csrPen) s = .next t ∧ t.pendingInterrupts = [] ∧
      KeepsRegs (.csrw rs Config.csrPen) [] s t ∧ KeepsMemory s t ∧ t.fl = s.fl ∧ t.ira = s.ira ∧ t.hidden = s.hidden ∧
      t.mode = s.mode ∧ t.code = s.code ∧ t.pc = s.pc + 2) ∧
    (∃ t, exec .clri s = .next t ∧ t.pendingInterrupts = [] ∧ KeepsRegs .clri [] s t ∧ KeepsMemory s t ∧ t.fl = s.fl ∧
      t.ira = s.ira ∧ t.hidden = s.hidden ∧ t.mode = s.mode ∧ t.code = s.code ∧ t.pc = s.pc + 2)

/-- The CSR accesses the spec gives no meaning are refused, each by its name; the four named numbers are distinct. -/
def Obligations.CsrRefusals : Prop :=
  [Config.csrIp, Config.csrFl, Config.csrPen, Config.csrIra].Pairwise (· ≠ ·) ∧
  ∀ (r : Reg) (k : BitVec 6) (s : State),
    (s.resolved r = true → exec (.csrr r Config.csrPen) s = .refused .csrPenRead) ∧
    (s.resolved r = true → exec (.csrr r Config.csrIra) s = .refused .csrIraAccess) ∧
    exec (.csrw r Config.csrIp) s = .refused .csrIpWrite ∧
    exec (.csrw r Config.csrIra) s = .refused .csrIraAccess ∧
    (s.view r ≠ 0 → exec (.csrw r Config.csrPen) s = .refused (.csrPenWrite (s.view r))) ∧
    (k ∉ [Config.csrIp, Config.csrFl, Config.csrPen, Config.csrIra] →
      (s.resolved r = true → exec (.csrr r k) s = .refused (.unassignedCsr k)) ∧
      exec (.csrw r k) s = .refused (.unassignedCsr k))

/-- `slt`, `sltu`, `spos`: 1 or 0 by the signed or unsigned order (D12, log 10); c, s, z are free, u is kept (D9, log 11). -/
def Obligations.SetLessThan : Prop :=
  ∀ (rd rs1 rs2 : Reg) (s : State),
    (destReady (.slt rd rs1 rs2) s = true →
      CompletesFreeFlags (.slt rd rs1 rs2) rd (if (s.view rs1).toInt < (s.view rs2).toInt then 1 else 0) s) ∧
    (destReady (.sltu rd rs1 rs2) s = true →
      CompletesFreeFlags (.sltu rd rs1 rs2) rd (if (s.view rs1).toNat < (s.view rs2).toNat then 1 else 0) s) ∧
    (destReady (.spos rd rs1) s = true →
      CompletesFreeFlags (.spos rd rs1) rd
        (if 1 ≤ (s.view rs1).toNat ∧ (s.view rs1).toNat ≤ 32767 then 1 else 0) s) ∧
    (destReady (.slt rd rs1 rs2) s = false → FaultsOnWrite (.slt rd rs1 rs2) rd s) ∧
    (destReady (.sltu rd rs1 rs2) s = false → FaultsOnWrite (.sltu rd rs1 rs2) rd s) ∧
    (destReady (.spos rd rs1) s = false → FaultsOnWrite (.spos rd rs1) rd s)

/-- `sneg` gives bit 15 of its source, under either reading of `slt`; `snez` gives 1 unless the source is zero; their words. That u
is kept is the spec's own choice (D9, log 11); that a pending source is waited for within the step is the model's (log 7). -/
def Obligations.SignAndZeroTests : Prop :=
  ∀ (rd rs : Reg) (v : Word) (s : State),
    (destReady (.sneg rd rs) s = true →
      CompletesFreeFlags (.sneg rd rs) rd (if 32768 ≤ (s.view rs).toNat then 1 else 0) s) ∧
    (destReady (.snez rd rs) s = true →
      CompletesFreeFlags (.snez rd rs) rd (if (s.view rs).toNat = 0 then 0 else 1) s) ∧
    (∀ m, sltValue m v 0 = if 32768 ≤ v.toNat then 1 else 0) ∧
    encode (.sneg rd rs) = 0b00011#5 ++ rd.toBits ++ 0b10#2 ++ rs.toBits ++ 0b000#3 ∧
    encode (.snez rd rs) = 0b00011#5 ++ rd.toBits ++ 0b11#2 ++ 0b000#3 ++ rs.toBits ∧
    encode (.sneg .x1 .x2) = 0x1BA0 ∧ encode (.snez .x1 .x2) = 0x1BC4

/-! Select and logic. -/

/-- `szr` writes the first source when the second is zero, and nothing otherwise; which field is which is the spec's own choice
(D13); c, s, z are free (D9, log 11), and a pending destination faults whether or not the test succeeds (D38). -/
def Obligations.SelectRule : Prop :=
  ∀ (rd rs1 rs2 : Reg) (s : State),
    (destReady (.szr rd rs1 rs2) s = true → s.view rs2 = 0 →
      CompletesFreeFlags (.szr rd rs1 rs2) rd (s.view rs1) s) ∧
    (destReady (.szr rd rs1 rs2) s = true → s.view rs2 ≠ 0 →
      ∃ t, exec (.szr rd rs1 rs2) s = .next t ∧ WritesNoRegister (.szr rd rs1 rs2) s t ∧ t.fl.u = s.fl.u ∧
        t.pc = s.pc + 2) ∧
    (destReady (.szr rd rs1 rs2) s = false → FaultsOnWrite (.szr rd rs1 rs2) rd s)

/-- `ior`, `and`, `xor`: results, s and z, the write fault, the encodings. Nothing is said of c, which is a free value. That a
pending source is waited for within the step is the model's (log 7). -/
def Obligations.LogicRegisterRules : Prop :=
  ∀ (rd rs1 rs2 : Reg) (s : State),
    (destReady (.ior rd rs1 rs2) s = true → CompletesLogic (.ior rd rs1 rs2) rd (s.view rs1 ||| s.view rs2) s) ∧
    (destReady (.and rd rs1 rs2) s = true → CompletesLogic (.and rd rs1 rs2) rd (s.view rs1 &&& s.view rs2) s) ∧
    (destReady (.xor rd rs1 rs2) s = true → CompletesLogic (.xor rd rs1 rs2) rd (s.view rs1 ^^^ s.view rs2) s) ∧
    (destReady (.ior rd rs1 rs2) s = false → FaultsOnWrite (.ior rd rs1 rs2) rd s) ∧
    (destReady (.and rd rs1 rs2) s = false → FaultsOnWrite (.and rd rs1 rs2) rd s) ∧
    (destReady (.xor rd rs1 rs2) s = false → FaultsOnWrite (.xor rd rs1 rs2) rd s) ∧
    encode (.ior rd rs1 rs2) = 0b00100#5 ++ rd.toBits ++ 0b01#2 ++ rs1.toBits ++ rs2.toBits ∧
    encode (.and rd rs1 rs2) = 0b00100#5 ++ rd.toBits ++ 0b10#2 ++ rs1.toBits ++ rs2.toBits ∧
    encode (.xor rd rs1 rs2) = 0b00100#5 ++ rd.toBits ++ 0b11#2 ++ rs1.toBits ++ rs2.toBits

/-- `iori`, `ioriu`, `andi`, `andiu`, `xori`, `xoriu` and `biti`: the immediate sign- or zero-extended, results, s and z, no
write fault, the encodings. That a pending register is waited for within the step is the model's (log 7). -/
def Obligations.LogicImmediateRules : Prop :=
  ∀ (rd : Reg) (imm : BitVec 8) (s : State),
    CompletesLogic (.iori rd imm) rd (s.view rd ||| BitVec.ofInt 16 imm.toInt) s ∧
    CompletesLogic (.ioriu rd imm) rd (s.view rd ||| BitVec.ofNat 16 imm.toNat) s ∧
    CompletesLogic (.andi rd imm) rd (s.view rd &&& BitVec.ofInt 16 imm.toInt) s ∧
    CompletesLogic (.andiu rd imm) rd (s.view rd &&& BitVec.ofNat 16 imm.toNat) s ∧
    CompletesLogic (.xori rd imm) rd (s.view rd ^^^ BitVec.ofInt 16 imm.toInt) s ∧
    CompletesLogic (.xoriu rd imm) rd (s.view rd ^^^ BitVec.ofNat 16 imm.toNat) s ∧
    CompletesBitTest (.biti rd imm) (s.view rd &&& BitVec.ofNat 16 imm.toNat) s ∧
    (s.view rd &&& BitVec.ofNat 16 imm.toNat).toNat < 256 ∧
    encode (.iori rd imm) = 0b00101#5 ++ rd.toBits ++ imm ∧
    encode (.ioriu rd imm) = 0b00110#5 ++ rd.toBits ++ imm ∧
    encode (.andi rd imm) = 0b00111#5 ++ rd.toBits ++ imm ∧
    encode (.andiu rd imm) = 0b01000#5 ++ rd.toBits ++ imm ∧
    encode (.biti rd imm) = 0b01001#5 ++ rd.toBits ++ imm ∧
    encode (.xori rd imm) = 0b01010#5 ++ rd.toBits ++ imm ∧
    encode (.xoriu rd imm) = 0b01011#5 ++ rd.toBits ++ imm

/-- `not` complements the register, `not8` its low byte; their words. -/
def Obligations.NotRules : Prop :=
  ∀ (rd : Reg) (s : State),
    CompletesLogic (.not rd) rd (BitVec.ofNat 16 (65535 - (s.view rd).toNat)) s ∧
    CompletesLogic (.not8 rd) rd
      (BitVec.ofNat 16 ((s.view rd).toNat / 256 * 256 + (255 - (s.view rd).toNat % 256))) s ∧
    encode (.not rd) = 0b01010#5 ++ rd.toBits ++ 0b11111111#8 ∧
    encode (.not8 rd) = 0b01011#5 ++ rd.toBits ++ 0b11111111#8 ∧
    encode (.not .x1) = 0x53FF ∧ encode (.not8 .x1) = 0x5BFF

/-- `cut4`, `cut8` keep the low 4 or 8 bits, `clrl` clears the whole register (C3 and C4 are the spec's own readings). -/
def Obligations.CutRules : Prop :=
  ∀ (rd : Reg) (s : State),
    CompletesLogic (.cut4 rd) rd (BitVec.ofNat 16 ((s.view rd).toNat % 16)) s ∧
    CompletesLogic (.cut8 rd) rd (BitVec.ofNat 16 ((s.view rd).toNat % 256)) s ∧
    CompletesLogic (.clrl rd) rd 0 s

/-- `lui` then `ioriu` builds any 16-bit constant, with s and z of it; nothing else changes. -/
def Obligations.FullConstant : Prop :=
  ∀ (rd : Reg) (hi lo : BitVec 8) (s : State), rd ≠ .zr → s.resolved rd = true →
    ∃ t u, exec (.lui rd hi) s = .next t ∧ exec (.ioriu rd lo) t = .next u ∧
      u.gpr rd = { val := BitVec.ofNat 16 (256 * hi.toNat + lo.toNat), load := none } ∧
      (∀ r, r ≠ rd → u.gpr r = s.gpr r) ∧ KeepsMemory s u ∧ KeepsSystem s u ∧
      LogicFlagsFrom (BitVec.ofNat 16 (256 * hi.toNat + lo.toNat)) s u ∧ u.pc = s.pc + 4

/-! Shifts. The flags c, s, z after a shift are free (D9, log 11). -/

/-- The shifts by an amount n in the instruction: times 2^n, divided by 2^n rounding down (unsigned, then signed), rotated. -/
def Obligations.ShiftByAmount : Prop :=
  ∀ (rd : Reg) (n : BitVec 4) (rs : Reg) (s : State),
    (destReady (.bsl rd n rs) s = true →
      CompletesFreeFlags (.bsl rd n rs) rd (BitVec.ofNat 16 ((s.view rs).toNat * 2 ^ n.toNat)) s) ∧
    (destReady (.bsr rd n rs) s = true →
      CompletesFreeFlags (.bsr rd n rs) rd (BitVec.ofNat 16 ((s.view rs).toNat / 2 ^ n.toNat)) s) ∧
    (destReady (.bsrs rd n rs) s = true →
      CompletesFreeFlags (.bsrs rd n rs) rd (BitVec.ofInt 16 ((s.view rs).toInt / 2 ^ n.toNat)) s) ∧
    (destReady (.brr rd n rs) s = true →
      CompletesFreeFlags (.brr rd n rs) rd
        (BitVec.ofNat 16 ((s.view rs).toNat / 2 ^ n.toNat + (s.view rs).toNat % 2 ^ n.toNat * 2 ^ (16 - n.toNat))) s) ∧
    (destReady (.bsl rd n rs) s = false → FaultsOnWrite (.bsl rd n rs) rd s) ∧
    (destReady (.bsr rd n rs) s = false → FaultsOnWrite (.bsr rd n rs) rd s) ∧
    (destReady (.bsrs rd n rs) s = false → FaultsOnWrite (.bsrs rd n rs) rd s) ∧
    (destReady (.brr rd n rs) s = false → FaultsOnWrite (.brr rd n rs) rd s)

/-- The shifts by a register: the same functions of the amount modulo 16; that only the low four bits count, and which field is
the amount, are the spec's own choices (D14, log 10). -/
def Obligations.ShiftByRegister : Prop :=
  ∀ (rd rs1 rs2 : Reg) (n : Nat) (s : State), n = (s.view rs2).toNat % 16 →
    (destReady (.bsld rd rs1 rs2) s = true →
      CompletesFreeFlags (.bsld rd rs1 rs2) rd (BitVec.ofNat 16 ((s.view rs1).toNat * 2 ^ n)) s) ∧
    (destReady (.bsrd rd rs1 rs2) s = true →
      CompletesFreeFlags (.bsrd rd rs1 rs2) rd (BitVec.ofNat 16 ((s.view rs1).toNat / 2 ^ n)) s) ∧
    (destReady (.bsrsd rd rs1 rs2) s = true →
      CompletesFreeFlags (.bsrsd rd rs1 rs2) rd (BitVec.ofInt 16 ((s.view rs1).toInt / 2 ^ n)) s) ∧
    (destReady (.brrd rd rs1 rs2) s = true →
      CompletesFreeFlags (.brrd rd rs1 rs2) rd
        (BitVec.ofNat 16 ((s.view rs1).toNat / 2 ^ n + (s.view rs1).toNat % 2 ^ n * 2 ^ (16 - n))) s) ∧
    (destReady (.bsld rd rs1 rs2) s = false → FaultsOnWrite (.bsld rd rs1 rs2) rd s) ∧
    (destReady (.bsrd rd rs1 rs2) s = false → FaultsOnWrite (.bsrd rd rs1 rs2) rd s) ∧
    (destReady (.bsrsd rd rs1 rs2) s = false → FaultsOnWrite (.bsrsd rd rs1 rs2) rd s) ∧
    (destReady (.brrd rd rs1 rs2) s = false → FaultsOnWrite (.brrd rd rs1 rs2) rd s)

/-! Load immediate. -/

/-- `lli`, `lui`, `clr`: the whole register is written; that fl is kept is the spec's own choice (D10). -/
def Obligations.LoadImmediateRules : Prop :=
  ∀ (rd : Reg) (imm : BitVec 8) (s : State),
    (destReady (.lli rd imm) s = true → CompletesQuiet (.lli rd imm) rd (BitVec.ofInt 16 imm.toInt) s) ∧
    (destReady (.lui rd imm) s = true → CompletesQuiet (.lui rd imm) rd (BitVec.ofNat 16 (256 * imm.toNat)) s) ∧
    (destReady (.clr rd) s = true → CompletesQuiet (.clr rd) rd 0 s) ∧
    (destReady (.lli rd imm) s = false → FaultsOnWrite (.lli rd imm) rd s) ∧
    (destReady (.lui rd imm) s = false → FaultsOnWrite (.lui rd imm) rd s) ∧
    (destReady (.clr rd) s = false → FaultsOnWrite (.clr rd) rd s)

/-! Jumps and branches. -/

/-- `jmp` goes to 32 times its operand and does nothing else; its words. -/
def Obligations.JumpRule : Prop :=
  ∀ (imm : BitVec 11) (s : State),
    GoesTo (.jmp imm) (BitVec.ofNat 16 (32 * imm.toNat)) s ∧
    encode (.jmp imm) = 0b10010#5 ++ imm ∧ encode (.jmp 1) = 0x9001 ∧ encode (.jmp 0x7FF) = 0x97FF

/-- `jmpr` goes to the next instruction's address plus twice its signed operand; the base is the spec's own choice (D5, log 10). -/
def Obligations.RelativeJumpRule : Prop :=
  ∀ (imm : BitVec 11) (s : State), GoesTo (.jmpr imm) (s.pc + 2 + BitVec.ofInt 16 (2 * imm.toInt)) s

/-- `brh` under each condition: to the next instruction's address plus twice its signed operand (D5, log 10) when the flag it
names is set, or clear for the negations; else on to the next instruction. -/
def Obligations.BranchRule : Prop :=
  ∀ (imm : BitVec 8) (s : State) (taken : Word), taken = s.pc + 2 + BitVec.ofInt 16 (2 * imm.toInt) →
    GoesTo (.brh .c imm) (if s.fl.c = true then taken else s.pc + 2) s ∧
    GoesTo (.brh .s imm) (if s.fl.s = true then taken else s.pc + 2) s ∧
    GoesTo (.brh .z imm) (if s.fl.z = true then taken else s.pc + 2) s ∧
    GoesTo (.brh .nc imm) (if s.fl.c = false then taken else s.pc + 2) s ∧
    GoesTo (.brh .ns imm) (if s.fl.s = false then taken else s.pc + 2) s ∧
    GoesTo (.brh .nz imm) (if s.fl.z = false then taken else s.pc + 2) s

/-- `jmpd` and `ret` go to the register's value with bit 0 dropped (the spec's own choice, D6). -/
def Obligations.RegisterJumpRules : Prop :=
  ∀ (rs : Reg) (s : State),
    GoesTo (.jmpd rs) (BitVec.ofNat 16 (2 * ((s.view rs).toNat / 2))) s ∧
    GoesTo .ret (BitVec.ofNat 16 (2 * ((s.view .rp).toNat / 2))) s

/-- `jmpl`, `jmprl`, `jmpdl`: rp receives the address after the jump (D4), the target as without linking; a pending rp that is
not the jump's source faults. -/
def Obligations.LinkingJumpRules : Prop :=
  ∀ (imm : BitVec 11) (rs : Reg) (s : State),
    (s.resolved .rp = true → GoesToAndLinks (.jmpl imm) (BitVec.ofNat 16 (32 * imm.toNat)) s) ∧
    (s.resolved .rp = true → GoesToAndLinks (.jmprl imm) (s.pc + 2 + BitVec.ofInt 16 (2 * imm.toInt)) s) ∧
    (destReady (.jmpdl rs) s = true →
      GoesToAndLinks (.jmpdl rs) (BitVec.ofNat 16 (2 * ((s.view rs).toNat / 2))) s) ∧
    (s.resolved .rp = false → FaultsOnWrite (.jmpl imm) .rp s ∧ FaultsOnWrite (.jmprl imm) .rp s) ∧
    (s.resolved .rp = false → rs ≠ .rp → FaultsOnWrite (.jmpdl rs) .rp s) ∧
    GoesToAndLinks (.jmpdl .rp) (BitVec.ofNat 16 (2 * ((s.view .rp).toNat / 2))) s

/-- A return after any call resumes behind the call, with every register but rp and every byte of memory as before. -/
def Obligations.ReturnAfterCall : Prop :=
  ∀ (call : Instr) (s : State),
    ((∃ imm, call = .jmpl imm) ∨ (∃ imm, call = .jmprl imm) ∨ ∃ rs, call = .jmpdl rs) → destReady call s = true →
    ∃ t u, exec call s = .next t ∧ exec .ret t = .next u ∧ u.pc = s.pc + 2 ∧ u.fl = s.fl ∧
      (∀ r, r ≠ .rp → u.view r = s.view r) ∧ KeepsMemory s u ∧ KeepsSystem s u

/-- The hints `prfi`, `ftlb`, `prfd` and loads into zr move on and change nothing, for any address (the spec's own choices D23,
D24; log 19). -/
def Obligations.HintsDoNothing : Prop :=
  ∀ (target : BitVec 11) (imm : BitVec 5) (base : Reg) (s : State),
    GoesTo (.prfi target) (s.pc + 2) s ∧ GoesTo .ftlb (s.pc + 2) s ∧ GoesTo (.prfd imm base) (s.pc + 2) s ∧
    GoesTo (.mld .zr imm base) (s.pc + 2) s ∧ GoesTo (.mldw .zr imm base) (s.pc + 2) s

/-! System instructions. -/

/-- `fence` waits for every load (D39, log 7): afterwards every register is resolved with the value of its load, nothing else has
changed, and no instruction can raise the write fault. -/
def Obligations.FenceRule : Prop :=
  ∀ s : State, ∃ t, exec .fence s = .next t ∧ (∀ r, t.gpr r = { val := s.view r, load := none }) ∧ KeepsMemory s t ∧
    KeepsSystem s t ∧ t.fl = s.fl ∧ t.pc = s.pc + 2 ∧ ∀ i d, ¬ FaultsOnWrite i d t

/-- `scf` and `rscf` write c and nothing else (that s and z stay is the spec's own choice, D32). -/
def Obligations.CarryFlagRules : Prop :=
  ∀ s : State,
    (∃ t, exec .scf s = .next t ∧ WritesNoRegister .scf s t ∧ t.fl = { s.fl with c := true } ∧ t.pc = s.pc + 2) ∧
    (∃ t, exec .rscf s = .next t ∧ WritesNoRegister .rscf s t ∧ t.fl = { s.fl with c := false } ∧ t.pc = s.pc + 2)

/-! Memory. Effective addresses are `byteEa` and `wordEa` of the base register's value. -/

/-- The effective addresses wrap modulo 2^16 (D21): base plus offset, or plus twice the offset. `mld` issues a load of the
sign-extended byte, `mldw` of the little-endian word; the address uses the old value of the destination. That every address is
plain memory is the spec's own default (D26, log 12). -/
def Obligations.LoadRules : Prop :=
  ∀ (rd : Reg) (imm : BitVec 5) (base : Reg) (s : State) (lo hi : Byte),
    (byteEa (s.view base) imm).toNat = ((s.view base).toNat + imm.toNat) % 65536 ∧
    (wordEa (s.view base) imm).toNat = ((s.view base).toNat + 2 * imm.toNat) % 65536 ∧
    (rd ≠ .zr → destReady (.mld rd imm base) s = true → s.readByte (byteEa (s.view base) imm) = some lo →
      CompletesLoad (.mld rd imm base) rd (BitVec.ofInt 16 lo.toInt) s) ∧
    (rd ≠ .zr → destReady (.mldw rd imm base) s = true → (wordEa (s.view base) imm).toNat % 2 = 0 →
      s.readByte (wordEa (s.view base) imm) = some lo → s.readByte (wordEa (s.view base) imm + 1) = some hi →
      CompletesLoad (.mldw rd imm base) rd (BitVec.ofNat 16 (lo.toNat + 256 * hi.toNat)) s) ∧
    (destReady (.mld rd imm base) s = false → FaultsOnWrite (.mld rd imm base) rd s) ∧
    (destReady (.mldw rd imm base) s = false → FaultsOnWrite (.mldw rd imm base) rd s)

/-- `mst` stores the register's low byte and `mclr` zero, outside the code range; no other byte changes. That every address is
plain memory is the spec's own default (D26, log 12). -/
def Obligations.ByteStoreRules : Prop :=
  ∀ (rs : Reg) (imm : BitVec 5) (base : Reg) (s : State), outsideCode [byteEa (s.view base) imm] s = true →
    CompletesByteStore (.mst rs imm base) (byteEa (s.view base) imm) (BitVec.ofNat 8 (s.view rs).toNat) s ∧
    CompletesByteStore (.mclr imm base) (byteEa (s.view base) imm) 0 s

/-- `mstw` stores the register, low byte first, and `mclrw` zero, at an even address outside the code range; no other byte
changes. That every address is plain memory is the spec's own default (D26, log 12). -/
def Obligations.WordStoreRules : Prop :=
  ∀ (rs : Reg) (imm : BitVec 5) (base : Reg) (s : State), (wordEa (s.view base) imm).toNat % 2 = 0 →
    outsideCode [wordEa (s.view base) imm, wordEa (s.view base) imm + 1] s = true →
    CompletesWordStore (.mstw rs imm base) (wordEa (s.view base) imm) (s.view rs) s ∧
    CompletesWordStore (.mclrw imm base) (wordEa (s.view base) imm) 0 s

/-- `xch`, `xchw`: the register's old value goes to memory and the old memory value to the register, like a load; with zr they
store zero and change no register. That every address is plain memory is the spec's own default (D26, log 12). -/
def Obligations.ExchangeRules : Prop :=
  ∀ (rw : Reg) (imm : BitVec 5) (base : Reg) (s : State) (lo hi : Byte),
    (rw ≠ .zr → outsideCode [byteEa (s.view base) imm] s = true → s.readByte (byteEa (s.view base) imm) = some lo →
      ∃ t, exec (.xch rw imm base) s = .next t ∧ IssuesLoad (.xch rw imm base) rw (BitVec.ofInt 16 lo.toInt) s t ∧
        StoresByte (byteEa (s.view base) imm) (BitVec.ofNat 8 (s.view rw).toNat) s t ∧ t.fl = s.fl ∧ t.pc = s.pc + 2) ∧
    (rw ≠ .zr → (wordEa (s.view base) imm).toNat % 2 = 0 →
      outsideCode [wordEa (s.view base) imm, wordEa (s.view base) imm + 1] s = true →
      s.readByte (wordEa (s.view base) imm) = some lo → s.readByte (wordEa (s.view base) imm + 1) = some hi →
      ∃ t, exec (.xchw rw imm base) s = .next t ∧
        IssuesLoad (.xchw rw imm base) rw (BitVec.ofNat 16 (lo.toNat + 256 * hi.toNat)) s t ∧
        StoresWord (wordEa (s.view base) imm) (s.view rw) s t ∧ t.fl = s.fl ∧ t.pc = s.pc + 2) ∧
    (outsideCode [byteEa (s.view base) imm] s = true →
      CompletesByteStore (.xch .zr imm base) (byteEa (s.view base) imm) 0 s) ∧
    ((wordEa (s.view base) imm).toNat % 2 = 0 →
      outsideCode [wordEa (s.view base) imm, wordEa (s.view base) imm + 1] s = true →
      CompletesWordStore (.xchw .zr imm base) (wordEa (s.view base) imm) 0 s)

/-- A word access at an odd address raises `MisalignedAccess` with the effective address (D19, log 11), for `mldw` with a
destination other than zr that is ready. -/
def Obligations.OddWordAccessTraps : Prop :=
  ∀ (r : Reg) (imm : BitVec 5) (base : Reg) (s : State), (wordEa (s.view base) imm).toNat % 2 = 1 →
    exec (.mstw r imm base) s = .fault (.misalignedAccess (wordEa (s.view base) imm)) ∧
    exec (.mclrw imm base) s = .fault (.misalignedAccess (wordEa (s.view base) imm)) ∧
    exec (.xchw r imm base) s = .fault (.misalignedAccess (wordEa (s.view base) imm)) ∧
    (r ≠ .zr → destReady (.mldw r imm base) s = true →
      exec (.mldw r imm base) s = .fault (.misalignedAccess (wordEa (s.view base) imm)))

/-- A store or exchange that reaches a byte of the code range is refused by the first such byte (D28, log 18). That every
address is plain memory is the spec's own default (D26, log 12). -/
def Obligations.StoreIntoCodeRefused : Prop :=
  ∀ (r : Reg) (imm : BitVec 5) (base : Reg) (s : State),
    (inRanges s.code (byteEa (s.view base) imm) = true →
      exec (.mst r imm base) s = .refused (.storeIntoCode (byteEa (s.view base) imm)) ∧
      exec (.mclr imm base) s = .refused (.storeIntoCode (byteEa (s.view base) imm)) ∧
      exec (.xch r imm base) s = .refused (.storeIntoCode (byteEa (s.view base) imm))) ∧
    (∀ ea, ea = wordEa (s.view base) imm → ea.toNat % 2 = 0 →
      inRanges s.code ea = true ∨ inRanges s.code (ea + 1) = true →
      exec (.mstw r imm base) s = .refused (.storeIntoCode (if inRanges s.code ea then ea else ea + 1)) ∧
      exec (.mclrw imm base) s = .refused (.storeIntoCode (if inRanges s.code ea then ea else ea + 1)) ∧
      exec (.xchw r imm base) s = .refused (.storeIntoCode (if inRanges s.code ea then ea else ea + 1)))

/-- A load or exchange of a byte that has no value raises `UnsetRead` with the address of the first such byte (the spec's own
decision D25, log 5). That every address is plain memory is the spec's own default (D26, log 12). -/
def Obligations.UnsetByteStops : Prop :=
  ∀ (rd : Reg) (imm : BitVec 5) (base : Reg) (s : State), rd ≠ .zr →
    (s.readByte (byteEa (s.view base) imm) = none →
      (destReady (.mld rd imm base) s = true →
        exec (.mld rd imm base) s = .fault (.unsetRead (byteEa (s.view base) imm))) ∧
      (outsideCode [byteEa (s.view base) imm] s = true →
        exec (.xch rd imm base) s = .fault (.unsetRead (byteEa (s.view base) imm)))) ∧
    (∀ ea, ea = wordEa (s.view base) imm → ea.toNat % 2 = 0 → s.readByte ea = none ∨ s.readByte (ea + 1) = none →
      (destReady (.mldw rd imm base) s = true →
        exec (.mldw rd imm base) s = .fault (.unsetRead (if s.readByte ea = none then ea else ea + 1))) ∧
      (outsideCode [ea, ea + 1] s = true →
        exec (.xchw rd imm base) s = .fault (.unsetRead (if s.readByte ea = none then ea else ea + 1))))

/-- A word stored is read back as that word, and byte by byte as its sign-extended low and high halves, at the address and the
one after it. That the later load sees the store is the spec's own rule of program order (D20, log 14); that a store stays
outside the code range (D28, log 18) and that every address is plain memory (D26, log 12) are its own decisions too. -/
def Obligations.StoreThenLoad : Prop :=
  ∀ (rs rd : Reg) (k : BitVec 5) (base : Reg) (s : State),
    rd ≠ .zr → s.resolved rd = true → (wordEa (s.view base) k).toNat % 2 = 0 →
    outsideCode [wordEa (s.view base) k, wordEa (s.view base) k + 1] s = true →
    ∃ t, exec (.mstw rs k base) s = .next t ∧
      (∃ u, exec (.mldw rd k base) t = .next u ∧ u.view rd = s.view rs) ∧
      (k.toNat < 16 →
        (∃ u, exec (.mld rd (2 * k) base) t = .next u ∧
          u.view rd = BitVec.ofInt 16 (BitVec.ofNat 8 ((s.view rs).toNat % 256)).toInt) ∧
        (∃ u, exec (.mld rd (2 * k + 1) base) t = .next u ∧
          u.view rd = BitVec.ofInt 16 (BitVec.ofNat 8 ((s.view rs).toNat / 256)).toInt))

/-! Asynchronous registers. -/

/-- An instruction that reads a pending register does what it does once the load has arrived: the hold changes nothing (D22; that
the hold is no step of its own is the model's, log 7). -/
def Obligations.PendingReaderWaits : Prop :=
  ∀ (i : Instr) (s : State) (r : Reg), r ∈ sources i → exec i s = exec i (s.await r)

/-- The write fault is raised exactly by an instruction whose destination is pending and is not among its sources. -/
def Obligations.WriteFaultExactly : Prop :=
  ∀ (i : Instr) (s : State) (d : Reg),
    exec i s = .fault (.asyncWriteFault d) ↔ destination i = some d ∧ d ∉ sources i ∧ s.resolved d = false

/-- A load arrives by itself: in every run of `left` more steps it has been waited for by a reader, or the memory side's next turn
delivers its value (the fairness of D22; the bound `left` is the model's free value, log 8). -/
def Obligations.LoadArrivesInTime : Prop :=
  ∀ (s t : State) (r : Reg) (p : PendingLoad), (s.gpr r).load = some p → RunsTo p.left s t →
    (∃ j u i, j < p.left ∧ RunsTo j s u ∧ instructionAt u = some i ∧ r ∈ sources i) ∨
    t.memorySide.gpr r = { val := p.value, load := none }

/-! The whole machine. -/

/-- The invariant: memory in canonical form, no pending interrupt, hidden state as reset left it; every step keeps it. -/
def Obligations.InvariantKeptByStep : Prop :=
  ∀ s t : State, s.Inv → step s = .next t → t.Inv

/-- The state after reset meets the invariant. -/
def Obligations.InvariantAtReset : Prop := State.reset.Inv

/-- Only stores and exchanges change memory, and in no run does a byte of the code range change, nor the range. -/
def Obligations.CodeStaysConstant : Prop :=
  (∀ (i : Instr) (s t : State), exec i s = .next t → storesToMemory i = false → KeepsMemory s t) ∧
  (∀ (k : Nat) (s t : State), RunsTo k s t →
    t.code = s.code ∧ ∀ a, inRanges s.code a = true → t.readByte a = s.readByte a)

/-- Only the instructions of the spec's table write fl, and only `csrw` to fl changes its fourth bit. -/
def Obligations.FlagWriters : Prop :=
  ∀ (i : Instr) (s t : State), exec i s = .next t →
    (canWriteFlags i = false → t.fl = s.fl) ∧
    ((∀ rs, i ≠ .csrw rs Config.csrFl) → t.fl.u = s.fl.u)

/-- No instruction changes the interrupt return address, the hidden state, the mode or the code range; only `clri` and `csrw` to
pen change the pending interrupts, and they empty them. -/
def Obligations.SystemStateFrame : Prop :=
  ∀ (i : Instr) (s t : State), exec i s = .next t →
    t.ira = s.ira ∧ t.hidden = s.hidden ∧ t.mode = s.mode ∧ t.code = s.code ∧
    (t.pendingInterrupts = s.pendingInterrupts ∨
      (t.pendingInterrupts = [] ∧ (i = .clri ∨ ∃ rs, i = .csrw rs Config.csrPen)))

/-- Every fault of an instruction but the write fault (which is `WriteFaultExactly`) has the cause the spec names for it. The events
and where they are raised are the spec's own decisions: D17 (breakpoint, system call; log 15), D40 (`rfi`; log 15), D31 and D36 (`wfi`
with no interrupt pending stops because none can arrive; log 13), D18 (reserved words), D19 (odd word address; log 11), D25 (byte
without a value; log 5). That `wfi` takes one of the pending interrupts is log 16. -/
def Obligations.FaultsHaveTheirCause : Prop :=
  ∀ (i : Instr) (s : State) (f : Fault), exec i s = .fault f →
    (f = .breakpoint → i = .bkpt) ∧ (∀ n, f = .syscall n → i = .sysc n) ∧ (f = .returnFromInterrupt → i = .rfi) ∧
    (f = .waitForInterrupt → i = .wfi ∧ s.pendingInterrupts = []) ∧
    (∀ src, f = .interrupt src → i = .wfi ∧ src ∈ s.pendingInterrupts) ∧
    (∀ w, f = .reservedInstruction w → isReserved i = true ∧ w = encode i) ∧
    (∀ a, f = .misalignedAccess a → a.toNat % 2 = 1 ∧ ∃ r imm base, a = wordEa (s.view base) imm ∧
      i.core ∈ ([.mldw r imm base, .mstw r imm base, .xchw r imm base] : List Instr)) ∧
    (∀ a, f = .unsetRead a → s.readByte a = none ∧ ∃ r imm base, r ≠ .zr ∧
      i ∈ ([.mld r imm base, .mldw r imm base, .xch r imm base, .xchw r imm base] : List Instr))

/-- The state after reset: what the spec says of it (r0, no load pending, no byte with a value, no pending interrupt, hidden state
empty), all of it but r0 the spec's own decision (D25), and the values the model names where the spec gives none: zero in every
register, flag and in ira, pc at 0x0000 (log 1 to 4). -/
def Obligations.ResetState : Prop :=
  (∀ r, State.reset.resolved r = true) ∧ (∀ a, State.reset.readByte a = none) ∧ State.reset.pendingInterrupts = [] ∧
  State.reset.hidden = { tlb := [], prefetched := [], flushArmed := false } ∧ State.reset.mode = .single ∧
  (∀ r, State.reset.view r = 0) ∧ State.reset.fl = { c := false, s := false, z := false, u := false } ∧
  State.reset.ira = 0 ∧ State.reset.pc = 0 ∧ State.reset.code = []

/-- Loading an image gives its bytes their values and puts exactly them into the code range; reserved space gets neither; and a
`u16` or `i16` directive's value is read back by `mldw` (little-endian, two's complement: the spec's own choice D29, log 26; every
address is plain memory: its own default D26, log 12). -/
def Obligations.LoadedImage : Prop :=
  (∀ (bytes : List (Option Byte)) (a : Word) (s : State), bytes.length ≤ 65536 →
    (∀ (k : Nat) (b : Byte), bytes[k]? = some (some b) →
      (s.loadImage a bytes).readByte (a + BitVec.ofNat 16 k) = some b ∧
      inRanges (s.loadImage a bytes).code (a + BitVec.ofNat 16 k) = true) ∧
    (∀ x : Word, (∀ (k : Nat) (b : Byte), bytes[k]? = some (some b) → x ≠ a + BitVec.ofNat 16 k) →
      (s.loadImage a bytes).readByte x = s.readByte x ∧
      inRanges (s.loadImage a bytes).code x = inRanges s.code x) ∧
    (∀ r, (s.loadImage a bytes).gpr r = s.gpr r) ∧ (s.loadImage a bytes).pc = s.pc) ∧
  (∀ (ty : DataType) (v : Int) (rd base : Reg) (s : State), ty = .u16 ∨ ty = .i16 → ty.holds v = true →
    rd ≠ .zr → s.resolved rd = true → (s.view base).toNat % 2 = 0 →
    ∃ t, exec (.mldw rd 0 base) (s.loadImage (s.view base) (Directive.value ty v).emit) = .next t ∧
      if ty = .u16 then (t.view rd).toNat = v else (t.view rd).toInt = v)

/-! The special words. -/

/-- The special words: which words decode to the nine starred instructions and to the two rows without a name, and that each is
spelled as, and lies inside the space of, a base instruction: `add`, `addi`, `jmpd`, `jmpdl` with register zr and the field F. -/
def Obligations.SpecialWords : Prop :=
  (∀ (w : Word) (n : BitVec 8),
    (decode w = .bkpt ↔ w = 0x0000) ∧ (decode w = .nop ↔ w = 0x0800) ∧ (decode w = .sysc n ↔ w = 0xB0#8 ++ n) ∧
    (decode w = .fence ↔ w = 0xB801) ∧ (decode w = .ftlb ↔ w = 0xB802) ∧ (decode w = .rfi ↔ w = 0xB804) ∧
    (decode w = .wfi ↔ w = 0xB808) ∧ (decode w = .scf ↔ w = 0xB810) ∧ (decode w = .rscf ↔ w = 0xB820) ∧
    (decode w = .reservedJmpdl064 ↔ w = 0xB840) ∧ (decode w = .reservedJmpdl0128 ↔ w = 0xB880)) ∧
  encode (.add .zr .zr .zr) = 0x0000 ∧ encode (.addi .zr 0) = 0x0800 ∧
  ∀ n : BitVec 8, encode (.reservedJmpdFlags .zr n) = 0xB0#8 ++ n ∧ encode (.reservedJmpdlFlags .zr n) = 0xB8#8 ++ n

/-! The configuration (spec/00_scope.md R8). -/

/-- The machine with its parameters as an argument is the machine of this model at the parameters of Config.lean, and other values
act: `RESET_PC` on the reset state; `MEM_ORDER` on nothing (log 14); `INTERRUPTS` on `wfi` with no interrupt pending, which holds or
stops (log 16), and on the step, which an arriving interrupt ends (log 13); `SUB_CARRY` on the carry of a difference alone;
`REL_BASE` on the base of a relative transfer, not on its link value (log 10). -/
def Obligations.ConfiguredMachine : Prop :=
  (∀ (i : Instr) (s : State), execWith Config.params i s = exec i s ∧ stepWith Config.params s = step s) ∧
  State.resetWith Config.params = State.reset ∧
  ∀ (p : Config.Params) (s : State),
    (State.resetWith p).pc = p.resetPc ++ 0#1 ∧
    (∀ m, stepWith { p with memOrder := m } s = stepWith p s) ∧
    (s.pendingInterrupts = [] →
      execWith { p with interrupts := .any } .wfi s = .next s ∧
      execWith { p with interrupts := .never } .wfi s = .fault .waitForInterrupt) ∧
    stepWith { p with interrupts := .any } s =
      (match Config.interruptOracle s.draws with
      | some src => .fault (.interrupt src)
      | none => fetch p.ifetchOrder p.mmio s.memorySide fun w =>
          execWith { p with interrupts := .any } (decode w) s.memorySide) ∧
    stepWith { p with interrupts := .never } s =
      (fetch p.ifetchOrder p.mmio s.memorySide fun w =>
        execWith { p with interrupts := .never } (decode w) s.memorySide) ∧
    (∀ (rd rs1 rs2 : Reg) (imm : BitVec 8),
      ∀ i ∈ ([.sub rd rs1 rs2, .subb rd rs1 rs2, .neg rd rs2, .cmp rs1 rs2, .cmpi rs1 imm] : List Instr),
      ∀ t, execWith { p with subCarry := .notBorrow } i s = .next t →
        execWith { p with subCarry := .borrow } i s = .next (t.setFl { t.fl with c := !t.fl.c })) ∧
    (∀ imm, execWith { p with relBase := .current } (.jmpr imm) s =
      .next (s.setPc (s.pc + BitVec.ofInt 16 (2 * imm.toInt)))) ∧
    (∀ imm, s.resolved .rp = true → execWith { p with relBase := .current } (.jmprl imm) s =
      .next ((s.setReg .rp (s.pc + 2)).setPc (s.pc + BitVec.ofInt 16 (2 * imm.toInt)))) ∧
    (∀ cond imm, execWith { p with relBase := .current } (.brh cond imm) s =
      .next (if condHolds cond s.fl then s.setPc (s.pc + BitVec.ofInt 16 (2 * imm.toInt)) else s.advance))
end

