-- ==== Sys2Proof/Laws/Configured.lean ====
section
/-! SUPPORT. What the configuration argument does: at the parameters of Config.lean it gives the machine itself, and each
parameter acts on the instructions that name it. -/

namespace Sys2Proof.Machine

/-- At the parameters of Config.lean, `execWith` is `exec`. -/
theorem execWith_params (i : Instr) (s : State) : execWith Config.params i s = exec i s := by
  cases i <;> rfl

/-- At the parameters of Config.lean, `stepWith` is `step`. -/
theorem stepWith_params (s : State) : stepWith Config.params s = step s := by
  unfold stepWith step
  rw [funext fun i => funext fun t => execWith_params i t]
  rfl

/-- At the parameters of Config.lean, the reset state is `State.reset`. -/
theorem resetWith_params : State.resetWith Config.params = State.reset := rfl

/-- Under every configuration an alias has the word of its base instruction, which is no alias (spec/30_encoding.md R111). -/
theorem encodeWith_coreWith (n : Config.CsrNumbers) (i : Instr) :
    encodeWith n i = encode (i.coreWith n) ∧ (i.coreWith n).isAlias = false := by
  cases i <;> exact ⟨rfl, rfl⟩

/-- Under every configuration an alias does what the base instruction of its word does (R111). -/
theorem execWith_coreWith (p : Config.Params) (i : Instr) (s : State) :
    execWith p i s = execWith p (i.coreWith p.csr) s := by
  cases i <;> rfl

/-- `MEM_ORDER` acts on no instruction (spec/20_memory.md R67 (d); log 14). -/
theorem execWith_memOrder (p : Config.Params) (m : Config.MemOrder) (i : Instr) (s : State) :
    execWith { p with memOrder := m } i s = execWith p i s := by
  cases i <;> rfl

/-- `MEM_ORDER` acts on no step. -/
theorem stepWith_memOrder (p : Config.Params) (m : Config.MemOrder) (s : State) :
    stepWith { p with memOrder := m } s = stepWith p s := by
  unfold stepWith
  rw [funext fun i => funext fun t => execWith_memOrder p m i t]

/-- A `wfi` with no interrupt pending holds when one can arrive (spec/46_system.md R244). -/
theorem wfiOp_any (s : State) (h : s.pendingInterrupts = []) : wfiOp .any s = .next s := by
  rw [wfiOp, h]

/-- A `wfi` with no interrupt pending ends the run when none can arrive (spec/46_system.md R244). -/
theorem wfiOp_never (s : State) (h : s.pendingInterrupts = []) : wfiOp .never s = .fault .waitForInterrupt := by
  rw [wfiOp, h, raise]

/-- The carry of a difference under `SUB_CARRY = borrow` is that under `not_borrow`, inverted (spec/40_arithmetic.md R132). -/
theorem subC_borrow (a b : Word) (k : Bool) :
    subC .borrow a b k = ((subC .notBorrow a b k).1, !(subC .notBorrow a b k).2) := by
  rfl

end Sys2Proof.Machine
end

