-- ==== Sys2Proof/Laws/Decode.lean ====
section
/-! SUPPORT. The fields of each format, and each format from its fields (spec/30_encoding.md R90, R91). -/

namespace Sys2Proof

@[simp] theorem Reg.ofBits_toBits (r : Reg) : Reg.ofBits r.toBits = r := by cases r <;> rfl

@[simp] theorem Reg.toBits_ofBits (b : BitVec 3) : (Reg.ofBits b).toBits = b := by
  revert b
  decide

theorem Reg.ofBits_eq_zr (b : BitVec 3) : Reg.ofBits b = .zr ↔ b = 0 := by
  revert b
  decide

@[simp] theorem Cond.ofBits_toBits (cond : Cond) : Cond.ofBits cond.toBits = some cond := by cases cond <;> rfl

theorem Cond.toBits_of_ofBits (b : BitVec 3) (cond : Cond) (h : Cond.ofBits b = some cond) : cond.toBits = b := by
  revert b
  cases cond <;> decide

/-- The reserved conditions are those with 11 in the low bits (spec/45_jump_branch.md R227). -/
theorem Cond.ofBits_eq_none (b : BitVec 3) : Cond.ofBits b = none ↔ b = 0b011 ∨ b = 0b111 := by
  revert b
  decide

/-! The number a format makes. -/

theorem toNat_append (n m : Nat) (a : BitVec n) (b : BitVec m) : (a ++ b).toNat = a.toNat * 2 ^ m + b.toNat := by
  rw [BitVec.toNat_append, Nat.shiftLeft_eq, Nat.mul_comm, ← Nat.two_pow_add_eq_or_of_lt b.isLt, Nat.mul_comm]

theorem formatRRR_toNat (op : BitVec 5) (fn : BitVec 2) (a b c : Reg) :
    (formatRRR op fn a b c).toNat =
      op.toNat * 2048 + a.toBits.toNat * 256 + fn.toNat * 64 + b.toBits.toNat * 8 + c.toBits.toNat := by
  change (op ++ a.toBits ++ fn ++ b.toBits ++ c.toBits).toNat = _
  simp only [toNat_append]
  omega

theorem formatCSR_toNat (op : BitVec 5) (fn : BitVec 2) (a : Reg) (k : BitVec 6) :
    (formatCSR op fn a k).toNat = op.toNat * 2048 + a.toBits.toNat * 256 + fn.toNat * 64 + k.toNat := by
  change (op ++ a.toBits ++ fn ++ k).toNat = _
  simp only [toNat_append]
  omega

theorem formatRI_toNat (op : BitVec 5) (a : BitVec 3) (imm : BitVec 8) :
    (formatRI op a imm).toNat = op.toNat * 2048 + a.toNat * 256 + imm.toNat := by
  change (op ++ a ++ imm).toNat = _
  simp only [toNat_append]
  omega

theorem formatSHI_toNat (op : BitVec 5) (dir : BitVec 1) (a : Reg) (amt : BitVec 4) (c : Reg) :
    (formatSHI op dir a amt c).toNat =
      op.toNat * 2048 + a.toBits.toNat * 256 + dir.toNat * 128 + amt.toNat * 8 + c.toBits.toNat := by
  change (op ++ a.toBits ++ dir ++ amt ++ c.toBits).toNat = _
  simp only [toNat_append]
  omega

theorem formatJ_toNat (op : BitVec 5) (imm : BitVec 11) : (formatJ op imm).toNat = op.toNat * 2048 + imm.toNat := by
  change (op ++ imm).toNat = _
  simp only [toNat_append]
  omega

theorem formatMEM_toNat (op : BitVec 5) (a : Reg) (imm : BitVec 5) (c : Reg) :
    (formatMEM op a imm c).toNat = op.toNat * 2048 + a.toBits.toNat * 256 + imm.toNat * 8 + c.toBits.toNat := by
  change (op ++ a.toBits ++ imm ++ c.toBits).toNat = _
  simp only [toNat_append]
  omega

/-! The number a field reads. -/

theorem fieldOp_toNat (w : Word) : (fieldOp w).toNat = w.toNat / 2048 % 32 := by
  simp [fieldOp, BitVec.extractLsb'_toNat, Nat.shiftRight_eq_div_pow]
theorem fieldA_toNat (w : Word) : (fieldA w).toNat = w.toNat / 256 % 8 := by
  simp [fieldA, BitVec.extractLsb'_toNat, Nat.shiftRight_eq_div_pow]
theorem fieldFn_toNat (w : Word) : (fieldFn w).toNat = w.toNat / 64 % 4 := by
  simp [fieldFn, BitVec.extractLsb'_toNat, Nat.shiftRight_eq_div_pow]
theorem fieldB_toNat (w : Word) : (fieldB w).toNat = w.toNat / 8 % 8 := by
  simp [fieldB, BitVec.extractLsb'_toNat, Nat.shiftRight_eq_div_pow]
theorem fieldC_toNat (w : Word) : (fieldC w).toNat = w.toNat % 8 := by
  simp [fieldC, BitVec.extractLsb'_toNat, Nat.shiftRight_eq_div_pow]
theorem fieldImm8_toNat (w : Word) : (fieldImm8 w).toNat = w.toNat % 256 := by
  simp [fieldImm8, BitVec.extractLsb'_toNat, Nat.shiftRight_eq_div_pow]
theorem fieldImm11_toNat (w : Word) : (fieldImm11 w).toNat = w.toNat % 2048 := by
  simp [fieldImm11, BitVec.extractLsb'_toNat, Nat.shiftRight_eq_div_pow]
theorem fieldImm5_toNat (w : Word) : (fieldImm5 w).toNat = w.toNat / 8 % 32 := by
  simp [fieldImm5, BitVec.extractLsb'_toNat, Nat.shiftRight_eq_div_pow]
theorem fieldCsr_toNat (w : Word) : (fieldCsr w).toNat = w.toNat % 64 := by
  simp [fieldCsr, BitVec.extractLsb'_toNat, Nat.shiftRight_eq_div_pow]
theorem fieldDir_toNat (w : Word) : (fieldDir w).toNat = w.toNat / 128 % 2 := by
  simp [fieldDir, BitVec.extractLsb'_toNat, Nat.shiftRight_eq_div_pow]
theorem fieldAmt_toNat (w : Word) : (fieldAmt w).toNat = w.toNat / 8 % 16 := by
  simp [fieldAmt, BitVec.extractLsb'_toNat, Nat.shiftRight_eq_div_pow]

/-! The fields of each format. -/

section RRR
variable (op : BitVec 5) (fn : BitVec 2) (a b c : Reg)
@[simp] theorem fieldOp_formatRRR : fieldOp (formatRRR op fn a b c) = op := by
  apply BitVec.eq_of_toNat_eq; rw [fieldOp_toNat, formatRRR_toNat]; omega
@[simp] theorem fieldFn_formatRRR : fieldFn (formatRRR op fn a b c) = fn := by
  apply BitVec.eq_of_toNat_eq; rw [fieldFn_toNat, formatRRR_toNat]; omega
@[simp] theorem regA_formatRRR : regA (formatRRR op fn a b c) = a := by
  rw [regA, ← Reg.ofBits_toBits a]; congr 1
  apply BitVec.eq_of_toNat_eq; rw [fieldA_toNat, formatRRR_toNat]; simp only [Reg.ofBits_toBits]; omega
@[simp] theorem regB_formatRRR : regB (formatRRR op fn a b c) = b := by
  rw [regB, ← Reg.ofBits_toBits b]; congr 1
  apply BitVec.eq_of_toNat_eq; rw [fieldB_toNat, formatRRR_toNat]; simp only [Reg.ofBits_toBits]; omega
@[simp] theorem regC_formatRRR : regC (formatRRR op fn a b c) = c := by
  rw [regC, ← Reg.ofBits_toBits c]; congr 1
  apply BitVec.eq_of_toNat_eq; rw [fieldC_toNat, formatRRR_toNat]; simp only [Reg.ofBits_toBits]; omega
end RRR

section CSR
variable (op : BitVec 5) (fn : BitVec 2) (a : Reg) (k : BitVec 6)
@[simp] theorem fieldOp_formatCSR : fieldOp (formatCSR op fn a k) = op := by
  apply BitVec.eq_of_toNat_eq; rw [fieldOp_toNat, formatCSR_toNat]; omega
@[simp] theorem fieldFn_formatCSR : fieldFn (formatCSR op fn a k) = fn := by
  apply BitVec.eq_of_toNat_eq; rw [fieldFn_toNat, formatCSR_toNat]; omega
@[simp] theorem regA_formatCSR : regA (formatCSR op fn a k) = a := by
  rw [regA, ← Reg.ofBits_toBits a]; congr 1
  apply BitVec.eq_of_toNat_eq; rw [fieldA_toNat, formatCSR_toNat]; simp only [Reg.ofBits_toBits]; omega
@[simp] theorem fieldCsr_formatCSR : fieldCsr (formatCSR op fn a k) = k := by
  apply BitVec.eq_of_toNat_eq; rw [fieldCsr_toNat, formatCSR_toNat]; omega
end CSR

section RI
variable (op : BitVec 5) (a : BitVec 3) (imm : BitVec 8)
@[simp] theorem fieldOp_formatRI : fieldOp (formatRI op a imm) = op := by
  apply BitVec.eq_of_toNat_eq; rw [fieldOp_toNat, formatRI_toNat]; omega
@[simp] theorem fieldA_formatRI : fieldA (formatRI op a imm) = a := by
  apply BitVec.eq_of_toNat_eq; rw [fieldA_toNat, formatRI_toNat]; omega
@[simp] theorem regA_formatRI : regA (formatRI op a imm) = Reg.ofBits a := by rw [regA, fieldA_formatRI]
@[simp] theorem fieldImm8_formatRI : fieldImm8 (formatRI op a imm) = imm := by
  apply BitVec.eq_of_toNat_eq; rw [fieldImm8_toNat, formatRI_toNat]; omega
end RI

section SHI
variable (op : BitVec 5) (dir : BitVec 1) (a : Reg) (amt : BitVec 4) (c : Reg)
@[simp] theorem fieldOp_formatSHI : fieldOp (formatSHI op dir a amt c) = op := by
  apply BitVec.eq_of_toNat_eq; rw [fieldOp_toNat, formatSHI_toNat]; omega
@[simp] theorem fieldDir_formatSHI : fieldDir (formatSHI op dir a amt c) = dir := by
  apply BitVec.eq_of_toNat_eq; rw [fieldDir_toNat, formatSHI_toNat]; omega
@[simp] theorem regA_formatSHI : regA (formatSHI op dir a amt c) = a := by
  rw [regA, ← Reg.ofBits_toBits a]; congr 1
  apply BitVec.eq_of_toNat_eq; rw [fieldA_toNat, formatSHI_toNat]; simp only [Reg.ofBits_toBits]; omega
@[simp] theorem fieldAmt_formatSHI : fieldAmt (formatSHI op dir a amt c) = amt := by
  apply BitVec.eq_of_toNat_eq; rw [fieldAmt_toNat, formatSHI_toNat]; omega
@[simp] theorem regC_formatSHI : regC (formatSHI op dir a amt c) = c := by
  rw [regC, ← Reg.ofBits_toBits c]; congr 1
  apply BitVec.eq_of_toNat_eq; rw [fieldC_toNat, formatSHI_toNat]; simp only [Reg.ofBits_toBits]; omega
end SHI

section J
variable (op : BitVec 5) (imm : BitVec 11)
@[simp] theorem fieldOp_formatJ : fieldOp (formatJ op imm) = op := by
  apply BitVec.eq_of_toNat_eq; rw [fieldOp_toNat, formatJ_toNat]; omega
@[simp] theorem fieldImm11_formatJ : fieldImm11 (formatJ op imm) = imm := by
  apply BitVec.eq_of_toNat_eq; rw [fieldImm11_toNat, formatJ_toNat]; omega
end J

section MEM
variable (op : BitVec 5) (a : Reg) (imm : BitVec 5) (c : Reg)
@[simp] theorem fieldOp_formatMEM : fieldOp (formatMEM op a imm c) = op := by
  apply BitVec.eq_of_toNat_eq; rw [fieldOp_toNat, formatMEM_toNat]; omega
@[simp] theorem regA_formatMEM : regA (formatMEM op a imm c) = a := by
  rw [regA, ← Reg.ofBits_toBits a]; congr 1
  apply BitVec.eq_of_toNat_eq; rw [fieldA_toNat, formatMEM_toNat]; simp only [Reg.ofBits_toBits]; omega
@[simp] theorem fieldImm5_formatMEM : fieldImm5 (formatMEM op a imm c) = imm := by
  apply BitVec.eq_of_toNat_eq; rw [fieldImm5_toNat, formatMEM_toNat]; omega
@[simp] theorem regC_formatMEM : regC (formatMEM op a imm c) = c := by
  rw [regC, ← Reg.ofBits_toBits c]; congr 1
  apply BitVec.eq_of_toNat_eq; rw [fieldC_toNat, formatMEM_toNat]; simp only [Reg.ofBits_toBits]; omega
end MEM

/-! No word of another opcode is `bkpt` or `nop`. -/

theorem ne_bkpt_of_op {w : Word} (h : fieldOp w ≠ 0#5) : w ≠ 0#16 := fun hw => h (by rw [hw]; rfl)
theorem ne_nop_of_op {w : Word} (h : fieldOp w ≠ 1#5) : w ≠ 2048#16 := fun hw => h (by rw [hw]; rfl)

@[simp] theorem formatRRR_ne_bkpt {op : BitVec 5} (fn : BitVec 2) (a b c : Reg) (h : op ≠ 0#5) : formatRRR op fn a b c ≠ 0#16 := ne_bkpt_of_op (by simpa using h)
@[simp] theorem formatRRR_ne_nop {op : BitVec 5} (fn : BitVec 2) (a b c : Reg) (h : op ≠ 1#5) : formatRRR op fn a b c ≠ 2048#16 := ne_nop_of_op (by simpa using h)
@[simp] theorem formatCSR_ne_bkpt {op : BitVec 5} (fn : BitVec 2) (a : Reg) (k : BitVec 6) (h : op ≠ 0#5) : formatCSR op fn a k ≠ 0#16 := ne_bkpt_of_op (by simpa using h)
@[simp] theorem formatCSR_ne_nop {op : BitVec 5} (fn : BitVec 2) (a : Reg) (k : BitVec 6) (h : op ≠ 1#5) : formatCSR op fn a k ≠ 2048#16 := ne_nop_of_op (by simpa using h)
@[simp] theorem formatRI_ne_bkpt {op : BitVec 5} (a : BitVec 3) (imm : BitVec 8) (h : op ≠ 0#5) : formatRI op a imm ≠ 0#16 := ne_bkpt_of_op (by simpa using h)
@[simp] theorem formatRI_ne_nop {op : BitVec 5} (a : BitVec 3) (imm : BitVec 8) (h : op ≠ 1#5) : formatRI op a imm ≠ 2048#16 := ne_nop_of_op (by simpa using h)
@[simp] theorem formatSHI_ne_bkpt {op : BitVec 5} (dir : BitVec 1) (a : Reg) (amt : BitVec 4) (c : Reg) (h : op ≠ 0#5) : formatSHI op dir a amt c ≠ 0#16 := ne_bkpt_of_op (by simpa using h)
@[simp] theorem formatSHI_ne_nop {op : BitVec 5} (dir : BitVec 1) (a : Reg) (amt : BitVec 4) (c : Reg) (h : op ≠ 1#5) : formatSHI op dir a amt c ≠ 2048#16 := ne_nop_of_op (by simpa using h)
@[simp] theorem formatJ_ne_bkpt {op : BitVec 5} (imm : BitVec 11) (h : op ≠ 0#5) : formatJ op imm ≠ 0#16 := ne_bkpt_of_op (by simpa using h)
@[simp] theorem formatJ_ne_nop {op : BitVec 5} (imm : BitVec 11) (h : op ≠ 1#5) : formatJ op imm ≠ 2048#16 := ne_nop_of_op (by simpa using h)
@[simp] theorem formatMEM_ne_bkpt {op : BitVec 5} (a : Reg) (imm : BitVec 5) (c : Reg) (h : op ≠ 0#5) : formatMEM op a imm c ≠ 0#16 := ne_bkpt_of_op (by simpa using h)
@[simp] theorem formatMEM_ne_nop {op : BitVec 5} (a : Reg) (imm : BitVec 5) (c : Reg) (h : op ≠ 1#5) : formatMEM op a imm c ≠ 2048#16 := ne_nop_of_op (by simpa using h)

/-! A word from its fields. -/

theorem formatRRR_fields (w : Word) : formatRRR (fieldOp w) (fieldFn w) (regA w) (regB w) (regC w) = w := by
  apply BitVec.eq_of_toNat_eq
  simp only [formatRRR_toNat, regA, regB, regC, Reg.toBits_ofBits, fieldOp_toNat, fieldFn_toNat, fieldA_toNat,
    fieldB_toNat, fieldC_toNat]
  omega

theorem formatCSR_fields (w : Word) : formatCSR (fieldOp w) (fieldFn w) (regA w) (fieldCsr w) = w := by
  apply BitVec.eq_of_toNat_eq
  simp only [formatCSR_toNat, regA, Reg.toBits_ofBits, fieldOp_toNat, fieldFn_toNat, fieldA_toNat, fieldCsr_toNat]
  omega

theorem formatRI_fields (w : Word) : formatRI (fieldOp w) (fieldA w) (fieldImm8 w) = w := by
  apply BitVec.eq_of_toNat_eq
  simp only [formatRI_toNat, fieldOp_toNat, fieldA_toNat, fieldImm8_toNat]
  omega

theorem formatSHI_fields (w : Word) : formatSHI (fieldOp w) (fieldDir w) (regA w) (fieldAmt w) (regC w) = w := by
  apply BitVec.eq_of_toNat_eq
  simp only [formatSHI_toNat, regA, regC, Reg.toBits_ofBits, fieldOp_toNat, fieldDir_toNat, fieldA_toNat,
    fieldAmt_toNat, fieldC_toNat]
  omega

theorem formatJ_fields (w : Word) : formatJ (fieldOp w) (fieldImm11 w) = w := by
  apply BitVec.eq_of_toNat_eq
  simp only [formatJ_toNat, fieldOp_toNat, fieldImm11_toNat]
  omega

theorem formatMEM_fields (w : Word) : formatMEM (fieldOp w) (regA w) (fieldImm5 w) (regC w) = w := by
  apply BitVec.eq_of_toNat_eq
  simp only [formatMEM_toNat, regA, regC, Reg.toBits_ofBits, fieldOp_toNat, fieldA_toNat, fieldImm5_toNat, fieldC_toNat]
  omega

end Sys2Proof
end

