-- ==== Sys2Proof/Laws/State.lean ====
section
/-! SUPPORT. The fields of State after each update, one lemma per field per update, and the views of State (registers, pc, bytes)
that an update leaves alone. -/

namespace Sys2Proof.Machine

variable (s : State)

/-! `setGpr`. -/

@[simp] theorem setGpr_gprs (r : Reg) (g : Gpr) : (s.setGpr r g).gprs = s.gprs.set r g := rfl
@[simp] theorem setGpr_ip (r : Reg) (g : Gpr) : (s.setGpr r g).ip = s.ip := rfl
@[simp] theorem setGpr_fl (r : Reg) (g : Gpr) : (s.setGpr r g).fl = s.fl := rfl
@[simp] theorem setGpr_mem (r : Reg) (g : Gpr) : (s.setGpr r g).mem = s.mem := rfl
@[simp] theorem setGpr_ira (r : Reg) (g : Gpr) : (s.setGpr r g).ira = s.ira := rfl
@[simp] theorem setGpr_pendingInterrupts (r : Reg) (g : Gpr) : (s.setGpr r g).pendingInterrupts = s.pendingInterrupts := rfl
@[simp] theorem setGpr_hidden (r : Reg) (g : Gpr) : (s.setGpr r g).hidden = s.hidden := rfl
@[simp] theorem setGpr_mode (r : Reg) (g : Gpr) : (s.setGpr r g).mode = s.mode := rfl
@[simp] theorem setGpr_code (r : Reg) (g : Gpr) : (s.setGpr r g).code = s.code := rfl
@[simp] theorem setGpr_draws (r : Reg) (g : Gpr) : (s.setGpr r g).draws = s.draws := rfl
@[simp] theorem pc_setGpr (r : Reg) (g : Gpr) : (s.setGpr r g).pc = s.pc := rfl
@[simp] theorem npc_setGpr (r : Reg) (g : Gpr) : (s.setGpr r g).npc = s.npc := rfl
@[simp] theorem readByte_setGpr (r : Reg) (g : Gpr) (a' : Word) : (s.setGpr r g).readByte a' = s.readByte a' := rfl

/-! `setReg`. -/

@[simp] theorem setReg_gprs (r : Reg) (v : Word) : (s.setReg r v).gprs = s.gprs.set r { val := v, load := none } := rfl
@[simp] theorem setReg_ip (r : Reg) (v : Word) : (s.setReg r v).ip = s.ip := rfl
@[simp] theorem setReg_fl (r : Reg) (v : Word) : (s.setReg r v).fl = s.fl := rfl
@[simp] theorem setReg_mem (r : Reg) (v : Word) : (s.setReg r v).mem = s.mem := rfl
@[simp] theorem setReg_ira (r : Reg) (v : Word) : (s.setReg r v).ira = s.ira := rfl
@[simp] theorem setReg_pendingInterrupts (r : Reg) (v : Word) : (s.setReg r v).pendingInterrupts = s.pendingInterrupts := rfl
@[simp] theorem setReg_hidden (r : Reg) (v : Word) : (s.setReg r v).hidden = s.hidden := rfl
@[simp] theorem setReg_mode (r : Reg) (v : Word) : (s.setReg r v).mode = s.mode := rfl
@[simp] theorem setReg_code (r : Reg) (v : Word) : (s.setReg r v).code = s.code := rfl
@[simp] theorem setReg_draws (r : Reg) (v : Word) : (s.setReg r v).draws = s.draws := rfl
@[simp] theorem pc_setReg (r : Reg) (v : Word) : (s.setReg r v).pc = s.pc := rfl
@[simp] theorem npc_setReg (r : Reg) (v : Word) : (s.setReg r v).npc = s.npc := rfl
@[simp] theorem readByte_setReg (r : Reg) (v : Word) (a' : Word) : (s.setReg r v).readByte a' = s.readByte a' := rfl

/-! `await`. -/

@[simp] theorem await_gprs (r : Reg) : (s.await r).gprs = s.gprs.set r (s.gprs.get r).resolve := rfl
@[simp] theorem await_ip (r : Reg) : (s.await r).ip = s.ip := rfl
@[simp] theorem await_fl (r : Reg) : (s.await r).fl = s.fl := rfl
@[simp] theorem await_mem (r : Reg) : (s.await r).mem = s.mem := rfl
@[simp] theorem await_ira (r : Reg) : (s.await r).ira = s.ira := rfl
@[simp] theorem await_pendingInterrupts (r : Reg) : (s.await r).pendingInterrupts = s.pendingInterrupts := rfl
@[simp] theorem await_hidden (r : Reg) : (s.await r).hidden = s.hidden := rfl
@[simp] theorem await_mode (r : Reg) : (s.await r).mode = s.mode := rfl
@[simp] theorem await_code (r : Reg) : (s.await r).code = s.code := rfl
@[simp] theorem await_draws (r : Reg) : (s.await r).draws = s.draws := rfl
@[simp] theorem pc_await (r : Reg) : (s.await r).pc = s.pc := rfl
@[simp] theorem npc_await (r : Reg) : (s.await r).npc = s.npc := rfl
@[simp] theorem readByte_await (r : Reg) (a' : Word) : (s.await r).readByte a' = s.readByte a' := rfl

/-! `awaitAll`. -/

@[simp] theorem awaitAll_gprs : (s.awaitAll).gprs = s.gprs.map Gpr.resolve := rfl
@[simp] theorem awaitAll_ip : (s.awaitAll).ip = s.ip := rfl
@[simp] theorem awaitAll_fl : (s.awaitAll).fl = s.fl := rfl
@[simp] theorem awaitAll_mem : (s.awaitAll).mem = s.mem := rfl
@[simp] theorem awaitAll_ira : (s.awaitAll).ira = s.ira := rfl
@[simp] theorem awaitAll_pendingInterrupts : (s.awaitAll).pendingInterrupts = s.pendingInterrupts := rfl
@[simp] theorem awaitAll_hidden : (s.awaitAll).hidden = s.hidden := rfl
@[simp] theorem awaitAll_mode : (s.awaitAll).mode = s.mode := rfl
@[simp] theorem awaitAll_code : (s.awaitAll).code = s.code := rfl
@[simp] theorem awaitAll_draws : (s.awaitAll).draws = s.draws := rfl
@[simp] theorem pc_awaitAll : (s.awaitAll).pc = s.pc := rfl
@[simp] theorem npc_awaitAll : (s.awaitAll).npc = s.npc := rfl
@[simp] theorem readByte_awaitAll (a' : Word) : (s.awaitAll).readByte a' = s.readByte a' := rfl

/-! `issueLoad`. -/

@[simp] theorem issueLoad_gprs (r : Reg) (v : Word) : (s.issueLoad r v).gprs = s.gprs.set r { s.gpr r with load := some { value := v, left := Config.loadLatency s.draws } } := rfl
@[simp] theorem issueLoad_ip (r : Reg) (v : Word) : (s.issueLoad r v).ip = s.ip := rfl
@[simp] theorem issueLoad_fl (r : Reg) (v : Word) : (s.issueLoad r v).fl = s.fl := rfl
@[simp] theorem issueLoad_mem (r : Reg) (v : Word) : (s.issueLoad r v).mem = s.mem := rfl
@[simp] theorem issueLoad_ira (r : Reg) (v : Word) : (s.issueLoad r v).ira = s.ira := rfl
@[simp] theorem issueLoad_pendingInterrupts (r : Reg) (v : Word) : (s.issueLoad r v).pendingInterrupts = s.pendingInterrupts := rfl
@[simp] theorem issueLoad_hidden (r : Reg) (v : Word) : (s.issueLoad r v).hidden = s.hidden := rfl
@[simp] theorem issueLoad_mode (r : Reg) (v : Word) : (s.issueLoad r v).mode = s.mode := rfl
@[simp] theorem issueLoad_code (r : Reg) (v : Word) : (s.issueLoad r v).code = s.code := rfl
@[simp] theorem issueLoad_draws (r : Reg) (v : Word) : (s.issueLoad r v).draws = s.draws + 1 := rfl
@[simp] theorem pc_issueLoad (r : Reg) (v : Word) : (s.issueLoad r v).pc = s.pc := rfl
@[simp] theorem npc_issueLoad (r : Reg) (v : Word) : (s.issueLoad r v).npc = s.npc := rfl
@[simp] theorem readByte_issueLoad (r : Reg) (v : Word) (a' : Word) : (s.issueLoad r v).readByte a' = s.readByte a' := rfl

/-! `memorySide`. -/

@[simp] theorem memorySide_gprs : (s.memorySide).gprs = s.gprs.map Gpr.tick := rfl
@[simp] theorem memorySide_ip : (s.memorySide).ip = s.ip := rfl
@[simp] theorem memorySide_fl : (s.memorySide).fl = s.fl := rfl
@[simp] theorem memorySide_mem : (s.memorySide).mem = s.mem := rfl
@[simp] theorem memorySide_ira : (s.memorySide).ira = s.ira := rfl
@[simp] theorem memorySide_pendingInterrupts : (s.memorySide).pendingInterrupts = s.pendingInterrupts := rfl
@[simp] theorem memorySide_hidden : (s.memorySide).hidden = s.hidden := rfl
@[simp] theorem memorySide_mode : (s.memorySide).mode = s.mode := rfl
@[simp] theorem memorySide_code : (s.memorySide).code = s.code := rfl
@[simp] theorem memorySide_draws : (s.memorySide).draws = s.draws + 1 := rfl
@[simp] theorem pc_memorySide : (s.memorySide).pc = s.pc := rfl
@[simp] theorem npc_memorySide : (s.memorySide).npc = s.npc := rfl
@[simp] theorem readByte_memorySide (a' : Word) : (s.memorySide).readByte a' = s.readByte a' := rfl

/-! `setPc`. -/

@[simp] theorem setPc_gprs (t : Word) : (s.setPc t).gprs = s.gprs := rfl
@[simp] theorem setPc_ip (t : Word) : (s.setPc t).ip = t.extractLsb' 1 15 := rfl
@[simp] theorem setPc_fl (t : Word) : (s.setPc t).fl = s.fl := rfl
@[simp] theorem setPc_mem (t : Word) : (s.setPc t).mem = s.mem := rfl
@[simp] theorem setPc_ira (t : Word) : (s.setPc t).ira = s.ira := rfl
@[simp] theorem setPc_pendingInterrupts (t : Word) : (s.setPc t).pendingInterrupts = s.pendingInterrupts := rfl
@[simp] theorem setPc_hidden (t : Word) : (s.setPc t).hidden = s.hidden := rfl
@[simp] theorem setPc_mode (t : Word) : (s.setPc t).mode = s.mode := rfl
@[simp] theorem setPc_code (t : Word) : (s.setPc t).code = s.code := rfl
@[simp] theorem setPc_draws (t : Word) : (s.setPc t).draws = s.draws := rfl
@[simp] theorem gpr_setPc (t : Word) (r' : Reg) : (s.setPc t).gpr r' = s.gpr r' := rfl
@[simp] theorem resolved_setPc (t : Word) (r' : Reg) : (s.setPc t).resolved r' = s.resolved r' := rfl
@[simp] theorem readReg_setPc (t : Word) (r' : Reg) : (s.setPc t).readReg r' = s.readReg r' := rfl
@[simp] theorem view_setPc (t : Word) (r' : Reg) : (s.setPc t).view r' = s.view r' := rfl
@[simp] theorem readByte_setPc (t : Word) (a' : Word) : (s.setPc t).readByte a' = s.readByte a' := rfl

/-! `advance`. -/

@[simp] theorem advance_gprs : (s.advance).gprs = s.gprs := rfl
@[simp] theorem advance_ip : (s.advance).ip = s.npc.extractLsb' 1 15 := rfl
@[simp] theorem advance_fl : (s.advance).fl = s.fl := rfl
@[simp] theorem advance_mem : (s.advance).mem = s.mem := rfl
@[simp] theorem advance_ira : (s.advance).ira = s.ira := rfl
@[simp] theorem advance_pendingInterrupts : (s.advance).pendingInterrupts = s.pendingInterrupts := rfl
@[simp] theorem advance_hidden : (s.advance).hidden = s.hidden := rfl
@[simp] theorem advance_mode : (s.advance).mode = s.mode := rfl
@[simp] theorem advance_code : (s.advance).code = s.code := rfl
@[simp] theorem advance_draws : (s.advance).draws = s.draws := rfl
@[simp] theorem gpr_advance (r' : Reg) : (s.advance).gpr r' = s.gpr r' := rfl
@[simp] theorem resolved_advance (r' : Reg) : (s.advance).resolved r' = s.resolved r' := rfl
@[simp] theorem readReg_advance (r' : Reg) : (s.advance).readReg r' = s.readReg r' := rfl
@[simp] theorem view_advance (r' : Reg) : (s.advance).view r' = s.view r' := rfl
@[simp] theorem readByte_advance (a' : Word) : (s.advance).readByte a' = s.readByte a' := rfl

/-! `setFl`. -/

@[simp] theorem setFl_gprs (fl : Flags) : (s.setFl fl).gprs = s.gprs := rfl
@[simp] theorem setFl_ip (fl : Flags) : (s.setFl fl).ip = s.ip := rfl
@[simp] theorem setFl_fl (fl : Flags) : (s.setFl fl).fl = fl := rfl
@[simp] theorem setFl_mem (fl : Flags) : (s.setFl fl).mem = s.mem := rfl
@[simp] theorem setFl_ira (fl : Flags) : (s.setFl fl).ira = s.ira := rfl
@[simp] theorem setFl_pendingInterrupts (fl : Flags) : (s.setFl fl).pendingInterrupts = s.pendingInterrupts := rfl
@[simp] theorem setFl_hidden (fl : Flags) : (s.setFl fl).hidden = s.hidden := rfl
@[simp] theorem setFl_mode (fl : Flags) : (s.setFl fl).mode = s.mode := rfl
@[simp] theorem setFl_code (fl : Flags) : (s.setFl fl).code = s.code := rfl
@[simp] theorem setFl_draws (fl : Flags) : (s.setFl fl).draws = s.draws := rfl
@[simp] theorem gpr_setFl (fl : Flags) (r' : Reg) : (s.setFl fl).gpr r' = s.gpr r' := rfl
@[simp] theorem resolved_setFl (fl : Flags) (r' : Reg) : (s.setFl fl).resolved r' = s.resolved r' := rfl
@[simp] theorem readReg_setFl (fl : Flags) (r' : Reg) : (s.setFl fl).readReg r' = s.readReg r' := rfl
@[simp] theorem view_setFl (fl : Flags) (r' : Reg) : (s.setFl fl).view r' = s.view r' := rfl
@[simp] theorem pc_setFl (fl : Flags) : (s.setFl fl).pc = s.pc := rfl
@[simp] theorem npc_setFl (fl : Flags) : (s.setFl fl).npc = s.npc := rfl
@[simp] theorem readByte_setFl (fl : Flags) (a' : Word) : (s.setFl fl).readByte a' = s.readByte a' := rfl

/-! `takeDraws`. -/

@[simp] theorem takeDraws_gprs (n : Nat) : (s.takeDraws n).gprs = s.gprs := rfl
@[simp] theorem takeDraws_ip (n : Nat) : (s.takeDraws n).ip = s.ip := rfl
@[simp] theorem takeDraws_fl (n : Nat) : (s.takeDraws n).fl = s.fl := rfl
@[simp] theorem takeDraws_mem (n : Nat) : (s.takeDraws n).mem = s.mem := rfl
@[simp] theorem takeDraws_ira (n : Nat) : (s.takeDraws n).ira = s.ira := rfl
@[simp] theorem takeDraws_pendingInterrupts (n : Nat) : (s.takeDraws n).pendingInterrupts = s.pendingInterrupts := rfl
@[simp] theorem takeDraws_hidden (n : Nat) : (s.takeDraws n).hidden = s.hidden := rfl
@[simp] theorem takeDraws_mode (n : Nat) : (s.takeDraws n).mode = s.mode := rfl
@[simp] theorem takeDraws_code (n : Nat) : (s.takeDraws n).code = s.code := rfl
@[simp] theorem takeDraws_draws (n : Nat) : (s.takeDraws n).draws = s.draws + n := rfl
@[simp] theorem gpr_takeDraws (n : Nat) (r' : Reg) : (s.takeDraws n).gpr r' = s.gpr r' := rfl
@[simp] theorem resolved_takeDraws (n : Nat) (r' : Reg) : (s.takeDraws n).resolved r' = s.resolved r' := rfl
@[simp] theorem readReg_takeDraws (n : Nat) (r' : Reg) : (s.takeDraws n).readReg r' = s.readReg r' := rfl
@[simp] theorem view_takeDraws (n : Nat) (r' : Reg) : (s.takeDraws n).view r' = s.view r' := rfl
@[simp] theorem pc_takeDraws (n : Nat) : (s.takeDraws n).pc = s.pc := rfl
@[simp] theorem npc_takeDraws (n : Nat) : (s.takeDraws n).npc = s.npc := rfl
@[simp] theorem readByte_takeDraws (n : Nat) (a' : Word) : (s.takeDraws n).readByte a' = s.readByte a' := rfl

/-! `writeByte`. -/

@[simp] theorem writeByte_gprs (a : Word) (b : Byte) : (s.writeByte a b).gprs = s.gprs := rfl
@[simp] theorem writeByte_ip (a : Word) (b : Byte) : (s.writeByte a b).ip = s.ip := rfl
@[simp] theorem writeByte_fl (a : Word) (b : Byte) : (s.writeByte a b).fl = s.fl := rfl
@[simp] theorem writeByte_mem (a : Word) (b : Byte) : (s.writeByte a b).mem = s.mem.write a.toNat b := rfl
@[simp] theorem writeByte_ira (a : Word) (b : Byte) : (s.writeByte a b).ira = s.ira := rfl
@[simp] theorem writeByte_pendingInterrupts (a : Word) (b : Byte) : (s.writeByte a b).pendingInterrupts = s.pendingInterrupts := rfl
@[simp] theorem writeByte_hidden (a : Word) (b : Byte) : (s.writeByte a b).hidden = s.hidden := rfl
@[simp] theorem writeByte_mode (a : Word) (b : Byte) : (s.writeByte a b).mode = s.mode := rfl
@[simp] theorem writeByte_code (a : Word) (b : Byte) : (s.writeByte a b).code = s.code := rfl
@[simp] theorem writeByte_draws (a : Word) (b : Byte) : (s.writeByte a b).draws = s.draws := rfl
@[simp] theorem gpr_writeByte (a : Word) (b : Byte) (r' : Reg) : (s.writeByte a b).gpr r' = s.gpr r' := rfl
@[simp] theorem resolved_writeByte (a : Word) (b : Byte) (r' : Reg) : (s.writeByte a b).resolved r' = s.resolved r' := rfl
@[simp] theorem readReg_writeByte (a : Word) (b : Byte) (r' : Reg) : (s.writeByte a b).readReg r' = s.readReg r' := rfl
@[simp] theorem view_writeByte (a : Word) (b : Byte) (r' : Reg) : (s.writeByte a b).view r' = s.view r' := rfl
@[simp] theorem pc_writeByte (a : Word) (b : Byte) : (s.writeByte a b).pc = s.pc := rfl
@[simp] theorem npc_writeByte (a : Word) (b : Byte) : (s.writeByte a b).npc = s.npc := rfl

/-! `writeWord`. -/

@[simp] theorem writeWord_gprs (a v : Word) : (s.writeWord a v).gprs = s.gprs := rfl
@[simp] theorem writeWord_ip (a v : Word) : (s.writeWord a v).ip = s.ip := rfl
@[simp] theorem writeWord_fl (a v : Word) : (s.writeWord a v).fl = s.fl := rfl
@[simp] theorem writeWord_mem (a v : Word) : (s.writeWord a v).mem = (s.mem.write a.toNat (v.extractLsb' 0 8)).write (a + 1).toNat (v.extractLsb' 8 8) := rfl
@[simp] theorem writeWord_ira (a v : Word) : (s.writeWord a v).ira = s.ira := rfl
@[simp] theorem writeWord_pendingInterrupts (a v : Word) : (s.writeWord a v).pendingInterrupts = s.pendingInterrupts := rfl
@[simp] theorem writeWord_hidden (a v : Word) : (s.writeWord a v).hidden = s.hidden := rfl
@[simp] theorem writeWord_mode (a v : Word) : (s.writeWord a v).mode = s.mode := rfl
@[simp] theorem writeWord_code (a v : Word) : (s.writeWord a v).code = s.code := rfl
@[simp] theorem writeWord_draws (a v : Word) : (s.writeWord a v).draws = s.draws := rfl
@[simp] theorem gpr_writeWord (a v : Word) (r' : Reg) : (s.writeWord a v).gpr r' = s.gpr r' := rfl
@[simp] theorem resolved_writeWord (a v : Word) (r' : Reg) : (s.writeWord a v).resolved r' = s.resolved r' := rfl
@[simp] theorem readReg_writeWord (a v : Word) (r' : Reg) : (s.writeWord a v).readReg r' = s.readReg r' := rfl
@[simp] theorem view_writeWord (a v : Word) (r' : Reg) : (s.writeWord a v).view r' = s.view r' := rfl
@[simp] theorem pc_writeWord (a v : Word) : (s.writeWord a v).pc = s.pc := rfl
@[simp] theorem npc_writeWord (a v : Word) : (s.writeWord a v).npc = s.npc := rfl

end Sys2Proof.Machine
end

