-- ==== Sys2Proof/Laws/Memory.lean ====
section
/-! SUPPORT. Memory: reading after writing, the canonical form, and what placing bytes and loading an image leave. -/

namespace Sys2Proof.Machine

/-- Reading after writing: the byte written at its address, the old one elsewhere. -/
theorem memory_read_write (m : Memory) (a a' : Nat) (b : Byte) :
    (m.write a b).read a' = if a' = a then some b else m.read a' := by
  induction m with
  | nil => simp [Memory.write, Memory.read, eq_comm]
  | cons c m ih =>
    obtain ⟨k, v⟩ := c
    simp only [Memory.write]
    split
    · simp only [Memory.read, eq_comm (a := a)]
    · split
      · subst_vars
        simp only [Memory.read, eq_comm (a := a')]
        split <;> rfl
      · simp only [Memory.read, ih]
        split <;> split <;> simp_all

/-- The addresses that have a value after a write. -/
theorem memory_keys_write (m : Memory) (a : Nat) (b : Byte) (k : Nat) :
    k ∈ (m.write a b).map (·.1) ↔ k = a ∨ k ∈ m.map (·.1) := by
  induction m with
  | nil => simp [Memory.write]
  | cons c m ih =>
    obtain ⟨k', v⟩ := c
    simp only [Memory.write]
    split
    · simp
    · split
      · subst_vars; simp
      · simp only [List.map_cons, List.mem_cons, ih]
        tauto

/-- A write at an existing address keeps the canonical form. -/
theorem memory_write_wf (m : Memory) (a : Nat) (b : Byte) (ha : a < 65536) (h : m.wf) : (m.write a b).wf := by
  refine ⟨?_, fun k hk => ?_⟩
  · have hs := h.1
    clear h
    induction m with
    | nil => simp [Memory.write]
    | cons c m ih =>
      obtain ⟨k, v⟩ := c
      rw [List.map_cons, List.pairwise_cons] at hs
      simp only [Memory.write]
      split
      · rename_i hak
        simp only [List.map_cons, List.pairwise_cons]
        refine ⟨fun x hx => ?_, hs⟩
        rcases List.mem_cons.1 hx with rfl | hx
        · exact hak
        · exact lt_trans hak (hs.1 x hx)
      · split
        · subst_vars
          exact List.pairwise_cons.2 hs
        · simp only [List.map_cons, List.pairwise_cons]
          refine ⟨fun x hx => ?_, ih hs.2⟩
          rcases (memory_keys_write m a b x).1 hx with rfl | hx
          · omega
          · exact hs.1 x hx
  · rcases (memory_keys_write m a b k).1 hk with rfl | hk
    · exact ha
    · exact h.2 k hk

/-- A byte after `writeByte`. -/
theorem readByte_writeByte (s : State) (a a' : Word) (b : Byte) :
    (s.writeByte a b).readByte a' = if a' = a then some b else s.readByte a' := by
  simp only [State.readByte, writeByte_mem, memory_read_write, ← BitVec.toNat_inj]

theorem word_succ_ne (a : Word) : a + 1 ≠ a := by
  intro h
  have := congrArg BitVec.toNat h
  simp only [BitVec.toNat_add] at this
  have h1 : (1 : Word).toNat = 1 := rfl
  have := a.isLt
  omega

/-- A byte after `writeWord`. -/
theorem readByte_writeWord (s : State) (a a' v : Word) :
    (s.writeWord a v).readByte a' =
      if a' = a + 1 then some (v.extractLsb' 8 8) else if a' = a then some (v.extractLsb' 0 8) else s.readByte a' := by
  rw [State.writeWord, readByte_writeByte, readByte_writeByte]

theorem writeByte_wf (s : State) (a : Word) (b : Byte) (h : s.mem.wf) : (s.writeByte a b).mem.wf :=
  memory_write_wf _ _ _ a.isLt h

theorem writeWord_wf (s : State) (a v : Word) (h : s.mem.wf) : (s.writeWord a v).mem.wf :=
  writeByte_wf _ _ _ (writeByte_wf _ _ _ h)

theorem placeBytes_wf (bs : List Byte) (s : State) (a : Word) (h : s.mem.wf) : (s.placeBytes a bs).mem.wf := by
  induction bs generalizing s a with
  | nil => exact h
  | cons b bs ih => exact ih _ _ (writeByte_wf _ _ _ h)

theorem withFetchWord_wf (s : State) (nbits w : Nat) (h : s.mem.wf) : (s.withFetchWord nbits w).mem.wf :=
  placeBytes_wf _ _ _ h

/-- The memory after reset is in canonical form. -/
theorem reset_mem_wf : State.reset.mem.wf := by decide

/-! Loading an image. -/

@[simp] theorem coverByte_mem (s : State) (a : Word) : (s.coverByte a).mem = s.mem := by
  unfold State.coverByte
  split <;> try split
  all_goals rfl

@[simp] theorem readByte_coverByte (s : State) (a a' : Word) : (s.coverByte a).readByte a' = s.readByte a' := by
  simp [State.readByte]

/-- `CODE_RANGE` after covering one more byte. -/
theorem inRanges_coverByte (s : State) (a a' : Word) :
    inRanges (s.coverByte a).code a' = (decide (a' = a) || inRanges s.code a') := by
  unfold State.coverByte
  split
  · rename_i r rs heq
    split
    · rename_i hr
      simp only [inRanges, heq, List.any_cons, ← BitVec.toNat_inj]
      rw [Bool.eq_iff_iff]
      simp only [Bool.or_eq_true, Bool.and_eq_true, decide_eq_true_eq]
      constructor
      · rintro (h | h)
        · by_cases h2 : a'.toNat = a.toNat
          · exact .inl h2
          · exact .inr (.inl (by omega))
        · exact .inr (.inr h)
      · rintro (h | h | h)
        · exact .inl (by omega)
        · exact .inl (by omega)
        · exact .inr h
    · simp only [inRanges, heq, List.any_cons, ← BitVec.toNat_inj]
      congr 1
      rw [Bool.eq_iff_iff]
      simp only [Bool.and_eq_true, decide_eq_true_eq]
      omega
  · rename_i heq
    simp only [inRanges, heq, List.any_cons, List.any_nil, Bool.or_false, ← BitVec.toNat_inj]
    rw [Bool.eq_iff_iff]
    simp only [Bool.and_eq_true, decide_eq_true_eq]
    omega

theorem loadImage_wf (bs : List (Option Byte)) (s : State) (a : Word) (h : s.mem.wf) : (s.loadImage a bs).mem.wf := by
  induction bs generalizing s a with
  | nil => exact h
  | cons b bs ih =>
    cases b with
    | none => exact ih _ _ h
    | some b => exact ih _ _ (by simpa using writeByte_wf s a b h)

end Sys2Proof.Machine
end

