-- ==== Sys2Proof/Laws/Ops.lean ====
section
/-! SUPPORT. What the shared operations of Machine/ do, one lemma each, for proofs to cite instead of unfolding them. -/

namespace Sys2Proof.Machine

/-! Registers. -/

@[simp] theorem gprs_get_zr (g : Gprs) : g.get .zr = .zero := rfl

theorem gprs_get_set (g : Gprs) (r r' : Reg) (v : Gpr) :
    (g.set r v).get r' = if r' = r ∧ r ≠ .zr then v else g.get r' := by
  cases r <;> cases r' <;> rfl

@[simp] theorem gpr_zr (s : State) : s.gpr .zr = .zero := rfl

@[simp] theorem readReg_zr (s : State) : s.readReg .zr = 0 := rfl

@[simp] theorem view_zr (s : State) : s.view .zr = 0 := rfl

@[simp] theorem resolved_zr (s : State) : s.resolved .zr = true := rfl

/-- A register after `setGpr`: the new one, if it is not r0. -/
theorem gpr_setGpr (s : State) (r r' : Reg) (v : Gpr) :
    (s.setGpr r v).gpr r' = if r' = r ∧ r ≠ .zr then v else s.gpr r' :=
  gprs_get_set s.gprs r r' v

/-- A register after `setReg`: resolved, with the new value, if it is not r0. -/
theorem gpr_setReg (s : State) (r r' : Reg) (v : Word) :
    (s.setReg r v).gpr r' = if r' = r ∧ r ≠ .zr then { val := v, load := none } else s.gpr r' :=
  gpr_setGpr s r r' _

@[simp] theorem gpr_zero_resolve : Gpr.zero.resolve = Gpr.zero := rfl

@[simp] theorem gpr_zero_tick : Gpr.zero.tick = Gpr.zero := rfl

/-- A register after `await`: only the awaited one may have changed, to what its resolve step leaves. -/
theorem gpr_await (s : State) (r r' : Reg) :
    (s.await r).gpr r' = if r' = r then (s.gpr r').resolve else s.gpr r' := by
  rw [State.await, gpr_setGpr]
  by_cases h : r' = r <;> by_cases hz : r = .zr <;> simp_all

theorem gprs_get_map (g : Gprs) (f : Gpr → Gpr) (hf : f .zero = .zero) (r : Reg) : (g.map f).get r = f (g.get r) := by
  cases r <;> simp [Gprs.map, Gprs.get, hf]

/-- A register after `awaitAll`. -/
@[simp] theorem gpr_awaitAll (s : State) (r : Reg) : s.awaitAll.gpr r = (s.gpr r).resolve :=
  gprs_get_map s.gprs _ rfl r

/-- A register after the memory side's turn. -/
@[simp] theorem gpr_memorySide (s : State) (r : Reg) : s.memorySide.gpr r = (s.gpr r).tick :=
  gprs_get_map s.gprs _ rfl r

/-- A register after `issueLoad`: the loaded one keeps its value and is pending. -/
theorem gpr_issueLoad (s : State) (r r' : Reg) (v : Word) :
    (s.issueLoad r v).gpr r' =
      if r' = r ∧ r ≠ .zr then { s.gpr r with load := some { value := v, left := Config.loadLatency s.draws } }
      else s.gpr r' :=
  gpr_setGpr s r r' _

/-! The resolve step of one register. -/

@[simp] theorem resolve_load (g : Gpr) : g.resolve.load = none := by
  unfold Gpr.resolve
  split
  · assumption
  · rfl

@[simp] theorem resolve_val (g : Gpr) : g.resolve.val = g.view := by
  cases g with | mk v l => cases l <;> rfl

@[simp] theorem resolve_view (g : Gpr) : g.resolve.view = g.view := by
  cases g with | mk v l => cases l <;> rfl

@[simp] theorem resolve_resolve (g : Gpr) : g.resolve.resolve = g.resolve := by
  cases g with | mk v l => cases l <;> rfl

theorem resolve_of_load_none {g : Gpr} (h : g.load = none) : g.resolve = g := by
  simp [Gpr.resolve, h]

@[simp] theorem tick_view (g : Gpr) : g.tick.view = g.view := by
  obtain ⟨v, _ | ⟨w, _ | n⟩⟩ := g <;> rfl

/-- What the memory side's turn does to one register: nothing if it is resolved, else it arrives or comes one closer. -/
theorem tick_cases (g : Gpr) :
    (g.load = none ∧ g.tick = g) ∨
    (∃ v, g.load = some ⟨v, 0⟩ ∧ g.tick = ⟨v, none⟩) ∨
    (∃ v n, g.load = some ⟨v, n + 1⟩ ∧ g.tick = ⟨g.val, some ⟨v, n⟩⟩) := by
  unfold Gpr.tick
  split
  · exact .inl ⟨‹_›, rfl⟩
  · exact .inr (.inl ⟨_, ‹_›, rfl⟩)
  · exact .inr (.inr ⟨_, _, ‹_›, rfl⟩)

/-! Awaited sources. -/

@[simp] theorem resolved_await_self (s : State) (r : Reg) : (s.await r).resolved r = true := by
  simp [State.resolved, gpr_await]

@[simp] theorem readReg_await_self (s : State) (r : Reg) : (s.await r).readReg r = s.view r := by
  simp [State.readReg, State.view, gpr_await]

@[simp] theorem view_await (s : State) (r r' : Reg) : (s.await r).view r' = s.view r' := by
  simp only [State.view, gpr_await]
  split <;> simp

theorem resolved_await (s : State) (r r' : Reg) : (s.await r).resolved r' = (decide (r' = r) || s.resolved r') := by
  simp only [State.resolved, gpr_await]
  split <;> simp_all

@[simp] theorem readReg_await_await_left (s : State) (r r' : Reg) : ((s.await r).await r').readReg r = s.view r := by
  by_cases h : r = r' <;> simp_all [State.readReg, gpr_await, State.view]

/-! pc. -/

/-- pc is the byte address `{ip, 0}`. -/
theorem pc_toNat (s : State) : s.pc.toNat = 2 * s.ip.toNat := by
  have h := BitVec.toNat_append s.ip 0#1
  change (s.ip ++ 0#1).toNat = _
  rw [h]
  simp [Nat.shiftLeft_eq]
  omega

theorem pc_even (s : State) : s.pc.toNat % 2 = 0 := by
  rw [pc_toNat]
  omega

/-- `pc <- t` stores every bit of `t` but bit 0. -/
theorem setPc_pc_toNat (s : State) (t : Word) : (s.setPc t).pc.toNat = 2 * (t.toNat / 2) := by
  rw [pc_toNat, setPc_ip, BitVec.extractLsb'_toNat, Nat.shiftRight_eq_div_pow]
  omega

theorem setPc_pc (s : State) (t : Word) (h : t.toNat % 2 = 0) : (s.setPc t).pc = t := by
  apply BitVec.eq_of_toNat_eq
  rw [setPc_pc_toNat]
  omega

/-- The next sequential instruction (R35). -/
@[simp] theorem advance_pc (s : State) : s.advance.pc = s.pc + 2 := by
  apply setPc_pc
  have h := pc_even s
  have h2 : (2 : Word).toNat = 2 := rfl
  simp only [State.npc, BitVec.toNat_add, h2]
  omega

end Sys2Proof.Machine
end

