-- ==== Sys2Proof/Laws/Outcome.lean ====
section
/-! SUPPORT. The shared operations that can stop, one lemma each that says when they go on and with what; the flag updates; and
the frames that claims use. -/

namespace Sys2Proof.Machine

/-! Source reads: they always go on, with the value each register has or will have (spec/10_state.md R37). -/

theorem withSource_eq (r : Reg) (s : State) (k : Word → State → Outcome) :
    withSource r s k = k (s.view r) (s.await r) := by
  rw [withSource, readReg_await_self]

theorem withSources_eq (r1 r2 : Reg) (s : State) (k : Word → Word → State → Outcome) :
    withSources r1 r2 s k = k (s.view r1) (s.view r2) ((s.await r1).await r2) := by
  rw [withSources, readReg_await_await_left, readReg_await_self, view_await]

/-- A register after both sources of an instruction have been awaited. -/
theorem gpr_await_await (s : State) (r1 r2 r : Reg) :
    ((s.await r1).await r2).gpr r = if r = r1 ∨ r = r2 then (s.gpr r).resolve else s.gpr r := by
  simp only [gpr_await]
  by_cases h1 : r = r1 <;> by_cases h2 : r = r2 <;> simp [h1, h2]
  split <;> simp

theorem resolved_await_await (s : State) (r1 r2 r : Reg) :
    ((s.await r1).await r2).resolved r = (decide (r = r2) || (decide (r = r1) || s.resolved r)) := by
  simp only [resolved_await]

/-- Awaiting a register that is resolved changes nothing. -/
theorem await_of_resolved (s : State) (r : Reg) (h : s.resolved r = true) : s.await r = s := by
  have hl : (s.gpr r).load = none := by simpa [State.resolved] using h
  rw [State.await, resolve_of_load_none hl]
  cases s with | mk g => cases r <;> rfl

@[simp] theorem await_zr (s : State) : s.await .zr = s := await_of_resolved s .zr rfl

@[simp] theorem setReg_zr (s : State) (v : Word) : s.setReg .zr v = s := rfl

/-! The checks. -/

theorem guardDest_eq (d : Reg) (s : State) (k : Outcome) :
    guardDest d s k = if s.resolved d then k else .fault (.asyncWriteFault d) := rfl

/-- What the destination check lets through. -/
theorem guardDest_next {d : Reg} {s t : State} {k : Outcome} (h : guardDest d s k = .next t) :
    s.resolved d = true ∧ k = .next t := by
  rw [guardDest_eq] at h
  split at h
  · exact ⟨‹_›, h⟩
  · cases h

/-- What the byte read lets through. -/
theorem withByte_next {a : Word} {s t : State} {k : Byte → Outcome} (h : withByte a s k = .next t) :
    ∃ b, s.readByte a = some b ∧ k b = .next t := by
  unfold withByte raise at h
  split at h
  · exact ⟨_, ‹_›, h⟩
  · cases h

theorem withByte_of_some {a : Word} {s : State} {b : Byte} (h : s.readByte a = some b) (k : Byte → Outcome) :
    withByte a s k = k b := by
  simp [withByte, h]

theorem withByte_of_none {a : Word} {s : State} (h : s.readByte a = none) (k : Byte → Outcome) :
    withByte a s k = .fault (.unsetRead a) := by
  simp [withByte, h, raise]

/-- What the word read lets through. -/
theorem withWord_next {a : Word} {s t : State} {k : Word → Outcome} (h : withWord a s k = .next t) :
    ∃ lo hi, s.readByte a = some lo ∧ s.readByte (a + 1) = some hi ∧ k (hi ++ lo) = .next t := by
  obtain ⟨lo, hlo, h⟩ := withByte_next h
  obtain ⟨hi, hhi, h⟩ := withByte_next h
  exact ⟨lo, hi, hlo, hhi, h⟩

theorem withWord_of_some {a : Word} {s : State} {lo hi : Byte} (hlo : s.readByte a = some lo)
    (hhi : s.readByte (a + 1) = some hi) (k : Word → Outcome) : withWord a s k = k (hi ++ lo) := by
  rw [withWord, withByte_of_some hlo, withByte_of_some hhi]

/-- Bit 0 of an address says whether it is odd. -/
theorem getLsbD_zero_eq (a : Word) : a.getLsbD 0 = decide (a.toNat % 2 = 1) := by
  simp [BitVec.getLsbD, Nat.testBit_zero]

/-- The alignment check under the parameter's value: an even address passes, an odd one traps. -/
theorem alignWord_eq (ea : Word) (k : Word → Outcome) :
    alignWord Config.misalignedWord ea k =
      if ea.toNat % 2 = 1 then .fault (.misalignedAccess ea) else k ea := by
  simp only [alignWord, getLsbD_zero_eq, Config.misalignedWord, raise]
  by_cases h : ea.toNat % 2 = 1 <;> simp [h]

/-- The `MMIO` check under the parameter's value: nothing lies in it. -/
@[simp] theorem guardMmio_eq (bytes : List Word) (k : Outcome) : guardMmio Config.mmio bytes k = k := by
  have h : bytes.find? (inRanges []) = none := by
    rw [List.find?_eq_none]
    intro x _
    simp [inRanges]
  simp [guardMmio, Config.mmio, h]

/-- The `CODE_RANGE` check lets a store through exactly when no byte of it lies there. -/
theorem guardCode_of_outside {bytes : List Word} {s : State} (h : outsideCode bytes s = true) (k : Outcome) :
    guardCode bytes s k = k := by
  have h : bytes.find? (inRanges s.code) = none := by
    rw [List.find?_eq_none]
    intro x hx
    have := List.all_eq_true.1 h x hx
    simpa using this
  simp [guardCode, h]

theorem guardCode_of_inside {bytes : List Word} {s : State} (h : outsideCode bytes s = false) (k : Outcome) :
    ∃ a, a ∈ bytes ∧ inRanges s.code a = true ∧ guardCode bytes s k = .refused (.storeIntoCode a) := by
  unfold guardCode
  cases hf : bytes.find? (inRanges s.code) with
  | none =>
    rw [List.find?_eq_none] at hf
    have hall : outsideCode bytes s = true := by
      rw [outsideCode, List.all_eq_true]
      intro x hx
      simpa using hf x hx
    rw [hall] at h
    cases h
  | some a => exact ⟨a, List.mem_of_find?_eq_some hf, by simpa using List.find?_some hf, rfl⟩

/-- What the check of a store lets through. -/
theorem guardStore_next {bytes : List Word} {s t : State} {k : Outcome} (h : guardStore Config.mmio bytes s k = .next t) :
    outsideCode bytes s = true ∧ k = .next t := by
  rw [guardStore, guardMmio_eq] at h
  cases ho : outsideCode bytes s with
  | true => exact ⟨rfl, by rwa [guardCode_of_outside ho] at h⟩
  | false =>
    obtain ⟨a, -, -, hg⟩ := guardCode_of_inside ho k
    rw [hg] at h
    cases h

theorem guardStore_of_outside {bytes : List Word} {s : State} (h : outsideCode bytes s = true) (k : Outcome) :
    guardStore Config.mmio bytes s k = k := by
  rw [guardStore, guardMmio_eq, guardCode_of_outside h]

/-- The amount of a register shift under the parameter's value (spec/43_shift.md R189). -/
@[simp] theorem withShiftAmount_eq (v : Word) (k : BitVec 4 → Outcome) :
    withShiftAmount Config.shiftAmountMode v k = k (v.extractLsb' 0 4) := rfl

/-- What a fetch lets through. -/
theorem fetch_next {s t : State} {k : Word → Outcome} (h : fetch Config.ifetchOrder Config.mmio s k = .next t) :
    ∃ first second, s.readByte s.pc = some first ∧ s.readByte (s.pc + 1) = some second ∧
      k (assembleWord Config.ifetchOrder first second) = .next t := by
  rw [fetch, guardMmio_eq] at h
  obtain ⟨first, h1, h⟩ := withByte_next h
  obtain ⟨second, h2, h⟩ := withByte_next h
  exact ⟨first, second, h1, h2, h⟩

theorem fetch_of_some {s : State} {first second : Byte} (h1 : s.readByte s.pc = some first)
    (h2 : s.readByte (s.pc + 1) = some second) (k : Word → Outcome) :
    fetch Config.ifetchOrder Config.mmio s k = k (assembleWord Config.ifetchOrder first second) := by
  rw [fetch, guardMmio_eq, withByte_of_some h1, withByte_of_some h2]

/-- A step under the parameter's value, without an interrupt: fetch and execute after the memory side's turn. -/
theorem step_eq (s : State) :
    step s = fetch Config.ifetchOrder Config.mmio s.memorySide fun w => exec (decode w) s.memorySide := rfl

/-! CSRs: the four numbers are distinct, nothing else is known of them (spec/10_state.md R40). -/

theorem csrIp_ne_csrFl : Config.csrIp ≠ Config.csrFl := fun h => absurd (Config.csrNumbering.injective h) (by decide)
theorem csrIp_ne_csrPen : Config.csrIp ≠ Config.csrPen := fun h => absurd (Config.csrNumbering.injective h) (by decide)
theorem csrIp_ne_csrIra : Config.csrIp ≠ Config.csrIra := fun h => absurd (Config.csrNumbering.injective h) (by decide)
theorem csrFl_ne_csrPen : Config.csrFl ≠ Config.csrPen := fun h => absurd (Config.csrNumbering.injective h) (by decide)
theorem csrFl_ne_csrIra : Config.csrFl ≠ Config.csrIra := fun h => absurd (Config.csrNumbering.injective h) (by decide)
theorem csrPen_ne_csrIra : Config.csrPen ≠ Config.csrIra := fun h => absurd (Config.csrNumbering.injective h) (by decide)

@[simp] theorem withCsr_csrIp (s : State) (k : Word → Outcome) : withCsr Config.csrNumbers Config.csrIpValue Config.csrIp s k = k s.npc := by
  simp [withCsr, Config.csrNumbers, csrIpRead, Config.csrIpValue]

@[simp] theorem withCsr_csrFl (s : State) (k : Word → Outcome) : withCsr Config.csrNumbers Config.csrIpValue Config.csrFl s k = k s.fl.toWord := by
  simp [withCsr, Config.csrNumbers, csrIp_ne_csrFl.symm]

@[simp] theorem withCsr_csrPen (s : State) (k : Word → Outcome) :
    withCsr Config.csrNumbers Config.csrIpValue Config.csrPen s k = .refused .csrPenRead := by
  simp [withCsr, Config.csrNumbers, csrIp_ne_csrPen.symm, csrFl_ne_csrPen.symm]

@[simp] theorem withCsr_csrIra (s : State) (k : Word → Outcome) :
    withCsr Config.csrNumbers Config.csrIpValue Config.csrIra s k = .refused .csrIraAccess := by
  simp [withCsr, Config.csrNumbers, csrIp_ne_csrIra.symm, csrFl_ne_csrIra.symm, csrPen_ne_csrIra.symm]

/-- What a CSR read lets through. -/
theorem withCsr_next {n : Config.CsrNumbers} {m : Config.CsrIpValue} {k : BitVec 6} {s t : State} {c : Word → Outcome} (h : withCsr n m k s c = .next t) :
    ∃ v, c v = .next t := by
  unfold withCsr at h
  split at h
  · exact ⟨_, h⟩
  · split at h
    · exact ⟨_, h⟩
    · split at h
      · cases h
      · split at h <;> cases h

@[simp] theorem writeCsr_csrIp (s : State) (v : Word) : writeCsr Config.csrNumbers Config.csrIp v s = .refused .csrIpWrite := by
  simp [writeCsr, Config.csrNumbers]

@[simp] theorem writeCsr_csrFl (s : State) (v : Word) :
    writeCsr Config.csrNumbers Config.csrFl v s = .next (s.setFl (Flags.ofWord v)).advance := by
  simp [writeCsr, Config.csrNumbers, csrIp_ne_csrFl.symm]

@[simp] theorem writeCsr_csrPen (s : State) (v : Word) :
    writeCsr Config.csrNumbers Config.csrPen v s =
      if v = 0 then .next { s with pendingInterrupts := [] }.advance else .refused (.csrPenWrite v) := by
  simp [writeCsr, Config.csrNumbers, csrIp_ne_csrPen.symm, csrFl_ne_csrPen.symm]

@[simp] theorem writeCsr_csrIra (s : State) (v : Word) : writeCsr Config.csrNumbers Config.csrIra v s = .refused .csrIraAccess := by
  simp [writeCsr, Config.csrNumbers, csrIp_ne_csrIra.symm, csrFl_ne_csrIra.symm, csrPen_ne_csrIra.symm]

/-- What a CSR write lets through: fl takes the value, or a zero clears the pending interrupts. -/
theorem writeCsr_next {k : BitVec 6} {v : Word} {s t : State} (h : writeCsr Config.csrNumbers k v s = .next t) :
    (k = Config.csrFl ∧ t = (s.setFl (Flags.ofWord v)).advance) ∨
    (k = Config.csrPen ∧ v = 0 ∧ t = { s with pendingInterrupts := [] }.advance) := by
  unfold writeCsr at h
  split at h
  · cases h
  · split at h
    · exact .inl ⟨‹_›, by injection h with h; exact h.symm⟩
    · split at h
      · split at h
        · exact .inr ⟨‹_›, ‹_›, by injection h with h; exact h.symm⟩
        · cases h
      · split at h <;> cases h

/-! The flag updates that take free values: everything but fl and the counter of free values stays. -/

@[simp] theorem logicFlags_eq (r : Word) (s : State) :
    logicFlags Config.logicCarry r s = (s.setFl (arithFlags r (Config.drawBit s.draws) s.fl)).takeDraws 1 := rfl

@[simp] theorem otherAluFlags_eq (r : Word) (s : State) :
    otherAluFlags Config.flagsOtherAlu r s =
      (s.setFl { c := Config.drawBit s.draws, s := Config.drawBit (s.draws + 1), z := Config.drawBit (s.draws + 2),
                 u := s.fl.u }).takeDraws 3 := rfl

/-- Bit 15 as a comparison. -/
theorem msb_eq_decide_le (r : Word) : r.msb = decide (2 ^ 15 ≤ r.toNat) := by
  rw [BitVec.msb_eq_decide]

theorem eq_zero_eq_decide (r : Word) : (r == 0) = decide (r.toNat = 0) := by
  rw [Bool.eq_iff_iff]
  simp [← BitVec.toNat_inj]

/-- The arithmetic flag write in the terms of claims. -/
theorem arithFlags_eq (r : Word) (k : Bool) (fl : Flags) : arithFlags r k fl = flagsOf k r fl.u := by
  rw [arithFlags, flagsOf, msb_eq_decide_le, eq_zero_eq_decide]

/-! `destReady` is what the destination check sees after the sources have been awaited. -/

theorem destReady_none {i : Instr} {d : Reg} {s : State} (hs : sources i = []) (hd : destination i = some d) :
    destReady i s = s.resolved d := by
  simp [destReady, hs, hd]

theorem destReady_one {i : Instr} {d r : Reg} {s : State} (hs : sources i = [r]) (hd : destination i = some d) :
    destReady i s = (s.await r).resolved d := by
  simp [destReady, hs, hd, resolved_await]

theorem destReady_two {i : Instr} {d r1 r2 : Reg} {s : State} (hs : sources i = [r1, r2])
    (hd : destination i = some d) : destReady i s = ((s.await r1).await r2).resolved d := by
  simp only [destReady, hs, hd, resolved_await_await, List.contains_cons, List.contains_nil, Bool.or_false]
  by_cases h1 : d = r1 <;> by_cases h2 : d = r2 <;> simp [h1, h2]

/-! Frames. -/

/-- A result written to `d` in a state that differs from `s` only by awaited sources, fl and free values. -/
theorem writesRegister_of {i : Instr} {d : Reg} {v : Word} {s u t : State}
    (hu : ∀ r, u.gpr r = if r ∈ sources i then (s.gpr r).resolve else s.gpr r)
    (ht : ∀ r, t.gpr r = (u.setReg d v).gpr r) (hmem : t.mem = s.mem) (hsys : KeepsSystem s t) :
    WritesRegister i d v s t where
  result hd := by simp [ht, gpr_setReg, hd]
  registers r hr := by
    have : r ≠ d := fun h => hr (by simp [h])
    simp [ht, gpr_setReg, this, hu]
  memory a := by simp [State.readByte, hmem]
  system := hsys

/-- No result written, in a state that differs from `s` only by awaited sources, fl and free values. -/
theorem writesNoRegister_of {i : Instr} {s t : State}
    (hu : ∀ r, t.gpr r = if r ∈ sources i then (s.gpr r).resolve else s.gpr r) (hmem : t.mem = s.mem)
    (hsys : KeepsSystem s t) : WritesNoRegister i s t where
  registers r _ := hu r
  memory a := by simp [State.readByte, hmem]
  system := hsys

end Sys2Proof.Machine
end

