-- ==== Sys2Proof/Laws/PerInstr.lean ====
section
/-! SUPPORT. Facts about each instruction as syntax, one lemma per constructor. Family `AliasOf`: a well-formed term and the base
instruction it names (spec/30_encoding.md R111) have the same word, and the base instruction is well-formed and no alias. -/

namespace Sys2Proof.Laws

/-- What the family says of an instruction. -/
def AliasOf.Statement (i : Instr) : Prop :=
  i.wf = true → i.core.wf = true ∧ i.core.isAlias = false ∧ encode i.core = encode i

theorem AliasOf.bkpt : AliasOf.Statement .bkpt :=
  fun h => ⟨h, rfl, rfl⟩
theorem AliasOf.nop : AliasOf.Statement .nop :=
  fun h => ⟨h, rfl, rfl⟩
theorem AliasOf.sysc (x : BitVec 8) : AliasOf.Statement (.sysc x) :=
  fun h => ⟨h, rfl, rfl⟩
theorem AliasOf.fence : AliasOf.Statement .fence :=
  fun h => ⟨h, rfl, rfl⟩
theorem AliasOf.ftlb : AliasOf.Statement .ftlb :=
  fun h => ⟨h, rfl, rfl⟩
theorem AliasOf.rfi : AliasOf.Statement .rfi :=
  fun h => ⟨h, rfl, rfl⟩
theorem AliasOf.wfi : AliasOf.Statement .wfi :=
  fun h => ⟨h, rfl, rfl⟩
theorem AliasOf.scf : AliasOf.Statement .scf :=
  fun h => ⟨h, rfl, rfl⟩
theorem AliasOf.rscf : AliasOf.Statement .rscf :=
  fun h => ⟨h, rfl, rfl⟩
theorem AliasOf.reservedJmpdl064 : AliasOf.Statement .reservedJmpdl064 :=
  fun h => ⟨h, rfl, rfl⟩
theorem AliasOf.reservedJmpdl0128 : AliasOf.Statement .reservedJmpdl0128 :=
  fun h => ⟨h, rfl, rfl⟩
theorem AliasOf.reservedJmpdl0Other (f : BitVec 8) : AliasOf.Statement (.reservedJmpdl0Other f) :=
  fun h => ⟨h, rfl, rfl⟩
theorem AliasOf.jmpd (rs : Reg) : AliasOf.Statement (.jmpd rs) :=
  fun h => ⟨h, rfl, rfl⟩
theorem AliasOf.reservedJmpdFlags (rs : Reg) (f : BitVec 8) : AliasOf.Statement (.reservedJmpdFlags rs f) :=
  fun h => ⟨h, rfl, rfl⟩
theorem AliasOf.jmpdl (rs : Reg) : AliasOf.Statement (.jmpdl rs) :=
  fun h => ⟨h, rfl, rfl⟩
theorem AliasOf.reservedJmpdlFlags (rs : Reg) (f : BitVec 8) : AliasOf.Statement (.reservedJmpdlFlags rs f) :=
  fun h => ⟨h, rfl, rfl⟩
theorem AliasOf.reservedBrhCond (condHi : BitVec 1) (imm : BitVec 8) : AliasOf.Statement (.reservedBrhCond condHi imm) :=
  fun h => ⟨h, rfl, rfl⟩
theorem AliasOf.add (rd : Reg) (rs1 : Reg) (rs2 : Reg) : AliasOf.Statement (.add rd rs1 rs2) :=
  fun h => ⟨h, rfl, rfl⟩
theorem AliasOf.addc (rd : Reg) (rs1 : Reg) (rs2 : Reg) : AliasOf.Statement (.addc rd rs1 rs2) :=
  fun h => ⟨h, rfl, rfl⟩
theorem AliasOf.sub (rd : Reg) (rs1 : Reg) (rs2 : Reg) : AliasOf.Statement (.sub rd rs1 rs2) :=
  fun h => ⟨h, rfl, rfl⟩
theorem AliasOf.subb (rd : Reg) (rs1 : Reg) (rs2 : Reg) : AliasOf.Statement (.subb rd rs1 rs2) :=
  fun h => ⟨h, rfl, rfl⟩
theorem AliasOf.addi (rd : Reg) (imm : BitVec 8) : AliasOf.Statement (.addi rd imm) :=
  fun h => ⟨h, rfl, rfl⟩
theorem AliasOf.cmpi (rs : Reg) (imm : BitVec 8) : AliasOf.Statement (.cmpi rs imm) :=
  fun h => ⟨h, rfl, rfl⟩
theorem AliasOf.csrr (rd : Reg) (csr : BitVec 6) : AliasOf.Statement (.csrr rd csr) :=
  fun h => ⟨h, rfl, rfl⟩
theorem AliasOf.csrw (rs : Reg) (csr : BitVec 6) : AliasOf.Statement (.csrw rs csr) :=
  fun h => ⟨h, rfl, rfl⟩
theorem AliasOf.slt (rd : Reg) (rs1 : Reg) (rs2 : Reg) : AliasOf.Statement (.slt rd rs1 rs2) :=
  fun h => ⟨h, rfl, rfl⟩
theorem AliasOf.sltu (rd : Reg) (rs1 : Reg) (rs2 : Reg) : AliasOf.Statement (.sltu rd rs1 rs2) :=
  fun h => ⟨h, rfl, rfl⟩
theorem AliasOf.szr (rd : Reg) (rs1 : Reg) (rs2 : Reg) : AliasOf.Statement (.szr rd rs1 rs2) :=
  fun h => ⟨h, rfl, rfl⟩
theorem AliasOf.ior (rd : Reg) (rs1 : Reg) (rs2 : Reg) : AliasOf.Statement (.ior rd rs1 rs2) :=
  fun h => ⟨h, rfl, rfl⟩
theorem AliasOf.and (rd : Reg) (rs1 : Reg) (rs2 : Reg) : AliasOf.Statement (.and rd rs1 rs2) :=
  fun h => ⟨h, rfl, rfl⟩
theorem AliasOf.xor (rd : Reg) (rs1 : Reg) (rs2 : Reg) : AliasOf.Statement (.xor rd rs1 rs2) :=
  fun h => ⟨h, rfl, rfl⟩
theorem AliasOf.iori (rd : Reg) (imm : BitVec 8) : AliasOf.Statement (.iori rd imm) :=
  fun h => ⟨h, rfl, rfl⟩
theorem AliasOf.ioriu (rd : Reg) (imm : BitVec 8) : AliasOf.Statement (.ioriu rd imm) :=
  fun h => ⟨h, rfl, rfl⟩
theorem AliasOf.andi (rd : Reg) (imm : BitVec 8) : AliasOf.Statement (.andi rd imm) :=
  fun h => ⟨h, rfl, rfl⟩
theorem AliasOf.andiu (rd : Reg) (imm : BitVec 8) : AliasOf.Statement (.andiu rd imm) :=
  fun h => ⟨h, rfl, rfl⟩
theorem AliasOf.biti (rs : Reg) (imm : BitVec 8) : AliasOf.Statement (.biti rs imm) :=
  fun h => ⟨h, rfl, rfl⟩
theorem AliasOf.xori (rd : Reg) (imm : BitVec 8) : AliasOf.Statement (.xori rd imm) :=
  fun h => ⟨h, rfl, rfl⟩
theorem AliasOf.xoriu (rd : Reg) (imm : BitVec 8) : AliasOf.Statement (.xoriu rd imm) :=
  fun h => ⟨h, rfl, rfl⟩
theorem AliasOf.bsl (rd : Reg) (amt : BitVec 4) (rs : Reg) : AliasOf.Statement (.bsl rd amt rs) :=
  fun h => ⟨h, rfl, rfl⟩
theorem AliasOf.bsr (rd : Reg) (amt : BitVec 4) (rs : Reg) : AliasOf.Statement (.bsr rd amt rs) :=
  fun h => ⟨h, rfl, rfl⟩
theorem AliasOf.bsrs (rd : Reg) (amt : BitVec 4) (rs : Reg) : AliasOf.Statement (.bsrs rd amt rs) :=
  fun h => ⟨h, rfl, rfl⟩
theorem AliasOf.brr (rd : Reg) (amt : BitVec 4) (rs : Reg) : AliasOf.Statement (.brr rd amt rs) :=
  fun h => ⟨h, rfl, rfl⟩
theorem AliasOf.bsld (rd : Reg) (rs1 : Reg) (rs2 : Reg) : AliasOf.Statement (.bsld rd rs1 rs2) :=
  fun h => ⟨h, rfl, rfl⟩
theorem AliasOf.bsrd (rd : Reg) (rs1 : Reg) (rs2 : Reg) : AliasOf.Statement (.bsrd rd rs1 rs2) :=
  fun h => ⟨h, rfl, rfl⟩
theorem AliasOf.bsrsd (rd : Reg) (rs1 : Reg) (rs2 : Reg) : AliasOf.Statement (.bsrsd rd rs1 rs2) :=
  fun h => ⟨h, rfl, rfl⟩
theorem AliasOf.brrd (rd : Reg) (rs1 : Reg) (rs2 : Reg) : AliasOf.Statement (.brrd rd rs1 rs2) :=
  fun h => ⟨h, rfl, rfl⟩
theorem AliasOf.reserved0111100 (a : Reg) (b : Reg) (c : Reg) : AliasOf.Statement (.reserved0111100 a b c) :=
  fun h => ⟨h, rfl, rfl⟩
theorem AliasOf.reserved0111101 (a : Reg) (b : Reg) (c : Reg) : AliasOf.Statement (.reserved0111101 a b c) :=
  fun h => ⟨h, rfl, rfl⟩
theorem AliasOf.reserved0111110 (a : Reg) (b : Reg) (c : Reg) : AliasOf.Statement (.reserved0111110 a b c) :=
  fun h => ⟨h, rfl, rfl⟩
theorem AliasOf.reserved0111111 (a : Reg) (b : Reg) (c : Reg) : AliasOf.Statement (.reserved0111111 a b c) :=
  fun h => ⟨h, rfl, rfl⟩
theorem AliasOf.lli (rd : Reg) (imm : BitVec 8) : AliasOf.Statement (.lli rd imm) :=
  fun h => ⟨h, rfl, rfl⟩
theorem AliasOf.lui (rd : Reg) (imm : BitVec 8) : AliasOf.Statement (.lui rd imm) :=
  fun h => ⟨h, rfl, rfl⟩
theorem AliasOf.jmp (imm : BitVec 11) : AliasOf.Statement (.jmp imm) :=
  fun h => ⟨h, rfl, rfl⟩
theorem AliasOf.jmpl (imm : BitVec 11) : AliasOf.Statement (.jmpl imm) :=
  fun h => ⟨h, rfl, rfl⟩
theorem AliasOf.jmpr (imm : BitVec 11) : AliasOf.Statement (.jmpr imm) :=
  fun h => ⟨h, rfl, rfl⟩
theorem AliasOf.jmprl (imm : BitVec 11) : AliasOf.Statement (.jmprl imm) :=
  fun h => ⟨h, rfl, rfl⟩
theorem AliasOf.brh (cond : Cond) (imm : BitVec 8) : AliasOf.Statement (.brh cond imm) :=
  fun h => ⟨h, rfl, rfl⟩
theorem AliasOf.prfi (imm : BitVec 11) : AliasOf.Statement (.prfi imm) :=
  fun h => ⟨h, rfl, rfl⟩
theorem AliasOf.mld (rd : Reg) (imm : BitVec 5) (base : Reg) : AliasOf.Statement (.mld rd imm base) :=
  fun h => ⟨h, rfl, rfl⟩
theorem AliasOf.mldw (rd : Reg) (imm : BitVec 5) (base : Reg) : AliasOf.Statement (.mldw rd imm base) :=
  fun h => ⟨h, rfl, rfl⟩
theorem AliasOf.mst (rs : Reg) (imm : BitVec 5) (base : Reg) : AliasOf.Statement (.mst rs imm base) :=
  fun h => ⟨h, rfl, rfl⟩
theorem AliasOf.mstw (rs : Reg) (imm : BitVec 5) (base : Reg) : AliasOf.Statement (.mstw rs imm base) :=
  fun h => ⟨h, rfl, rfl⟩
theorem AliasOf.xch (rw : Reg) (imm : BitVec 5) (base : Reg) : AliasOf.Statement (.xch rw imm base) :=
  fun h => ⟨h, rfl, rfl⟩
theorem AliasOf.xchw (rw : Reg) (imm : BitVec 5) (base : Reg) : AliasOf.Statement (.xchw rw imm base) :=
  fun h => ⟨h, rfl, rfl⟩
theorem AliasOf.mov (rd : Reg) (rs : Reg) : AliasOf.Statement (.mov rd rs) :=
  fun h => ⟨by cases rd <;> cases rs <;> simp_all [Instr.wf, Instr.core, Instr.coreWith], rfl, rfl⟩
theorem AliasOf.test (rs : Reg) : AliasOf.Statement (.test rs) :=
  fun h => ⟨by cases rs <;> simp_all [Instr.wf, Instr.core, Instr.coreWith], rfl, rfl⟩
theorem AliasOf.neg (rd : Reg) (rs : Reg) : AliasOf.Statement (.neg rd rs) :=
  fun h => ⟨h, rfl, rfl⟩
theorem AliasOf.cmp (rs1 : Reg) (rs2 : Reg) : AliasOf.Statement (.cmp rs1 rs2) :=
  fun h => ⟨h, rfl, rfl⟩
theorem AliasOf.inc (rd : Reg) : AliasOf.Statement (.inc rd) :=
  fun _ => ⟨by simp [Instr.wf, Instr.core, Instr.coreWith], rfl, rfl⟩
theorem AliasOf.dec (rd : Reg) : AliasOf.Statement (.dec rd) :=
  fun _ => ⟨by simp [Instr.wf, Instr.core, Instr.coreWith], rfl, rfl⟩
theorem AliasOf.alloc (imm : BitVec 8) : AliasOf.Statement (.alloc imm) :=
  fun _ => ⟨by simp [Instr.wf, Instr.core, Instr.coreWith], rfl, rfl⟩
theorem AliasOf.ip (rd : Reg) : AliasOf.Statement (.ip rd) :=
  fun h => ⟨h, rfl, rfl⟩
theorem AliasOf.clri : AliasOf.Statement .clri :=
  fun h => ⟨h, rfl, rfl⟩
theorem AliasOf.sneg (rd : Reg) (rs : Reg) : AliasOf.Statement (.sneg rd rs) :=
  fun h => ⟨h, rfl, rfl⟩
theorem AliasOf.spos (rd : Reg) (rs : Reg) : AliasOf.Statement (.spos rd rs) :=
  fun h => ⟨h, rfl, rfl⟩
theorem AliasOf.snez (rd : Reg) (rs : Reg) : AliasOf.Statement (.snez rd rs) :=
  fun h => ⟨h, rfl, rfl⟩
theorem AliasOf.cut4 (rd : Reg) : AliasOf.Statement (.cut4 rd) :=
  fun h => ⟨h, rfl, rfl⟩
theorem AliasOf.cut8 (rd : Reg) : AliasOf.Statement (.cut8 rd) :=
  fun h => ⟨h, rfl, rfl⟩
theorem AliasOf.clrl (rd : Reg) : AliasOf.Statement (.clrl rd) :=
  fun h => ⟨h, rfl, rfl⟩
theorem AliasOf.not (rd : Reg) : AliasOf.Statement (.not rd) :=
  fun h => ⟨h, rfl, rfl⟩
theorem AliasOf.not8 (rd : Reg) : AliasOf.Statement (.not8 rd) :=
  fun h => ⟨h, rfl, rfl⟩
theorem AliasOf.clr (rd : Reg) : AliasOf.Statement (.clr rd) :=
  fun h => ⟨h, rfl, rfl⟩
theorem AliasOf.ret : AliasOf.Statement .ret :=
  fun _ => ⟨rfl, rfl, by decide⟩
theorem AliasOf.prfd (imm : BitVec 5) (base : Reg) : AliasOf.Statement (.prfd imm base) :=
  fun h => ⟨h, rfl, rfl⟩
theorem AliasOf.mclr (imm : BitVec 5) (base : Reg) : AliasOf.Statement (.mclr imm base) :=
  fun h => ⟨h, rfl, rfl⟩
theorem AliasOf.mclrw (imm : BitVec 5) (base : Reg) : AliasOf.Statement (.mclrw imm base) :=
  fun h => ⟨h, rfl, rfl⟩

end Sys2Proof.Laws
end

