-- ==== Sys2Proof/Machine/Assembly.lean ====
section
/-! DEFINITION. The assembler's spelling of instructions (spec/30_encoding.md R110): register names, operand order, immediates as
numbers, CSRs by name. The printed operands of branches, jumps and word accesses are the field values. -/

namespace Sys2Proof.Machine

/-- The identifier of a register (spec/10_state.md R30). -/
def Reg.text : Reg → String
  | .zr => "zr"
  | .rp => "rp"
  | .sp => "sp"
  | .x1 => "x1"
  | .x2 => "x2"
  | .x3 => "x3"
  | .t1 => "t1"
  | .t2 => "t2"

/-- A register operand: its identifier, its number with an r, or the bare 0 for zr (R110). -/
def Reg.ofText (t : String) : Option Reg :=
  if t = "zr" ∨ t = "r0" ∨ t = "0" then some .zr
  else if t = "rp" ∨ t = "r1" then some .rp
  else if t = "sp" ∨ t = "r2" then some .sp
  else if t = "x1" ∨ t = "r3" then some .x1
  else if t = "x2" ∨ t = "r4" then some .x2
  else if t = "x3" ∨ t = "r5" then some .x3
  else if t = "t1" ∨ t = "r6" then some .t1
  else if t = "t2" ∨ t = "r7" then some .t2
  else none

/-- The condition names (spec/45_jump_branch.md R227). -/
def Cond.text : Cond → String
  | .c => "c"
  | .s => "s"
  | .z => "z"
  | .nc => "nc"
  | .ns => "ns"
  | .nz => "nz"

/-- A CSR operand: by name where it has one (R110), else its number. -/
def csrText (n : Config.CsrNumbers) (k : BitVec 6) : String :=
  if k = n.ip then "ip"
  else if k = n.fl then "fl"
  else if k = n.pen then "pen"
  else if k = n.ira then "ira"
  else toString k.toNat

/-- The operands of an instruction in the assembler's order (R110): destination or data register first, then sources in field
order, then the immediate; format MEM writes data register, base, offset. A reserved row has no spelling: its fields. -/
def operandTexts (n : Config.CsrNumbers) : Instr → List String
  | .bkpt | .nop | .fence | .ftlb | .rfi | .wfi | .scf | .rscf | .clri | .ret => []
  | .reservedJmpdl064 | .reservedJmpdl0128 => []
  | .reservedJmpdl0Other f => [toString f.toNat]
  | .reservedJmpdFlags rs f | .reservedJmpdlFlags rs f => [Reg.text rs, toString f.toNat]
  | .reservedBrhCond condHi imm => [toString condHi.toNat, toString imm.toInt]
  | .reserved0111100 a b c | .reserved0111101 a b c | .reserved0111110 a b c | .reserved0111111 a b c =>
    [Reg.text a, Reg.text b, Reg.text c]
  | .sysc x => [toString x.toNat]
  | .jmpd rs | .jmpdl rs => [Reg.text rs, "0"]
  | .add rd a b | .addc rd a b | .sub rd a b | .subb rd a b | .slt rd a b | .sltu rd a b => [Reg.text rd, Reg.text a, Reg.text b]
  | .szr rd a b | .ior rd a b | .and rd a b | .xor rd a b => [Reg.text rd, Reg.text a, Reg.text b]
  | .bsld rd a b | .bsrd rd a b | .bsrsd rd a b | .brrd rd a b => [Reg.text rd, Reg.text a, Reg.text b]
  | .addi r imm | .cmpi r imm | .iori r imm | .andi r imm | .xori r imm | .lli r imm => [Reg.text r, toString imm.toInt]
  | .ioriu r imm | .andiu r imm | .biti r imm | .xoriu r imm | .lui r imm => [Reg.text r, toString imm.toNat]
  | .csrr r k | .csrw r k => [Reg.text r, csrText n k]
  | .bsl rd amt rs | .bsr rd amt rs | .bsrs rd amt rs | .brr rd amt rs => [Reg.text rd, Reg.text rs, toString amt.toNat]
  | .jmp imm | .jmpl imm | .prfi imm => [toString imm.toNat]
  | .jmpr imm | .jmprl imm => [toString imm.toInt]
  | .brh cond imm => [Cond.text cond, toString imm.toInt]
  | .mld a imm c | .mldw a imm c | .mst a imm c | .mstw a imm c | .xch a imm c | .xchw a imm c =>
    [Reg.text a, Reg.text c, toString imm.toNat]
  | .mov a b | .neg a b | .cmp a b | .sneg a b | .spos a b | .snez a b => [Reg.text a, Reg.text b]
  | .test r | .inc r | .dec r | .ip r | .cut4 r | .cut8 r | .clrl r | .not r | .not8 r | .clr r => [Reg.text r]
  | .alloc imm => [toString imm.toInt]
  | .prfd imm c | .mclr imm c | .mclrw imm c => [Reg.text c, toString imm.toNat]

/-- The line of assembly of an instruction (R110), the CSRs named by a numbering of them (spec/10_state.md R40). -/
def assembly (n : Config.CsrNumbers) (i : Instr) : String :=
  match operandTexts n i with
  | [] => i.mnemonic
  | ops => i.mnemonic ++ " " ++ String.intercalate ", " ops

end Sys2Proof.Machine
end

