-- ==== Sys2Proof/Tests/Slice0.lean ====
section
/-! SUPPORT. Tests: ill-formed terms, decoded words, one-step vectors, the parameters' other values, the assembler, and a witness
for the hypotheses of every statement that has some. Expected values are those of spec/95_test_vectors.md unless a test says
otherwise; "section" names a section of that file. -/

namespace Sys2Proof.Tests

open Sys2Proof Sys2Proof.Machine

/-! Helpers. -/

/-- A state with pc at 0x0100, the listed registers and the flags c, s, z. -/
def start (regs : List (Reg × Word)) (c s z : Bool) : State :=
  regs.foldl (fun t r => t.setReg r.1 r.2) { State.reset with ip := 0x80, fl := { c := c, s := s, z := z, u := false } }

/-- Bytes put into memory. -/
def bytes (cells : List (Word × Byte)) (s : State) : State := cells.foldl (fun t c => t.writeByte c.1 c.2) s

/-- A register with a load on its way. -/
def pend (r : Reg) (v : Word) (s : State) : State := s.setGpr r { s.gpr r with load := some { value := v, left := 3 } }

/-- pc moved. -/
def from_ (pc : Word) (s : State) : State := s.setPc pc

/-- The outcome is a next state with the property. -/
def goes (o : Outcome) (p : State → Bool) : Bool :=
  match o with
  | .next t => p t
  | .fault _ => false
  | .refused _ => false

/-- The outcome is the fault. -/
def stops (o : Outcome) (f : Fault) : Bool :=
  match o with
  | .next _ => false
  | .fault g => g == f
  | .refused _ => false

/-- The outcome is the refusal. -/
def refuses (o : Outcome) (r : Refusal) : Bool :=
  match o with
  | .next _ => false
  | .fault _ => false
  | .refused q => q == r

/-- A register's value and the flags c, s, z. -/
def rcsz (r : Reg) (v : Word) (c s z : Bool) (t : State) : Bool :=
  t.view r == v && t.fl == { c := c, s := s, z := z, u := t.fl.u }

/-- A register's value and the flags s, z. -/
def rsz (r : Reg) (v : Word) (s z : Bool) (t : State) : Bool := t.view r == v && t.fl.s == s && t.fl.z == z

/-- A register awaits a value. -/
def awaits (r : Reg) (v : Word) (t : State) : Bool :=
  match (t.gpr r).load with
  | some p => p.value == v
  | none => false

/-! Ill-formed terms: each check of WellFormed refuses one. -/

theorem test_illformed_reserved_jmpdl_other_with_listed_bit : (Instr.reservedJmpdl0Other 0x10).wf = false := by decide
theorem test_illformed_jmpd_zr : (Instr.jmpd .zr).wf = false := by decide
theorem test_illformed_jmpdl_zr : (Instr.jmpdl .zr).wf = false := by decide
theorem test_illformed_reserved_jmpd_flags_zr : (Instr.reservedJmpdFlags .zr 1).wf = false := by decide
theorem test_illformed_reserved_jmpd_flags_zero : (Instr.reservedJmpdFlags .x1 0).wf = false := by decide
theorem test_illformed_reserved_jmpdl_flags_zr : (Instr.reservedJmpdlFlags .zr 1).wf = false := by decide
theorem test_illformed_reserved_jmpdl_flags_zero : (Instr.reservedJmpdlFlags .x1 0).wf = false := by decide
theorem test_illformed_add_zr_zr_zr : (Instr.add .zr .zr .zr).wf = false := by decide
theorem test_illformed_addi_zr_0 : (Instr.addi .zr 0).wf = false := by decide
theorem test_illformed_mov_zr_zr : (Instr.mov .zr .zr).wf = false := by decide
theorem test_illformed_test_zr : (Instr.test .zr).wf = false := by decide
/-! Decoding: the bits of each word are written out from the patterns of spec/30_encoding.md, section 3 and 5, and spec/95 section 1.1. -/

theorem test_decode_specials :
    decode 0b0000000000000000 = .bkpt ∧
    decode 0b0000100000000000 = .nop ∧
    decode 0b1011000000000011 = .sysc 3 ∧
    decode 0b1011100000000001 = .fence ∧
    decode 0b1011100000000010 = .ftlb ∧
    decode 0b1011100000000100 = .rfi ∧
    decode 0b1011100000001000 = .wfi ∧
    decode 0b1011100000010000 = .scf ∧
    decode 0b1011100000100000 = .rscf := by decide
theorem test_decode_reserved :
    decode 0b1011100001000000 = .reservedJmpdl064 ∧
    decode 0b1011100010000000 = .reservedJmpdl0128 ∧
    decode 0b1011100000000011 = .reservedJmpdl0Other 3 ∧
    decode 0b1011000100000001 = .reservedJmpdFlags .rp 1 ∧
    decode 0b1011111100000001 = .reservedJmpdlFlags .t2 1 ∧
    decode 0b1100001100000000 = .reservedBrhCond 0 0 ∧
    decode 0b1100011111111111 = .reservedBrhCond 1 0xFF ∧
    decode 0b0111100000000000 = .reserved0111100 .zr .zr .zr ∧
    decode 0b0111101101100101 = .reserved0111101 .x1 .x2 .x3 ∧
    decode 0b0111101110100101 = .reserved0111110 .x1 .x2 .x3 ∧
    decode 0b0111111111111111 = .reserved0111111 .t2 .t2 .t2 := by decide
theorem test_decode_arithmetic :
    decode 0b0000001100100101 = .add .x1 .x2 .x3 ∧
    decode 0b0000001101100101 = .addc .x1 .x2 .x3 ∧
    decode 0b0000001110100101 = .sub .x1 .x2 .x3 ∧
    decode 0b0000001111100101 = .subb .x1 .x2 .x3 ∧
    decode 0b0000110011111110 = .addi .x2 0xFE ∧
    decode 0b0001001100000101 = .cmpi .x1 5 := by decide
theorem test_decode_csr_compare :
    decode 0b0001101100001001 = .csrr .x1 9 ∧
    decode 0b0001101101001001 = .csrw .x1 9 ∧
    decode 0b0001101110100101 = .slt .x1 .x2 .x3 ∧
    decode 0b0001101111100101 = .sltu .x1 .x2 .x3 := by decide
theorem test_decode_logic :
    decode 0b0010001100100101 = .szr .x1 .x2 .x3 ∧
    decode 0b0010001101100101 = .ior .x1 .x2 .x3 ∧
    decode 0b0010001110100101 = .and .x1 .x2 .x3 ∧
    decode 0b0010001111100101 = .xor .x1 .x2 .x3 ∧
    decode 0b0010101111110000 = .iori .x1 0xF0 ∧
    decode 0b0011001110000100 = .ioriu .x1 0x84 ∧
    decode 0b0011101111110000 = .andi .x1 0xF0 ∧
    decode 0b0100001111110000 = .andiu .x1 0xF0 ∧
    decode 0b0100101110000000 = .biti .x1 0x80 ∧
    decode 0b0101001100000001 = .xori .x1 1 ∧
    decode 0b0101101110000000 = .xoriu .x1 0x80 := by decide
theorem test_decode_shift :
    decode 0b0110001100100100 = .bsl .x1 4 .x2 ∧
    decode 0b0110001110100100 = .bsr .x1 4 .x2 ∧
    decode 0b0110101100100100 = .bsrs .x1 4 .x2 ∧
    decode 0b0110101110100100 = .brr .x1 4 .x2 ∧
    decode 0b0111001100100101 = .bsld .x1 .x2 .x3 ∧
    decode 0b0111001101100101 = .bsrd .x1 .x2 .x3 ∧
    decode 0b0111001110100101 = .bsrsd .x1 .x2 .x3 ∧
    decode 0b0111001111100101 = .brrd .x1 .x2 .x3 := by decide
theorem test_decode_load_immediate :
    decode 0b1000001110000000 = .lli .x1 0x80 ∧
    decode 0b1000101100010010 = .lui .x1 0x12 := by decide
theorem test_decode_jump :
    decode 0b1001000000000001 = .jmp 1 ∧
    decode 0b1001111111111111 = .jmpl 0x7FF ∧
    decode 0b1010011111111101 = .jmpr 0x7FD ∧
    decode 0b1010100000000100 = .jmprl 4 ∧
    decode 0b1011001100000000 = .jmpd .x1 ∧
    decode 0b1011100100000000 = .jmpdl .rp ∧
    decode 0b1100100000000001 = .prfi 1 := by decide
theorem test_decode_branch :
    decode 0b1100000000000011 = .brh .c 3 ∧
    decode 0b1100000100000011 = .brh .s 3 ∧
    decode 0b1100001000000011 = .brh .z 3 ∧
    decode 0b1100010000000011 = .brh .nc 3 ∧
    decode 0b1100010100000011 = .brh .ns 3 ∧
    decode 0b1100011011111101 = .brh .nz 0xFD := by decide
theorem test_decode_memory :
    decode 0b1101010000010010 = .mld .x2 2 .sp ∧
    decode 0b1101111000001010 = .mldw .t1 1 .sp ∧
    decode 0b1110001111111010 = .mst .x1 31 .sp ∧
    decode 0b1110101100001010 = .mstw .x1 1 .sp ∧
    decode 0b1111001100000010 = .xch .x1 0 .sp ∧
    decode 0b1111101100001010 = .xchw .x1 1 .sp := by decide
/-! Aliases: the word of the alias, which decodes to the base instruction it names (log 20). -/

theorem test_decode_alias_arithmetic :
    encode (.mov .x1 .x2) = 0b0000001100100000 ∧ decode 0b0000001100100000 = .add .x1 .x2 .zr ∧
    encode (.test .x2) = 0b0000000000100000 ∧ decode 0b0000000000100000 = .add .zr .x2 .zr ∧
    encode (.neg .x1 .x2) = 0b0000001110000100 ∧ decode 0b0000001110000100 = .sub .x1 .zr .x2 ∧
    encode (.cmp .x1 .x2) = 0b0000000010011100 ∧ decode 0b0000000010011100 = .sub .zr .x1 .x2 ∧
    encode (.inc .x1) = 0b0000101100000001 ∧ decode 0b0000101100000001 = .addi .x1 1 ∧
    encode (.dec .x1) = 0b0000101111111111 ∧ decode 0b0000101111111111 = .addi .x1 0xFF ∧
    encode (.alloc 0xFE) = 0b0000101011111110 ∧ decode 0b0000101011111110 = .addi .sp 0xFE := by decide
theorem test_decode_alias_compare :
    encode (.sneg .x1 .x2) = 0b0001101110100000 ∧ decode 0b0001101110100000 = .slt .x1 .x2 .zr ∧
    encode (.spos .x1 .x2) = 0b0001101110000100 ∧ decode 0b0001101110000100 = .slt .x1 .zr .x2 ∧
    encode (.snez .x1 .x2) = 0b0001101111000100 ∧ decode 0b0001101111000100 = .sltu .x1 .zr .x2 := by decide
theorem test_decode_alias_logic :
    encode (.cut4 .x1) = 0b0100001100001111 ∧ decode 0b0100001100001111 = .andiu .x1 0x0F ∧
    encode (.cut8 .x1) = 0b0100001111111111 ∧ decode 0b0100001111111111 = .andiu .x1 0xFF ∧
    encode (.clrl .x1) = 0b0100001100000000 ∧ decode 0b0100001100000000 = .andiu .x1 0 ∧
    encode (.not .x1) = 0b0101001111111111 ∧ decode 0b0101001111111111 = .xori .x1 0xFF ∧
    encode (.not8 .x1) = 0b0101101111111111 ∧ decode 0b0101101111111111 = .xoriu .x1 0xFF := by decide
theorem test_decode_alias_other :
    encode (.clr .x1) = 0b1000101100000000 ∧ decode 0b1000101100000000 = .lui .x1 0 ∧
    encode (.ret) = 0b1011000100000000 ∧ decode 0b1011000100000000 = .jmpd .rp ∧
    encode (.prfd 3 .sp) = 0b1101100000011010 ∧ decode 0b1101100000011010 = .mldw .zr 3 .sp ∧
    encode (.mclr 0 .sp) = 0b1110000000000010 ∧ decode 0b1110000000000010 = .mst .zr 0 .sp ∧
    encode (.mclrw 2 .sp) = 0b1110100000010010 ∧ decode 0b1110100000010010 = .mstw .zr 2 .sp := by decide
/-- `ip x1` is `csrr x1, ip`, whatever the number of the CSR. -/
theorem test_decode_ip : encode (.ip .x1) = 0b00011#5 ++ 0b011#3 ++ 0b00#2 ++ Config.csrIp ∧
    (Instr.ip .x1).core = .csrr .x1 Config.csrIp := ⟨rfl, rfl⟩
/-- `clri` is `csrw zr, pen`, whatever the number of the CSR. -/
theorem test_decode_clri : encode .clri = 0b00011#5 ++ 0b000#3 ++ 0b01#2 ++ Config.csrPen ∧
    Instr.clri.core = .csrw .zr Config.csrPen := ⟨rfl, rfl⟩
theorem test_decode_table_word :
    decodeTableWord 16 0x0325 = some (.add .x1 .x2 .x3) ∧ decodeTableWord 16 0xFFFF = some (.xchw .t2 31 .t2) := by decide
theorem test_table_mnemonic :
    tableMnemonic 0x0325 = some "add" ∧ tableMnemonic 0x0000 = some "bkpt" ∧ tableMnemonic 0xB803 = some "reserved_jmpdl_0_other" := by decide
theorem test_alias_family_member : Laws.AliasOf.Statement (.mov .x1 .x2) := Laws.AliasOf.mov .x1 .x2
/-! Arithmetic (section 2.1). -/

theorem test_add_carry :
    goes (exec (.add .x1 .x2 .x3) (start [(.x2, 0xFFFF), (.x3, 0x0002)] false false false)) (rcsz .x1 0x0001 true false false) = true := by decide
theorem test_addc_three_terms :
    goes (exec (.addc .x1 .x2 .x3) (start [(.x2, 0xFFFF), (.x3, 0xFFFF)] true false false)) (rcsz .x1 0xFFFF true true false) = true := by decide
theorem test_addc_no_carry :
    goes (exec (.addc .x1 .x2 .x3) (start [(.x2, 0x0001), (.x3, 0x0002)] false false false)) (rcsz .x1 0x0003 false false false) = true := by decide
theorem test_sub_borrow :
    goes (exec (.sub .x1 .x2 .x3) (start [(.x2, 0x0003), (.x3, 0x0005)] false false false)) (rcsz .x1 0xFFFE false true false) = true := by decide
theorem test_sub_equal :
    goes (exec (.sub .x1 .x2 .x3) (start [(.x2, 0x0005), (.x3, 0x0005)] false false false)) (rcsz .x1 0x0000 true false true) = true := by decide
theorem test_subb_borrow_in :
    goes (exec (.subb .x1 .x2 .x3) (start [(.x2, 0x0005), (.x3, 0x0003)] false false false)) (rcsz .x1 0x0001 true false false) = true := by decide
theorem test_subb_wraps :
    goes (exec (.subb .x1 .x2 .x3) (start [(.x2, 0x0003), (.x3, 0x0003)] false false false)) (rcsz .x1 0xFFFF false true false) = true := by decide
theorem test_addi_negative :
    goes (exec (.addi .x2 0xFF) (start [(.x2, 0x0001)] false false false)) (rcsz .x2 0x0000 true false true) = true := by decide
theorem test_addi_positive :
    goes (exec (.addi .x1 0x7F) (start [(.x1, 0x7FFF)] false false false)) (rcsz .x1 0x807E false true false) = true := by decide
theorem test_cmpi_below :
    goes (exec (.cmpi .x1 5) (start [(.x1, 0x0004)] false false false)) (rcsz .x1 0x0004 false true false) = true := by decide
theorem test_cmpi_negative :
    goes (exec (.cmpi .x1 0xFF) (start [(.x1, 0x0000)] false false false)) (rcsz .x1 0x0000 false false false) = true := by decide
theorem test_bkpt : stops (exec .bkpt (start [] false true false)) .breakpoint = true := by decide
theorem test_nop_keeps_flags :
    goes (exec .nop (start [] true false true)) (fun t => t == ((start [] true false true)).setPc 0x0102) = true := by decide
theorem test_mov :
    goes (exec (.mov .x1 .sp) (start [(.sp, 0x8000)] false false false)) (rcsz .x1 0x8000 false true false) = true := by decide
theorem test_test_zero :
    goes (exec (.test .x1) (start [(.x1, 0x0000)] false false false)) (rcsz .x1 0x0000 false false true) = true := by decide
theorem test_neg_minimum :
    goes (exec (.neg .x1 .x2) (start [(.x2, 0x8000)] false false false)) (rcsz .x1 0x8000 false true false) = true := by decide
theorem test_neg_zero :
    goes (exec (.neg .x1 .x2) (start [(.x2, 0x0000)] false false false)) (rcsz .x1 0x0000 true false true) = true := by decide
theorem test_cmp_below :
    goes (exec (.cmp .x1 .x2) (start [(.x1, 0x0002), (.x2, 0x0003)] false false false)) (rcsz .x1 0x0002 false true false) = true := by decide
theorem test_inc_wraps :
    goes (exec (.inc .x1) (start [(.x1, 0xFFFF)] false false false)) (rcsz .x1 0x0000 true false true) = true := by decide
theorem test_dec_zero :
    goes (exec (.dec .x2) (start [(.x2, 0x0000)] false false false)) (rcsz .x2 0xFFFF false true false) = true := by decide
theorem test_alloc :
    goes (exec (.alloc 0xFE) (start [(.sp, 0x8000)] false false false)) (rcsz .sp 0x7FFE true false false) = true := by decide
theorem test_add_pending_destination :
    stops (exec (.add .x1 .x2 .x3) (pend .x1 0xAAAA (start [(.x2, 0x0001), (.x3, 0x0002)] false false false))) (.asyncWriteFault .x1) = true := by decide
/-! CSR access and set-if-less-than (section 2.2). The CSR numbers are open, so these are proved with the laws of the CSRs. -/

theorem test_csrr_ip : goes (exec (.csrr .x1 Config.csrIp) (start [] false false false)) (fun t => t.view .x1 == 0x0102) = true := by
  simp only [exec, execCsrr, csrrOp, withCsr_csrIp]
  decide
theorem test_csrr_fl : goes (exec (.csrr .x1 Config.csrFl) (start [] true false true)) (fun t => t.view .x1 == 0x0005) = true := by
  simp only [exec, execCsrr, csrrOp, withCsr_csrFl]
  decide
theorem test_csrw_fl : goes (exec (.csrw .x1 Config.csrFl) (start [(.x1, 0xFFF2)] true false true))
    (fun t => t.fl == { c := false, s := true, z := false, u := false }) = true := by
  simp only [exec, execCsrw, csrwOp, withSource_eq, writeCsr_csrFl]
  decide
theorem test_csrw_pen_refused :
    refuses (exec (.csrw .x1 Config.csrPen) (start [(.x1, 1)] false false false)) (.csrPenWrite 1) = true := by
  simp only [exec, execCsrw, csrwOp, withSource_eq, writeCsr_csrPen]
  decide
theorem test_ip : goes (exec (.ip .x1) (start [] false false false)) (fun t => t.view .x1 == 0x0102) = true := by
  simp only [exec, execIp, csrrOp, withCsr_csrIp]
  decide
theorem test_clri : goes (exec .clri { start [] true false false with pendingInterrupts := [2, 5] })
    (fun t => t.pendingInterrupts == [] && t.fl.c) = true := by
  simp only [exec, execClri, csrwOp, withSource_eq, writeCsr_csrPen]
  decide
theorem test_slt_signed :
    goes (exec (.slt .x1 .x2 .x3) (start [(.x2, 0xFFFF), (.x3, 0x0001)] false false false)) (fun t => t.view .x1 == 0x0001) = true := by decide
theorem test_slt_overflow :
    goes (exec (.slt .x1 .x2 .x3) (start [(.x2, 0x7FFF), (.x3, 0x8000)] false false false)) (fun t => t.view .x1 == 0x0000) = true := by decide
theorem test_sltu_unsigned :
    goes (exec (.sltu .x1 .x2 .x3) (start [(.x2, 0xFFFF), (.x3, 0x0001)] false false false)) (fun t => t.view .x1 == 0x0000) = true := by decide
theorem test_sltu_below :
    goes (exec (.sltu .x1 .x2 .x3) (start [(.x2, 0x0001), (.x3, 0xFFFF)] false false false)) (fun t => t.view .x1 == 0x0001) = true := by decide
theorem test_sneg :
    goes (exec (.sneg .x1 .x2) (start [(.x2, 0x8000)] false false false)) (fun t => t.view .x1 == 0x0001) = true := by decide
theorem test_spos_minimum :
    goes (exec (.spos .x1 .x2) (start [(.x2, 0x8000)] false false false)) (fun t => t.view .x1 == 0x0000) = true := by decide
theorem test_spos_maximum :
    goes (exec (.spos .x1 .x2) (start [(.x2, 0x7FFF)] false false false)) (fun t => t.view .x1 == 0x0001) = true := by decide
theorem test_snez :
    goes (exec (.snez .x1 .x2) (start [(.x2, 0x8000)] false false false)) (fun t => t.view .x1 == 0x0001) = true := by decide
/-! Select and logic (section 2.3). -/

theorem test_szr_taken :
    goes (exec (.szr .x1 .x2 .x3) (start [(.x1, 0x1111), (.x2, 0x2222), (.x3, 0x0000)] false false false)) (fun t => t.view .x1 == 0x2222) = true := by decide
theorem test_szr_not_taken :
    goes (exec (.szr .x1 .x2 .x3) (start [(.x1, 0x1111), (.x2, 0x2222), (.x3, 0x0001)] false false false)) (fun t => t.view .x1 == 0x1111) = true := by decide
theorem test_ior :
    goes (exec (.ior .x1 .x2 .x3) (start [(.x2, 0x00F0), (.x3, 0x0F00)] false false false)) (rsz .x1 0x0FF0 false false) = true := by decide
theorem test_and :
    goes (exec (.and .x1 .x2 .x3) (start [(.x2, 0xF000), (.x3, 0x0FFF)] false false false)) (rsz .x1 0x0000 false true) = true := by decide
theorem test_xor :
    goes (exec (.xor .x1 .x2 .x3) (start [(.x2, 0xFFFF), (.x3, 0x00FF)] false false false)) (rsz .x1 0xFF00 true false) = true := by decide
theorem test_iori_sign_extends :
    goes (exec (.iori .x1 0xF0) (start [(.x1, 0x0005)] false false false)) (rsz .x1 0xFFF5 true false) = true := by decide
theorem test_ioriu_zero_extends :
    goes (exec (.ioriu .x1 0x84) (start [(.x1, 0x1200)] false false false)) (rsz .x1 0x1284 false false) = true := by decide
theorem test_andi_sign_extends :
    goes (exec (.andi .x1 0xF0) (start [(.x1, 0x12FF)] false false false)) (rsz .x1 0x12F0 false false) = true := by decide
theorem test_andiu_zero_extends :
    goes (exec (.andiu .x1 0xF0) (start [(.x1, 0xFF0F)] false false false)) (rsz .x1 0x0000 false true) = true := by decide
theorem test_biti_low_byte_only :
    goes (exec (.biti .x1 0xFF) (start [(.x1, 0x8000)] false false false)) (rsz .x1 0x8000 false true) = true := by decide
theorem test_xori :
    goes (exec (.xori .x1 1) (start [(.x1, 0x0001)] false false false)) (rsz .x1 0x0000 false true) = true := by decide
theorem test_xoriu :
    goes (exec (.xoriu .x1 0xFF) (start [(.x1, 0x12F0)] false false false)) (rsz .x1 0x120F false false) = true := by decide
theorem test_cut4 :
    goes (exec (.cut4 .x1) (start [(.x1, 0xABCD)] false false false)) (rsz .x1 0x000D false false) = true := by decide
theorem test_cut8 :
    goes (exec (.cut8 .x1) (start [(.x1, 0xABCD)] false false false)) (rsz .x1 0x00CD false false) = true := by decide
theorem test_clrl :
    goes (exec (.clrl .x1) (start [(.x1, 0xABCD)] false false false)) (rsz .x1 0x0000 false true) = true := by decide
theorem test_not :
    goes (exec (.not .x1) (start [(.x1, 0x00FF)] false false false)) (rsz .x1 0xFF00 true false) = true := by decide
theorem test_not8 :
    goes (exec (.not8 .x1) (start [(.x1, 0x12F0)] false false false)) (rsz .x1 0x120F false false) = true := by decide
/-! Shifts (section 2.4). -/

theorem test_bsl :
    goes (exec (.bsl .x1 15 .x2) (start [(.x2, 0x0003)] false false false)) (fun t => t.view .x1 == 0x8000) = true := by decide
theorem test_bsr :
    goes (exec (.bsr .x1 4 .x2) (start [(.x2, 0x8234)] false false false)) (fun t => t.view .x1 == 0x0823) = true := by decide
theorem test_bsrs_negative :
    goes (exec (.bsrs .x1 4 .x2) (start [(.x2, 0x8234)] false false false)) (fun t => t.view .x1 == 0xF823) = true := by decide
theorem test_bsrs_positive :
    goes (exec (.bsrs .x1 15 .x2) (start [(.x2, 0x7FFF)] false false false)) (fun t => t.view .x1 == 0x0000) = true := by decide
theorem test_brr_15 :
    goes (exec (.brr .x1 15 .x2) (start [(.x2, 0x1234)] false false false)) (fun t => t.view .x1 == 0x2468) = true := by decide
theorem test_brr_0 :
    goes (exec (.brr .x1 0 .x2) (start [(.x2, 0x1234)] false false false)) (fun t => t.view .x1 == 0x1234) = true := by decide
theorem test_bsld_low_four_bits :
    goes (exec (.bsld .x1 .x2 .x3) (start [(.x2, 0x1234), (.x3, 0xFFF4)] false false false)) (fun t => t.view .x1 == 0x2340) = true := by decide
theorem test_bsld_sixteen :
    goes (exec (.bsld .x1 .x2 .x3) (start [(.x2, 0x1234), (.x3, 0x0010)] false false false)) (fun t => t.view .x1 == 0x1234) = true := by decide
theorem test_bsrd :
    goes (exec (.bsrd .x1 .x2 .x3) (start [(.x2, 0x8000), (.x3, 0x0013)] false false false)) (fun t => t.view .x1 == 0x1000) = true := by decide
theorem test_bsrsd :
    goes (exec (.bsrsd .x1 .x2 .x3) (start [(.x2, 0x8000), (.x3, 0x0003)] false false false)) (fun t => t.view .x1 == 0xF000) = true := by decide
theorem test_brrd :
    goes (exec (.brrd .x1 .x2 .x3) (start [(.x2, 0x1234), (.x3, 0x000C)] false false false)) (fun t => t.view .x1 == 0x2341) = true := by decide
/-! Load immediate (section 2.5). -/

theorem test_lli_keeps_flags :
    goes (exec (.lli .x1 0x80) (start [(.x1, 0x1111)] false true false)) (rcsz .x1 0xFF80 false true false) = true := by decide
theorem test_lui_whole_register :
    goes (exec (.lui .x1 0xFF) (start [(.x1, 0x00AA)] true false true)) (rcsz .x1 0xFF00 true false true) = true := by decide
theorem test_clr :
    goes (exec (.clr .x1) (start [(.x1, 0xABCD)] false true false)) (rcsz .x1 0x0000 false true false) = true := by decide
/-! Jumps, branches, prefetch (section 2.6). -/

theorem test_jmp : goes (exec (.jmp 0x7FF) (start [] false false false)) (fun t => t.pc == 0xFFE0) = true := by decide
theorem test_jmpl :
    goes (exec (.jmpl 1) (from_ 0x0004 (start [] false false false))) (fun t => t.pc == 0x0020 && t.view .rp == 0x0006) = true := by decide
theorem test_jmpr_backward :
    goes (exec (.jmpr 0x7FD) (from_ 0x0008 (start [] false false false))) (fun t => t.pc == 0x0004) = true := by decide
theorem test_jmpr_wraps :
    goes (exec (.jmpr 3) (from_ 0xFFFC (start [] false false false))) (fun t => t.pc == 0x0004) = true := by decide
theorem test_jmprl :
    goes (exec (.jmprl 4) (from_ 0x0010 (start [] false false false))) (fun t => t.pc == 0x001A && t.view .rp == 0x0012) = true := by decide
theorem test_jmpd_odd :
    goes (exec (.jmpd .x1) (start [(.x1, 0x1235)] false false false)) (fun t => t.pc == 0x1234) = true := by decide
theorem test_jmpd_pending :
    goes (exec (.jmpd .x1) (pend .x1 0x0400 (start [] false false false))) (fun t => t.pc == 0x0400 && t.resolved .x1) = true := by decide
theorem test_jmpdl_rp :
    goes (exec (.jmpdl .rp) (from_ 0x0040 (start [(.rp, 0x3000)] false false false))) (fun t => t.pc == 0x3000 && t.view .rp == 0x0042) = true := by decide
theorem test_ret : goes (exec (.ret) (start [(.rp, 0x0006)] false false false)) (fun t => t.pc == 0x0006) = true := by decide
theorem test_brh_taken :
    goes (exec (.brh .z 0x80) (from_ 0x0200 (start [] false false true))) (fun t => t.pc == 0x0102) = true := by decide
theorem test_brh_not_taken :
    goes (exec (.brh .nz 0xFD) (from_ 0x0008 (start [] true false true))) (fun t => t.pc == 0x000A) = true := by decide
theorem test_prfi : goes (exec (.prfi 0x7FF) (start [] true false true)) (fun t => t.pc == 0x0102) = true := by decide
/-! System instructions (section 2.7). -/

theorem test_sysc : stops (exec (.sysc 255) (start [] false false false)) (.syscall 255) = true := by decide
theorem test_fence :
    goes (exec .fence (pend .x1 0x1234 (start [] false false false))) (fun t => t.resolved .x1 && t.view .x1 == 0x1234) = true := by decide
theorem test_ftlb : goes (exec (.ftlb) (start [] true false true)) (fun t => t.pc == 0x0102) = true := by decide
theorem test_rfi : stops (exec .rfi (start [] false false false)) .returnFromInterrupt = true := by decide
theorem test_wfi : stops (exec .wfi (start [] false false false)) .waitForInterrupt = true := by decide
/-- A `wfi` that finds one interrupt pending takes it (spec/46_system.md R244). -/
theorem test_wfi_pending :
    exec .wfi { start [] false false false with pendingInterrupts := [4] } = .fault (.interrupt 4) := by
  simp [exec, execWfi, wfiOp, takenInterrupt, Nat.mod_one, raise]
theorem test_scf : goes (exec (.scf) (start [] false true false)) (rcsz .x1 0x0000 true true false) = true := by decide
theorem test_rscf : goes (exec (.rscf) (start [] true true false)) (rcsz .x1 0x0000 false true false) = true := by decide
/-! Reserved words (sections 2.4, 2.6, 2.7), by one step from the word in memory. -/

theorem test_reserved_jmpdl_0_64 :
    stops (step ((start [] false false false).withFetchWord 16 0xB840)) (.reservedInstruction 0xB840) = true := by decide
theorem test_reserved_jmpdl_0_128 :
    stops (step ((start [] false false false).withFetchWord 16 0xB880)) (.reservedInstruction 0xB880) = true := by decide
theorem test_reserved_jmpdl_0_other :
    stops (step ((start [] false false false).withFetchWord 16 0xB803)) (.reservedInstruction 0xB803) = true := by decide
theorem test_reserved_jmpd_flags :
    stops (step ((start [] false false false).withFetchWord 16 0xB301)) (.reservedInstruction 0xB301) = true := by decide
theorem test_reserved_jmpdl_flags :
    stops (step ((start [] false false false).withFetchWord 16 0xBB01)) (.reservedInstruction 0xBB01) = true := by decide
theorem test_reserved_brh_cond :
    stops (step ((start [] false false false).withFetchWord 16 0xC7FF)) (.reservedInstruction 0xC7FF) = true := by decide
theorem test_reserved_01111_00 :
    stops (step ((start [] false false false).withFetchWord 16 0x7800)) (.reservedInstruction 0x7800) = true := by decide
theorem test_reserved_01111_01 :
    stops (step ((start [] false false false).withFetchWord 16 0x7B65)) (.reservedInstruction 0x7B65) = true := by decide
theorem test_reserved_01111_10 :
    stops (step ((start [] false false false).withFetchWord 16 0x7BA5)) (.reservedInstruction 0x7BA5) = true := by decide
theorem test_reserved_01111_11 :
    stops (step ((start [] false false false).withFetchWord 16 0x7FFF)) (.reservedInstruction 0x7FFF) = true := by decide
/-! Memory (section 2.8). -/

theorem test_mld_sign_extends :
    goes (exec (.mld .x2 2 .sp) (bytes [(0x8002, 0x84)] (start [(.sp, 0x8000)] false false false))) (fun t => awaits .x2 0xFF84 t) = true := by decide
theorem test_mld_wraps :
    goes (exec (.mld .x2 31 .sp) (bytes [(0x000F, 0x01)] (start [(.sp, 0xFFF0)] false false false))) (fun t => awaits .x2 0x0001 t) = true := by decide
theorem test_mldw_little_endian :
    goes (exec (.mldw .t1 1 .sp) (bytes [(0x8002, 0x84), (0x8003, 0x12)] (start [(.sp, 0x8000)] false false false))) (fun t => awaits .t1 0x1284 t) = true := by decide
theorem test_mldw_odd :
    stops (exec (.mldw .t1 1 .sp) (bytes [(0x8003, 0x84), (0x8004, 0x12)] (start [(.sp, 0x8001)] false false false))) (.misalignedAccess 0x8003) = true := by decide
theorem test_mst_low_byte :
    goes (exec (.mst .x1 31 .sp) (start [(.x1, 0x12AA), (.sp, 0xFFFF)] false false false)) (fun t => t.readByte 0x001E == some 0xAA) = true := by decide
theorem test_mstw_top_of_memory :
    goes (exec (.mstw .x1 0 .sp) (start [(.x1, 0xBEEF), (.sp, 0xFFFE)] false false false)) (fun t => t.readByte 0xFFFE == some 0xEF && t.readByte 0xFFFF == some 0xBE) = true := by decide
theorem test_mstw_pending_source :
    goes (exec (.mstw .x1 0 .sp) (pend .x1 0x5555 (start [(.sp, 0x8000)] false false false))) (fun t => t.readByte 0x8000 == some 0x55 && t.resolved .x1) = true := by decide
theorem test_xch :
    goes (exec (.xch .x1 0 .sp) (bytes [(0x8000, 0x80)] (start [(.x1, 0x0001), (.sp, 0x8000)] false false false))) (fun t => awaits .x1 0xFF80 t && t.readByte 0x8000 == some 0x01) = true := by decide
theorem test_xch_zr :
    goes (exec (.xch .zr 0 .sp) (bytes [(0x8000, 0x80)] (start [(.sp, 0x8000)] false false false))) (fun t => t.readByte 0x8000 == some 0x00) = true := by decide
theorem test_xchw_base_is_data :
    goes (exec (.xchw .t2 31 .t2) (bytes [(0x803E, 0x11), (0x803F, 0x22)] (start [(.t2, 0x8000)] false false false))) (fun t => awaits .t2 0x2211 t && t.readByte 0x803F == some 0x80) = true := by decide
theorem test_xchw_odd :
    stops (exec (.xchw .x1 0 .sp) (bytes [(0x8001, 0x00), (0x8002, 0x00)] (start [(.x1, 0x0001), (.sp, 0x8001)] false false false))) (.misalignedAccess 0x8001) = true := by decide
theorem test_prfd_odd :
    goes (exec (.prfd 3 .sp) (start [(.sp, 0x8001)] false false false)) (fun t => t.pc == 0x0102 && t.mem == []) = true := by decide
theorem test_mclr :
    goes (exec (.mclr 0 .sp) (bytes [(0x8000, 0x55)] (start [(.sp, 0x8000)] false false false))) (fun t => t.readByte 0x8000 == some 0x00) = true := by decide
theorem test_mclrw :
    goes (exec (.mclrw 2 .sp) (bytes [(0x8004, 0x55), (0x8005, 0x66)] (start [(.sp, 0x8000)] false false false))) (fun t => t.readByte 0x8004 == some 0x00 && t.readByte 0x8005 == some 0x00) = true := by decide
theorem test_mld_unset :
    stops (exec (.mld .x2 0 .sp) (start [(.sp, 0x8000)] false false false)) (.unsetRead 0x8000) = true := by decide
/-- A store into the loaded image is refused (section 3, last paragraph; spec/20_memory.md R70). -/
theorem test_store_into_code : refuses (exec (.mst .zr 0 .zr) ((start [] false false false).loadImage 0 [some 0x00, some 0xE0]))
    (.storeIntoCode 0) = true := by decide
/-! One step: memory side, fetch, decode, execution. -/

theorem test_step_fetches_little_endian :
    goes (step (bytes [(0x0100, 0x25), (0x0101, 0x03)] (start [(.x2, 0x0001), (.x3, 0x0002)] false false false))) (fun t => t.view .x1 == 3 && t.pc == 0x0102) = true := by decide
theorem test_step_with_fetch_word :
    goes (step (State.reset.withFetchWord 16 0x8405)) (fun t => t.view .x2 == 5 && t.pc == 2) = true := by decide
theorem test_step_lets_a_due_load_arrive :
    goes (step ((State.reset.setGpr .x1 { val := 0, load := some { value := 7, left := 0 } }).withFetchWord 16 0x0800)) (fun t => t.gpr .x1 == { val := 7, load := none }) = true := by decide
theorem test_step_without_program : stops (step State.reset) (.unsetRead 0) = true := by decide
/-! The other values of the parameters (section 5), and the CSRs at the placeholder numbers 0 to 3 of that file (section 2.2). -/

/-- The parameters, but with the CSR numbers that spec/95_test_vectors.md uses. -/
def conf : Config.Params := { Config.params with csr := { ip := 0, fl := 1, pen := 2, ira := 3 } }

theorem test_sub_carry_borrow :
    goes (execWith { conf with subCarry := .borrow } (.sub .x1 .x2 .x3) (start [(.x2, 0x0003), (.x3, 0x0005)] false false false)) (rcsz .x1 0xFFFE true true false) = true := by decide
theorem test_sub_carry_borrow_equal :
    goes (execWith { conf with subCarry := .borrow } (.sub .x1 .x2 .x3) (start [(.x2, 0x0005), (.x3, 0x0005)] false false false)) (rcsz .x1 0 false false true) = true := by decide
theorem test_sub_carry_borrow_cmpi :
    goes (execWith { conf with subCarry := .borrow } (.cmpi .x1 5) (start [(.x1, 0x0004)] false false false)) (rcsz .x1 4 true true false) = true := by decide
theorem test_sub_carry_borrow_subb :
    goes (execWith { conf with subCarry := .borrow } (.subb .x1 .x2 .x3) (start [(.x2, 0x0005), (.x3, 0x0003)] false false false)) (rcsz .x1 1 false false false) = true := by decide
theorem test_slt_sign_of_difference :
    goes (execWith { conf with sltMode := .signOfDifference } (.slt .x1 .x2 .x3) (start [(.x2, 0x8000), (.x3, 0x0001)] false false false)) (fun t => t.view .x1 == 0) = true := by decide
theorem test_slt_sign_of_difference_positive :
    goes (execWith { conf with sltMode := .signOfDifference } (.slt .x1 .x2 .x3) (start [(.x2, 0x7FFF), (.x3, 0x8000)] false false false)) (fun t => t.view .x1 == 1) = true := by decide
theorem test_spos_sign_of_difference :
    goes (execWith { conf with sltMode := .signOfDifference } (.spos .x1 .x2) (start [(.x2, 0x8000)] false false false)) (fun t => t.view .x1 == 1) = true := by decide
theorem test_jmpr_from_current :
    goes (execWith { conf with relBase := .current } (.jmpr 0x7FD) (from_ 0x0008 State.reset)) (fun t => t.pc == 0x0002) = true := by decide
theorem test_jmprl_from_current :
    goes (execWith { conf with relBase := .current } (.jmprl 4) (from_ 0x0010 State.reset)) (fun t => t.pc == 0x0018 && t.view .rp == 0x0012) = true := by decide
theorem test_brh_from_current :
    goes (execWith { conf with relBase := .current } (.brh .nz 0xFD) (from_ 0x0008 State.reset)) (fun t => t.pc == 0x0002) = true := by decide
theorem test_csr_ip_value_current :
    goes (execWith { conf with csrIpValue := .current } (.csrr .x1 0) (start [] false false false)) (fun t => t.view .x1 == 0x0100) = true := by decide
theorem test_logic_carry_unchanged :
    goes (execWith { conf with logicCarry := .unchanged } (.ior .x1 .x2 .x3) (start [(.x2, 0x00F0), (.x3, 0x0F00)] true false false)) (rcsz .x1 0x0FF0 true false false) = true := by decide
theorem test_logic_carry_cleared :
    goes (execWith { conf with logicCarry := .cleared } (.ior .x1 .x2 .x3) (start [(.x2, 0x00F0), (.x3, 0x0F00)] true false false)) (rcsz .x1 0x0FF0 false false false) = true := by decide
theorem test_other_alu_flags_unchanged :
    goes (execWith { conf with flagsOtherAlu := .unchanged } (.bsl .x1 4 .x2) (start [(.x2, 0x1234)] true false false)) (rcsz .x1 0x2340 true false false) = true := by decide
theorem test_other_alu_flags_from_result :
    goes (execWith { conf with flagsOtherAlu := .fromResult } (.bsl .x1 15 .x2) (start [(.x2, 0x0003)] false false false)) (rsz .x1 0x8000 true false) = true := by decide
theorem test_shift_amount_refused :
    refuses (execWith { conf with shiftAmountMode := .refuseGe16 } (.bsld .x1 .x2 .x3) (start [(.x2, 0x1234), (.x3, 0x0010)] false false false)) (.shiftAmountTooLarge 0x0010) = true := by decide
theorem test_misaligned_ignores_bit_0 :
    goes (execWith { conf with misalignedWord := .ignoreBit0 } (.mldw .t1 1 .sp) (bytes [(0x8002, 0x84), (0x8003, 0x12)] (start [(.sp, 0x8001)] false false false))) (awaits .t1 0x1284) = true := by decide
theorem test_fetch_order_big :
    goes (stepWith { conf with ifetchOrder := .big } (bytes [(0, 0x83), (1, 0x00)] State.reset)) (fun t => t.pc == 2 && t.view .x1 == 0) = true ∧ assembleWord .big 0x83 0x00 = 0x8300 ∧ assembleWord .little 0x83 0x00 = 0x0083 := by decide
theorem test_mmio_refused :
    refuses (execWith { conf with mmio := [{ base := 0x8000, size := 2 }] } (.mst .x1 1 .sp) (start [(.sp, 0x8000)] false false false)) (.mmioAccess 0x8001) = true := by decide
theorem test_reset_pc : (State.resetWith { conf with resetPc := 0x80 }).pc = 0x0100 := by decide
theorem test_wfi_holds_when_an_interrupt_can_arrive :
    goes (execWith { conf with interrupts := .any } .wfi (start [(.x1, 0x0001)] false false false)) (fun t => t == (start [(.x1, 0x0001)] false false false)) = true := by decide
theorem test_csrr_fl_placeholder :
    goes (execWith conf (.csrr .x1 1) (start [] true false true)) (fun t => t.view .x1 == 5) = true := by decide
theorem test_csrw_fl_placeholder :
    goes (execWith conf (.csrw .x1 1) (start [(.x1, 0xFFF2)] true false true)) (rcsz .x1 0xFFF2 false true false) = true := by decide
theorem test_csr_alias_words_placeholder :
    encodeWith conf.csr (.ip .x1) = 0x1B00 ∧ encodeWith conf.csr .clri = 0x1842 ∧ (Instr.ip .x1).coreWith conf.csr = .csrr .x1 0 ∧ assembly conf.csr (.csrw .x1 1) = "csrw x1, fl" ∧ image conf [.instr .clri] = [some 0x42, some 0x18] := by decide
theorem test_image_is_not_aligned :
    image { conf with ifetchOrder := .big } [.data (.value .u8 1), .data (.value .u16 0x0302), .instr (.lli .x1 0)] = [some 1, some 2, some 3, some 0x83, some 0x00] := by decide
theorem test_fetch_word_big :
    goes (stepWith { conf with ifetchOrder := .big } (State.withFetchWordWith { conf with ifetchOrder := .big } State.reset 16 0x8405)) (fun t => t.view .x2 == 5) = true := by decide
theorem test_csr_refusals_placeholder :
    refuses (execWith conf (.csrr .x1 2) (start [] false false false)) .csrPenRead = true ∧ refuses (execWith conf (.csrr .x1 3) (start [] false false false)) .csrIraAccess = true ∧ refuses (execWith conf (.csrw .x1 0) (start [] false false false)) .csrIpWrite = true ∧ refuses (execWith conf (.csrr .x1 5) (start [] false false false)) (.unassignedCsr 5) = true := by decide
/-! Data directives and the assembler (section 1.3; spec/30_encoding.md R110, R112). -/

theorem test_directive_u16 : (Directive.value .u16 4740).emit = [some 0x84, some 0x12] := by decide
theorem test_directive_i24 : (Directive.value .i24 (-8388608)).emit = [some 0x00, some 0x00, some 0x80] := by decide
theorem test_directive_ranges :
    DataType.u8.holds 255 = true ∧ DataType.u8.holds 256 = false ∧ DataType.i8.holds (-128) = true ∧ DataType.i8.holds 128 = false := by decide
theorem test_directive_ascii :
    (Directive.ascii ['C', 's', 't', 'r'] (some 0)).emit = [some 0x43, some 0x73, some 0x74, some 0x72, some 0] := by decide
theorem test_directive_reserve : (Directive.reserve .u16 (some 2)).emit = [none, none, none, none] := by decide
theorem test_image_of_program :
    image Config.params [.instr (.lli .x1 0), .data (.value .u8 255)] = [some 0x00, some 0x83, some 0xFF] := by decide
theorem test_assembly :
    assembly Config.csrNumbers (.add .x1 .x2 .x3) = "add x1, x2, x3" ∧ assembly Config.csrNumbers (.bsl .x1 4 .x2) = "bsl x1, x2, 4" ∧ assembly Config.csrNumbers (.mld .x2 2 .sp) = "mld x2, sp, 2" ∧ assembly Config.csrNumbers (.addi .x2 0xFF) = "addi x2, -1" := by decide
theorem test_register_names : Reg.ofText "r5" = some .x3 ∧ Reg.ofText "0" = some .zr ∧ Reg.ofText "r8" = none := by decide

/-! Witnesses: for every statement with hypotheses, states and operands that meet them, at the boundaries of their ranges. -/

/-- Every register holds a value and none is pending. -/
def calm : State := start [(.rp, 0x8000), (.sp, 0x8000), (.x1, 0x8000), (.x2, 0x7FFF), (.x3, 0)] true false true

/-- The register x1 waits for a load. -/
def busy : State := pend .x1 0x1234 calm

/-- A program of the words 0x0800 (`nop`) at 0x0100, two bytes of data at 0x8000 and at the top of memory. -/
def loaded : State :=
  bytes [(0x8000, 0x84), (0x8001, 0x12), (0xFFFE, 0x01), (0xFFFF, 0x80)]
    (calm.loadImage 0x0100 [some 0x00, some 0x08, some 0x00, some 0x08])

/-- `loaded` with its code range moved to the one byte at 0x8001. -/
def guarded : State := { loaded with code := [{ base := 0x8001, size := 1 }] }

theorem witness_StepRunsDecodedInstruction :
    instructionAt loaded = some .nop ∧ loaded.readByte loaded.pc = some 0x00 ∧ calm.readByte calm.pc = none ∧
    (calm.writeByte 0x0100 1).readByte calm.pc = some 1 ∧ (calm.writeByte 0x0100 1).readByte (calm.pc + 1) = none := by
  decide
theorem witness_DecodeOfEncode : (Instr.jmpd .rp).wf = true ∧ (Instr.mov .x1 .zr).wf = true ∧ (Instr.addi .zr 1).wf = true := by
  decide
theorem witness_ReservedWordsStop :
    ReservedWord 0x7800 ∧ ReservedWord 0x7FFF ∧ ReservedWord 0xC300 ∧ ReservedWord 0xC7FF ∧ ReservedWord 0xB101 ∧
    ReservedWord 0xB7FF ∧ ReservedWord 0xBF01 ∧ ReservedWord 0xB800 ∧ ReservedWord 0xB840 ∧ ReservedWord 0xB8FF ∧
    isReserved .reservedJmpdl064 = true := by
  refine ⟨?_, ?_, ?_, ?_, ?_, ?_, ?_, ?_, ?_, ?_, rfl⟩
  all_goals
    unfold ReservedWord
    decide
theorem witness_SpecialsStop :
    calm.pendingInterrupts = [] ∧ ({ calm with pendingInterrupts := [0, 7] } : State).pendingInterrupts ≠ [] := by decide
theorem witness_AddRule :
    destReady (.add .x1 .x2 .x3) calm = true ∧ destReady (.add .zr .x2 .x3) busy = true ∧
    destReady (.add .x1 .x1 .x3) busy = true ∧ destReady (.add .x1 .x2 .x3) busy = false := by decide
theorem witness_AddWithCarry : destReady (.addc .x1 .x2 .x3) calm = true ∧ destReady (.addc .x1 .x2 .x3) busy = false := by decide
theorem witness_SubtractRules :
    destReady (.sub .x1 .x2 .x3) calm = true ∧ destReady (.subb .x1 .x2 .x3) calm = true ∧ destReady (.neg .x1 .x3) calm = true ∧
    destReady (.sub .x1 .x2 .x3) busy = false ∧ destReady (.subb .x1 .x2 .x3) busy = false ∧
    destReady (.neg .x1 .x3) busy = false := by decide
theorem witness_AdditionAliases :
    destReady (.mov .x1 .x2) calm = true ∧ destReady (.mov .x1 .x1) busy = true ∧ destReady (.mov .x1 .x2) busy = false := by
  decide
theorem witness_CompareThenBranch :
    (calm.view .x1).toInt - (calm.view .x3).toInt = -32768 ∧ (calm.view .x2).toInt - (calm.view .x3).toInt = 32767 := by decide
theorem witness_NopRule : (1 : BitVec 8) ≠ 0 ∧ (0xFF : BitVec 8) ≠ 0 := by decide
theorem witness_ZeroDestinationFlagsOnly :
    goes (exec (.add .x1 .x2 .x3) calm) (fun _ => true) = true ∧ calm.view .x3 = 0 ∧
    goes (exec (.addi .x3 5) calm) (fun _ => true) = true := by decide
theorem witness_WideArithmetic :
    Reg.x1 ≠ .zr ∧ Reg.x2 ≠ .zr ∧ Reg.x1 ≠ .x2 ∧ Reg.x1 ≠ .x2 ∧ Reg.x1 ≠ .sp ∧ calm.resolved .x1 = true ∧
    calm.resolved .x2 = true := by decide
theorem witness_CsrReads :
    destReady (.csrr .x1 Config.csrIp) calm = true ∧ destReady (.csrr .x1 Config.csrFl) calm = true ∧
    destReady (.ip .x1) calm = true ∧ destReady (.csrr .x1 Config.csrPen) busy = false ∧ destReady (.ip .x1) busy = false :=
  ⟨rfl, rfl, rfl, rfl, rfl⟩
theorem witness_CsrWrites : calm.view .x3 = 0 ∧ calm.view .zr = 0 := by decide
theorem witness_CsrRefusals :
    calm.resolved .x1 = true ∧ calm.view .x1 ≠ 0 ∧
    Config.csrNumbering 4 ∉ [Config.csrIp, Config.csrFl, Config.csrPen, Config.csrIra] := by
  refine ⟨by decide, by decide, ?_⟩
  simp [Config.csrIp, Config.csrFl, Config.csrPen, Config.csrIra, Config.csrNumbering.injective.eq_iff]
theorem witness_SetLessThan :
    destReady (.slt .x1 .x2 .x3) calm = true ∧ destReady (.sltu .x1 .x2 .x3) calm = true ∧ destReady (.spos .x1 .x2) calm = true ∧
    destReady (.slt .x1 .x2 .x3) busy = false ∧ destReady (.sltu .x1 .x2 .x3) busy = false ∧
    destReady (.spos .x1 .x2) busy = false := by decide
theorem witness_SignAndZeroTests : destReady (.sneg .x1 .x2) calm = true ∧ destReady (.snez .x1 .x2) calm = true := by decide
theorem witness_SelectRule :
    destReady (.szr .x1 .x2 .x3) calm = true ∧ calm.view .x3 = 0 ∧ destReady (.szr .x1 .x3 .x2) calm = true ∧ calm.view .x2 ≠ 0 ∧
    destReady (.szr .x1 .x2 .x3) busy = false := by decide
theorem witness_LogicRegisterRules :
    destReady (.ior .x1 .x2 .x3) calm = true ∧ destReady (.and .x1 .x2 .x3) calm = true ∧ destReady (.xor .x1 .x2 .x3) calm = true ∧
    destReady (.ior .x1 .x2 .x3) busy = false ∧ destReady (.and .x1 .x2 .x3) busy = false ∧
    destReady (.xor .x1 .x2 .x3) busy = false := by decide
theorem witness_FullConstant : Reg.x1 ≠ .zr ∧ calm.resolved .x1 = true := by decide
theorem witness_ShiftByAmount :
    destReady (.bsl .x1 0 .x2) calm = true ∧ destReady (.bsr .x1 15 .x2) calm = true ∧ destReady (.bsrs .x1 15 .x2) calm = true ∧
    destReady (.brr .x1 15 .x2) calm = true ∧ destReady (.bsl .x1 0 .x2) busy = false ∧ destReady (.bsr .x1 15 .x2) busy = false ∧
    destReady (.bsrs .x1 15 .x2) busy = false ∧ destReady (.brr .x1 15 .x2) busy = false := by decide
theorem witness_ShiftByRegister :
    15 = (calm.view .x2).toNat % 16 ∧ 0 = (calm.view .x3).toNat % 16 ∧
    destReady (.bsld .x1 .x3 .x2) calm = true ∧ destReady (.bsrd .x1 .x2 .x3) calm = true ∧ destReady (.bsrsd .x1 .x2 .x3) calm = true ∧
    destReady (.brrd .x1 .x2 .x3) calm = true ∧ destReady (.bsld .x1 .x3 .x2) busy = false ∧
    destReady (.bsrd .x1 .x2 .x3) busy = false ∧ destReady (.bsrsd .x1 .x2 .x3) busy = false ∧
    destReady (.brrd .x1 .x2 .x3) busy = false := by decide
theorem witness_LoadImmediateRules :
    destReady (.lli .x1 0) calm = true ∧ destReady (.lui .x1 0) calm = true ∧ destReady (.clr .x1) calm = true ∧
    destReady (.lli .x1 0) busy = false ∧ destReady (.lui .x1 0) busy = false ∧ destReady (.clr .x1) busy = false := by decide
theorem witness_BranchRule : ∃ taken : Word, taken = calm.pc + 2 + BitVec.ofInt 16 (2 * (0x80 : BitVec 8).toInt) := ⟨_, rfl⟩
theorem witness_LinkingJumpRules :
    calm.resolved .rp = true ∧ destReady (.jmpdl .x1) calm = true ∧ (pend .rp 6 calm).resolved .rp = false ∧ Reg.x1 ≠ .rp := by
  decide
theorem witness_ReturnAfterCall :
    destReady (.jmpl 1) calm = true ∧ destReady (.jmprl 4) calm = true ∧ destReady (.jmpdl .x1) calm = true ∧
    destReady (.jmpdl .rp) (pend .rp 6 calm) = true := by decide
theorem witness_LoadRules :
    Reg.x2 ≠ .zr ∧ destReady (.mld .x2 1 .sp) loaded = true ∧ loaded.readByte (byteEa (loaded.view .sp) 1) = some 0x12 ∧
    destReady (.mldw .x2 0 .sp) loaded = true ∧ (wordEa (loaded.view .sp) 0).toNat % 2 = 0 ∧
    loaded.readByte (wordEa (loaded.view .sp) 0) = some 0x84 ∧ loaded.readByte (wordEa (loaded.view .sp) 0 + 1) = some 0x12 ∧
    loaded.readByte (byteEa 0xFFE0 31) = some 0x80 ∧ loaded.readByte (wordEa 0xFFFE 0) = some 0x01 ∧
    loaded.readByte (wordEa 0xFFFE 0 + 1) = some 0x80 ∧
    destReady (.mld .x1 0 .sp) busy = false ∧ destReady (.mldw .x1 0 .sp) busy = false := by decide
theorem witness_ByteStoreRules :
    outsideCode [byteEa (loaded.view .sp) 31] loaded = true ∧ outsideCode [byteEa 0x00E0 31] loaded = true ∧
    outsideCode [byteEa 0x0104 0] loaded = true := by decide
theorem witness_WordStoreRules :
    (wordEa (loaded.view .sp) 31).toNat % 2 = 0 ∧
    outsideCode [wordEa (loaded.view .sp) 31, wordEa (loaded.view .sp) 31 + 1] loaded = true ∧
    outsideCode [wordEa 0xFFFE 0, wordEa 0xFFFE 0 + 1] loaded = true := by decide
theorem witness_ExchangeRules :
    Reg.x1 ≠ .zr ∧ outsideCode [byteEa (loaded.view .sp) 0] loaded = true ∧
    loaded.readByte (byteEa (loaded.view .sp) 0) = some 0x84 ∧ (wordEa (loaded.view .sp) 0).toNat % 2 = 0 ∧
    outsideCode [wordEa (loaded.view .sp) 0, wordEa (loaded.view .sp) 0 + 1] loaded = true ∧
    loaded.readByte (wordEa (loaded.view .sp) 0) = some 0x84 ∧
    loaded.readByte (wordEa (loaded.view .sp) 0 + 1) = some 0x12 := by decide
theorem witness_OddWordAccessTraps :
    (wordEa ((calm.setReg .sp 0xFFFF).view .sp) 0).toNat % 2 = 1 ∧ Reg.x2 ≠ .zr ∧
    destReady (.mldw .x2 0 .sp) (calm.setReg .sp 0xFFFF) = true := by decide
theorem witness_StoreIntoCodeRefused :
    inRanges loaded.code (byteEa 0x0100 0) = true ∧ inRanges loaded.code (byteEa 0x0100 3) = true ∧
    wordEa (guarded.view .sp) 0 = 0x8000 ∧ (0x8000 : Word).toNat % 2 = 0 ∧ inRanges guarded.code 0x8000 = false ∧
    inRanges guarded.code (0x8000 + 1) = true ∧ inRanges loaded.code (wordEa 0x0100 0) = true := by decide
theorem witness_UnsetByteStops :
    Reg.x2 ≠ .zr ∧ loaded.readByte (byteEa (loaded.view .sp) 2) = none ∧ destReady (.mld .x2 2 .sp) loaded = true ∧
    outsideCode [byteEa (loaded.view .sp) 2] loaded = true ∧ wordEa (loaded.view .sp) 1 = 0x8002 ∧
    (0x8002 : Word).toNat % 2 = 0 ∧ loaded.readByte 0x8002 = none ∧ destReady (.mldw .x2 1 .sp) loaded = true ∧
    outsideCode [0x8002, 0x8002 + 1] loaded = true ∧
    (calm.writeByte 0x8000 1).readByte (0x8000 + 1) = none := by decide
theorem witness_StoreThenLoad :
    Reg.x2 ≠ .zr ∧ loaded.resolved .x2 = true ∧ (wordEa (loaded.view .sp) 15).toNat % 2 = 0 ∧
    outsideCode [wordEa (loaded.view .sp) 15, wordEa (loaded.view .sp) 15 + 1] loaded = true ∧
    (15 : BitVec 5).toNat < 16 ∧ (wordEa (loaded.view .sp) 31).toNat % 2 = 0 := by decide
theorem witness_PendingReaderWaits :
    Reg.x1 ∈ sources (.add .x2 .x1 .x3) ∧ busy.resolved .x1 = false ∧ Reg.t2 ∈ sources .fence := by decide
/-- A load due at once, in a run of no step, and one due after one more instruction, in a run of one step. -/
theorem witness_LoadArrivesInTime :
    ((calm.setGpr .x1 { val := 0, load := some { value := 7, left := 0 } }).gpr .x1).load = some { value := 7, left := 0 } ∧
    RunsTo 0 (calm.setGpr .x1 { val := 0, load := some { value := 7, left := 0 } })
      (calm.setGpr .x1 { val := 0, load := some { value := 7, left := 0 } }) ∧
    ((loaded.setGpr .x1 { val := 0, load := some { value := 7, left := 1 } }).gpr .x1).load = some { value := 7, left := 1 } ∧
    ∃ t, RunsTo 1 (loaded.setGpr .x1 { val := 0, load := some { value := 7, left := 1 } }) t :=
  ⟨rfl, rfl, rfl, _, rfl⟩
theorem witness_InvariantKeptByStep : loaded.Inv ∧ ∃ t, step loaded = .next t :=
  ⟨⟨by decide, rfl, rfl⟩, _, rfl⟩
theorem witness_CodeStaysConstant :
    storesToMemory .nop = false ∧ (∃ t, exec .nop loaded = .next t) ∧ (∃ t, RunsTo 2 loaded t) ∧
    inRanges loaded.code 0x0100 = true ∧ inRanges loaded.code 0x0103 = true :=
  ⟨rfl, ⟨_, rfl⟩, ⟨_, rfl⟩, by decide, by decide⟩
theorem witness_FlagWriters :
    (∃ t, exec (.lli .x1 1) calm = .next t) ∧ canWriteFlags (.lli .x1 1) = false ∧ ∀ rs, Instr.lli .x1 1 ≠ .csrw rs Config.csrFl :=
  ⟨⟨_, rfl⟩, rfl, by simp⟩
theorem witness_SystemStateFrame : ∃ t, exec .scf calm = .next t := ⟨_, rfl⟩
theorem witness_FaultsHaveTheirCause :
    exec .bkpt calm = .fault .breakpoint ∧ exec (.sysc 0) calm = .fault (.syscall 0) ∧ exec .rfi calm = .fault .returnFromInterrupt ∧
    exec .wfi calm = .fault .waitForInterrupt ∧
    (∃ n, exec .wfi { calm with pendingInterrupts := [n] } = .fault (.interrupt n)) ∧
    exec (.reserved0111100 .zr .zr .zr) calm = .fault (.reservedInstruction 0x7800) ∧
    exec (.mstw .x1 0 .sp) (calm.setReg .sp 0xFFFF) = .fault (.misalignedAccess 0xFFFF) ∧
    exec (.mld .x2 0 .sp) calm = .fault (.unsetRead 0x8000) := by
  refine ⟨rfl, rfl, rfl, rfl, ⟨4, ?_⟩, rfl, rfl, rfl⟩
  simp [exec, execWfi, wfiOp, takenInterrupt, Nat.mod_one, raise]
theorem witness_LoadedImage :
    (List.replicate 65536 (some (0 : Byte))).length ≤ 65536 ∧ [some (5 : Byte)][0]? = some (some 5) ∧
    DataType.u16.holds 0 = true ∧ DataType.u16.holds 65535 = true ∧ DataType.i16.holds (-32768) = true ∧
    DataType.i16.holds 32767 = true ∧ Reg.x2 ≠ .zr ∧ calm.resolved .x2 = true ∧ (calm.view .sp).toNat % 2 = 0 := by
  refine ⟨?_, by decide, by decide, by decide, by decide, by decide, by decide, by decide, by decide⟩
  rw [List.length_replicate]
theorem witness_ConfiguredMachine :
    calm.pendingInterrupts = [] ∧ calm.resolved .rp = true ∧
    (∃ t, execWith { conf with subCarry := .notBorrow } (.sub .x1 .x2 .x3) calm = .next t) ∧
    (∃ t, execWith { conf with subCarry := .notBorrow } (.subb .x1 .x2 .x3) calm = .next t) ∧
    (∃ t, execWith { conf with subCarry := .notBorrow } (.neg .x1 .x3) calm = .next t) ∧
    (∃ t, execWith { conf with subCarry := .notBorrow } (.cmp .x1 .x1) calm = .next t) ∧
    (∃ t, execWith { conf with subCarry := .notBorrow } (.cmpi .x3 0x80) calm = .next t) :=
  ⟨rfl, rfl, ⟨_, rfl⟩, ⟨_, rfl⟩, ⟨_, rfl⟩, ⟨_, rfl⟩, ⟨_, rfl⟩⟩
theorem witness_SpecialWords : decode 0x0000 = .bkpt ∧ decode 0xB0FF = .sysc 0xFF ∧ decode 0xB000 = .sysc 0 ∧ decode 0xB820 = .rscf := by
  decide

end Sys2Proof.Tests
end

