-- ==== Sys2Proof/Proofs/SpecialWords.lean ====
section
/-! PROOFS. The special words (spec/30_encoding.md R96). `encode` is a left inverse of `decode` on all 65536 words, so a
term whose own word decodes back to it is the decode of that word and of no other. -/

namespace Sys2Proof.Encoding

/-! A word from the format of its opcode and the other fields. -/

section OfOp
variable {w : Word} {op : BitVec 5}

theorem formatRRR_of_op {fn : BitVec 2} (hop : fieldOp w = op) (hfn : fieldFn w = fn) :
    formatRRR op fn (regA w) (regB w) (regC w) = w := by
  rw [← hop, ← hfn, formatRRR_fields]

theorem formatCSR_of_op {fn : BitVec 2} (hop : fieldOp w = op) (hfn : fieldFn w = fn) :
    formatCSR op fn (regA w) (fieldCsr w) = w := by
  rw [← hop, ← hfn, formatCSR_fields]

theorem formatSHI_of_op {dir : BitVec 1} (hop : fieldOp w = op) (hdir : fieldDir w = dir) :
    formatSHI op dir (regA w) (fieldAmt w) (regC w) = w := by
  rw [← hop, ← hdir, formatSHI_fields]

theorem formatRI_of_op (hop : fieldOp w = op) : formatRI op (regA w).toBits (fieldImm8 w) = w := by
  rw [regA, Reg.toBits_ofBits, ← hop, formatRI_fields]

theorem formatJ_of_op (hop : fieldOp w = op) : formatJ op (fieldImm11 w) = w := by
  rw [← hop, formatJ_fields]

theorem formatMEM_of_op (hop : fieldOp w = op) : formatMEM op (regA w) (fieldImm5 w) (regC w) = w := by
  rw [← hop, formatMEM_fields]

end OfOp

/-! The word of what each part of the decode procedure answers. -/

/-- The last row of a choice by fn has fn = 11. -/
theorem fn_eq_three {fn : BitVec 2} (h0 : fn ≠ 0#2) (h1 : fn ≠ 1#2) (h2 : fn ≠ 2#2) : fn = 3#2 := by
  bv_omega

theorem encode_decodeByFn {w : Word} {op : BitVec 5} {i0 i1 i2 i3 : Reg → Reg → Reg → Instr} (hop : fieldOp w = op)
    (h0 : ∀ a b c, encode (i0 a b c) = formatRRR op 0#2 a b c) (h1 : ∀ a b c, encode (i1 a b c) = formatRRR op 1#2 a b c)
    (h2 : ∀ a b c, encode (i2 a b c) = formatRRR op 2#2 a b c) (h3 : ∀ a b c, encode (i3 a b c) = formatRRR op 3#2 a b c) :
    encode (decodeByFn w i0 i1 i2 i3) = w := by
  unfold decodeByFn
  split
  next hfn => rw [h0, formatRRR_of_op hop hfn]
  next hfn => rw [h1, formatRRR_of_op hop hfn]
  next hfn => rw [h2, formatRRR_of_op hop hfn]
  next n0 n1 n2 => rw [h3, formatRRR_of_op hop (fn_eq_three n0 n1 n2)]

theorem encode_decodeByDir {w : Word} {op : BitVec 5} {i0 i1 : Reg → BitVec 4 → Reg → Instr} (hop : fieldOp w = op)
    (h0 : ∀ a amt c, encode (i0 a amt c) = formatSHI op 0 a amt c)
    (h1 : ∀ a amt c, encode (i1 a amt c) = formatSHI op 1 a amt c) : encode (decodeByDir w i0 i1) = w := by
  unfold decodeByDir
  split
  next hdir => rw [h0, formatSHI_of_op hop hdir]
  next hdir => rw [h1, formatSHI_of_op hop (by bv_omega)]

theorem encode_decodeCsrCompare {w : Word} (hop : fieldOp w = 0b00011#5) : encode (decodeCsrCompare w) = w := by
  unfold decodeCsrCompare
  split
  next hfn => exact formatCSR_of_op hop hfn
  next hfn => exact formatCSR_of_op hop hfn
  next hfn => exact formatRRR_of_op hop hfn
  next n0 n1 n2 => exact formatRRR_of_op hop (fn_eq_three n0 n1 n2)

/-- Opcode 10110 with field F: register zr makes it `sysc`, another register `jmpd` or its reserved row. -/
theorem encode_decodeJmpd {w : Word} (hop : fieldOp w = 0b10110#5) : encode (decodeJmpd w) = w := by
  have hw := formatRI_of_op hop
  unfold decodeJmpd
  split
  next hzr => rw [hzr] at hw; exact hw
  next =>
    split
    next hf => rw [hf] at hw; exact hw
    next => exact hw

/-- Each control row of field F has the word of opcode 10111, register zr and F. -/
theorem encode_decodeControl (f : BitVec 8) : encode (decodeControl f) = formatRI 0b10111 0b000 f := by
  unfold decodeControl
  split <;> rfl

theorem encode_decodeJmpdl {w : Word} (hop : fieldOp w = 0b10111#5) : encode (decodeJmpdl w) = w := by
  have hw := formatRI_of_op hop
  unfold decodeJmpdl
  split
  next hzr => rw [hzr] at hw; rw [encode_decodeControl]; exact hw
  next =>
    split
    next hf => rw [hf] at hw; exact hw
    next => exact hw

/-- A reserved condition is bit 10 of the word and then 11 (spec/45_jump_branch.md R227). -/
theorem reservedCond_bits {w : Word} (h : Cond.ofBits (fieldA w) = none) :
    w.extractLsb' 10 1 ++ 0b11#2 = fieldA w := by
  have hbit : (w.extractLsb' 10 1).toNat = w.toNat / 1024 % 2 := by
    simp [BitVec.extractLsb'_toNat, Nat.shiftRight_eq_div_pow]
  have hA := fieldA_toNat w
  apply BitVec.eq_of_toNat_eq
  rw [toNat_append, hbit]
  obtain hc | hc := (Cond.ofBits_eq_none _).mp h <;> rw [hc] at hA ⊢ <;> simp at hA ⊢ <;> omega

theorem encode_decodeBrh {w : Word} (hop : fieldOp w = 0b11000#5) : encode (decodeBrh w) = w := by
  have hw := formatRI_fields w
  rw [hop] at hw
  unfold decodeBrh
  split
  next cond hcond => rw [← Cond.toBits_of_ofBits _ _ hcond] at hw; exact hw
  next hnone => rw [← reservedCond_bits hnone] at hw; exact hw

/-- The word of the instruction a word decodes to is that word: one case for each opcode of R100. -/
theorem encode_decode (w : Word) : encode (decode w) = w := by
  unfold decode
  split
  next hbkpt => exact hbkpt.symm
  next =>
  split
  next hnop => exact hnop.symm
  next =>
  split
  case h_1 | h_5 | h_15 | h_16 =>
    exact encode_decodeByFn ‹_› (fun _ _ _ => rfl) (fun _ _ _ => rfl) (fun _ _ _ => rfl) (fun _ _ _ => rfl)
  case h_4 => exact encode_decodeCsrCompare ‹_›
  case h_13 | h_14 => exact encode_decodeByDir ‹_› (fun _ _ _ => rfl) (fun _ _ _ => rfl)
  case h_2 | h_3 | h_6 | h_7 | h_8 | h_9 | h_10 | h_11 | h_12 | h_17 | h_18 => exact formatRI_of_op ‹_›
  case h_19 | h_20 | h_21 | h_22 | h_26 => exact formatJ_of_op ‹_›
  case h_23 => exact encode_decodeJmpd ‹_›
  case h_24 => exact encode_decodeJmpdl ‹_›
  case h_25 => exact encode_decodeBrh ‹_›
  case h_27 | h_28 | h_29 | h_30 | h_31 => exact formatMEM_of_op ‹_›
  case h_32 =>
    -- The last row has no pattern of its own: 11111 is what the other 31 leave.
    have hop : fieldOp w = 0b11111#5 := by
      simp only [imp_false] at *
      bv_omega
    exact formatMEM_of_op hop

/-- A term that its own word decodes to is what that word, and no other word, decodes to. -/
theorem decode_eq_iff {i : Instr} (h : decode (encode i) = i) (w : Word) : decode w = i ↔ w = encode i := by
  constructor
  · intro hw
    rw [← hw, encode_decode]
  · intro hw
    rw [hw, h]

theorem decode_encode_sysc (n : BitVec 8) : decode (encode (.sysc n)) = .sysc n := by
  change decode (formatRI 0b10110 0b000 n) = .sysc n
  simp [decode, decodeJmpd, Reg.ofBits]

/-- Settles O59: a special word is the `encode` of the term it decodes to, and `encode` undoes `decode` (`decode_eq_iff`). -/
theorem specialWords : Obligations.SpecialWords := by
  unfold Obligations.SpecialWords
  refine ⟨fun w n => ?_, rfl, rfl, fun n => ⟨rfl, rfl⟩⟩
  exact ⟨decode_eq_iff (i := .bkpt) (by decide) w, decode_eq_iff (i := .nop) (by decide) w,
    decode_eq_iff (decode_encode_sysc n) w, decode_eq_iff (i := .fence) (by decide) w,
    decode_eq_iff (i := .ftlb) (by decide) w, decode_eq_iff (i := .rfi) (by decide) w,
    decode_eq_iff (i := .wfi) (by decide) w, decode_eq_iff (i := .scf) (by decide) w,
    decode_eq_iff (i := .rscf) (by decide) w, decode_eq_iff (i := .reservedJmpdl064) (by decide) w,
    decode_eq_iff (i := .reservedJmpdl0128) (by decide) w⟩

end Sys2Proof.Encoding
end

