-- ==== Sys2Proof/Proofs/Nop.lean ====
section
/-! PROOFS. `nop` and the other words of `addi zr` (spec/40_arithmetic.md R134, R137). -/

namespace Sys2Proof.Machine

/-! What the two instructions do. -/

theorem exec_nop (s : State) : exec .nop s = .next s.advance := rfl

/-- `addi` always goes on: its register is read and written through one field, so there is no destination check (R134). -/
theorem exec_addi (rd : Reg) (imm : BitVec 8) (s : State) :
    exec (.addi rd imm) s = writeArith rd (addC (s.view rd) (sext8 imm) false) (s.await rd) := by
  change addiOp rd imm s = _
  rw [addiOp, withSource_eq]

/-- An arithmetic result for r0 leaves its flags only (R139). -/
theorem writeArith_zr (rk : Word × Bool) (s : State) :
    writeArith .zr rk s = .next (s.setFl (arithFlags rk.1 rk.2 s.fl)).advance := by
  rw [writeArith, writeBack, setReg_zr]

/-- Adding to zero gives the other operand and never carries. -/
theorem addC_zero_left (b : Word) : addC 0 b false = (b, false) := by
  have hb : ¬ 65536 ≤ b.toNat := Nat.not_le.mpr b.isLt
  simp [addC, hb]

theorem sext8_eq_ofInt (imm : BitVec 8) : sext8 imm = BitVec.ofInt 16 imm.toInt := rfl

/-- `addi zr` writes the flags of its immediate and nothing else. -/
theorem exec_addi_zr (imm : BitVec 8) (s : State) :
    exec (.addi .zr imm) s = .next (s.setFl (arithFlags (sext8 imm) false s.fl)).advance := by
  rw [exec_addi, await_zr, view_zr, addC_zero_left, writeArith_zr]

/-! What `nop` and `addi zr` leave unchanged. -/

theorem goesTo_nop (s : State) : GoesTo .nop (s.pc + 2) s := by
  refine ⟨s.advance, exec_nop s, writesNoRegister_of (fun r => ?_) rfl ⟨rfl, rfl, rfl, rfl, rfl⟩, rfl, advance_pc s⟩
  simp [sources]

theorem completesCompare_addi_zr (imm : BitVec 8) (s : State) :
    CompletesCompare (.addi .zr imm) (BitVec.ofInt 16 imm.toInt) false s := by
  refine ⟨_, exec_addi_zr imm s, writesNoRegister_of (fun r => ?_) rfl ⟨rfl, rfl, rfl, rfl, rfl⟩, ?_, advance_pc _⟩
  · -- The one source is r0, which is never pending (spec/10_state.md R36).
    by_cases hr : r = .zr <;> simp [sources, hr]
  · rw [advance_fl, setFl_fl, arithFlags_eq, sext8_eq_ofInt]

end Sys2Proof.Machine

namespace Sys2Proof.Encoding

/-- A word whose immediate is not 0 is not `nop`. -/
theorem formatRI_ne_nop_of_imm {imm : BitVec 8} (op : BitVec 5) (a : BitVec 3) (h : imm ≠ 0) :
    formatRI op a imm ≠ 0x0800 := by
  intro hw
  have himm := fieldImm8_formatRI op a imm
  rw [hw] at himm
  exact h himm.symm

/-- Every word of opcode 00001 whose immediate is not 0 is `addi` (spec/30_encoding.md R96). -/
theorem decode_formatRI_addi {imm : BitVec 8} (a : BitVec 3) (h : imm ≠ 0) :
    decode (formatRI 0b00001 a imm) = .addi (Reg.ofBits a) imm := by
  have hbkpt : formatRI 0b00001 a imm ≠ 0x0000 := formatRI_ne_bkpt a imm (by decide)
  rw [decode, if_neg hbkpt, if_neg (formatRI_ne_nop_of_imm _ a h), fieldOp_formatRI]
  change Instr.addi (regA (formatRI 0b00001 a imm)) (fieldImm8 (formatRI 0b00001 a imm)) = _
  rw [regA_formatRI, fieldImm8_formatRI]

/-- Settles O14: the word of `addi zr` with immediate 0 is `nop`'s own; with any other it decodes to `addi`, whose flags are those
of 0 plus the immediate. -/
theorem nopRule : Obligations.NopRule := by
  unfold Obligations.NopRule
  intro imm s
  exact ⟨Machine.goesTo_nop s, rfl, rfl, fun himm =>
    ⟨decode_formatRI_addi 0b000 himm, Machine.completesCompare_addi_zr imm s⟩⟩

end Sys2Proof.Encoding
end

