-- ==== Sys2Proof/Proofs/Jump.lean ====
section
/-! PROOFS. `jmp` (spec/45_jump_branch.md R220). -/

namespace Sys2Proof.Machine

theorem exec_jmp (imm : BitVec 11) (s : State) : exec (.jmp imm) s = .next (s.setPc (absoluteTarget imm)) := rfl

/-- The shifted operand never leaves the 64 KiB: 32 * 2047 is below 2^16. -/
theorem absoluteTarget_toNat (imm : BitVec 11) : (absoluteTarget imm).toNat = 32 * imm.toNat := by
  have hfits : imm.toNat < 2 ^ 11 := imm.isLt
  simp only [absoluteTarget, BitVec.toNat_shiftLeft, BitVec.toNat_setWidth, Nat.shiftLeft_eq]
  omega

theorem absoluteTarget_eq (imm : BitVec 11) : absoluteTarget imm = BitVec.ofNat 16 (32 * imm.toNat) := by
  rw [← absoluteTarget_toNat, BitVec.ofNat_toNat, BitVec.setWidth_eq]

/-- An instruction that reads no register and only sets the pc, to an even address, does nothing but go there. -/
theorem goesTo_of_setPc {i : Instr} {target : Word} {s : State} (hexec : exec i s = .next (s.setPc target))
    (hsources : sources i = []) (heven : target.toNat % 2 = 0) : GoesTo i target s := by
  refine ⟨s.setPc target, hexec, writesNoRegister_of (fun r => ?_) rfl ⟨rfl, rfl, rfl, rfl, rfl⟩, rfl, setPc_pc s target heven⟩
  simp [hsources]

/-- A multiple of 32 is even, so the pc holds the whole target. -/
theorem goesTo_jmp (imm : BitVec 11) (s : State) : GoesTo (.jmp imm) (BitVec.ofNat 16 (32 * imm.toNat)) s := by
  have heven : (absoluteTarget imm).toNat % 2 = 0 := by
    rw [absoluteTarget_toNat]
    omega
  rw [← absoluteTarget_eq]
  exact goesTo_of_setPc (exec_jmp imm s) rfl heven

end Sys2Proof.Machine

namespace Sys2Proof.Encoding

/-- Settles O31: `jmp` only sets the pc, to an even target (`goesTo_jmp`), and its word is format J with opcode 10010. -/
theorem jumpRule : Obligations.JumpRule := by
  unfold Obligations.JumpRule
  intro imm s
  exact ⟨Machine.goesTo_jmp imm s, rfl, rfl, rfl⟩

end Sys2Proof.Encoding
end

