-- ==== Sys2Proof/Proofs/RoundTrip.lean ====
section
/-! PROOFS. The round trip between words and instructions (spec/30_encoding.md R95 to R101, R111): `decode` after `encode`, the
instruction of every word, and the reserved words. `encode` after `decode` is `encode_decode`. -/

namespace Sys2Proof.Encoding

/-! Well-formed terms of the rows that share their words with another row. -/

theorem wf_jmpd {rs : Reg} : (Instr.jmpd rs).wf = true ↔ rs ≠ .zr := by
  simp [Instr.wf]

theorem wf_jmpdl {rs : Reg} : (Instr.jmpdl rs).wf = true ↔ rs ≠ .zr := by
  simp [Instr.wf]

theorem wf_reservedJmpdFlags {rs : Reg} {f : BitVec 8} : (Instr.reservedJmpdFlags rs f).wf = true ↔ rs ≠ .zr ∧ f ≠ 0 := by
  simp [Instr.wf]

theorem wf_reservedJmpdlFlags {rs : Reg} {f : BitVec 8} :
    (Instr.reservedJmpdlFlags rs f).wf = true ↔ rs ≠ .zr ∧ f ≠ 0 := by
  simp [Instr.wf]

theorem wf_reservedJmpdl0Other {f : BitVec 8} :
    (Instr.reservedJmpdl0Other f).wf = true ↔
      f ∉ ([0x01, 0x02, 0x04, 0x08, 0x10, 0x20, 0x40, 0x80] : List (BitVec 8)) := by
  simp [Instr.wf]

theorem wf_add {rd rs1 rs2 : Reg} : (Instr.add rd rs1 rs2).wf = true ↔ ¬ (rd = .zr ∧ rs1 = .zr ∧ rs2 = .zr) := by
  simp only [Instr.wf, Bool.not_eq_true', Bool.and_eq_false_iff, beq_eq_false_iff_ne]
  tauto

theorem wf_addi {rd : Reg} {imm : BitVec 8} : (Instr.addi rd imm).wf = true ↔ ¬ (rd = .zr ∧ imm = 0) := by
  simp only [Instr.wf, Bool.not_eq_true', Bool.and_eq_false_iff, beq_eq_false_iff_ne]
  tauto

/-- The base instruction of a well-formed term is well-formed: an alias leaves the words of `bkpt` and `nop` out too (R111). -/
theorem wf_core {i : Instr} (h : i.wf = true) : i.core.wf = true := by
  cases i with
  | mov rd rs => exact (Laws.AliasOf.mov rd rs h).1
  | test rs => exact (Laws.AliasOf.test rs h).1
  | inc rd => exact (Laws.AliasOf.inc rd h).1
  | dec rd => exact (Laws.AliasOf.dec rd h).1
  | alloc imm => exact (Laws.AliasOf.alloc imm h).1
  | _ => exact h

/-! `decode` after `encode`. -/

/-- The word of opcode 00000 that is `bkpt` has fn 00 and three times zr. -/
theorem formatRRR_eq_bkpt {fn : BitVec 2} {a b c : Reg} (h : formatRRR 0#5 fn a b c = 0#16) :
    fn = 0#2 ∧ a = .zr ∧ b = .zr ∧ c = .zr := by
  refine ⟨?_, ?_, ?_, ?_⟩
  · rw [← fieldFn_formatRRR 0#5 fn a b c, h]; rfl
  · rw [← regA_formatRRR 0#5 fn a b c, h]; rfl
  · rw [← regB_formatRRR 0#5 fn a b c, h]; rfl
  · rw [← regC_formatRRR 0#5 fn a b c, h]; rfl

theorem formatRRR_ne_bkpt_of_fn {fn : BitVec 2} (a b c : Reg) (h : fn ≠ 0#2) : formatRRR 0#5 fn a b c ≠ 0#16 :=
  fun hw => h (formatRRR_eq_bkpt hw).1

theorem decode_encode_add {rd rs1 rs2 : Reg} (h : (Instr.add rd rs1 rs2).wf = true) :
    decode (encode (.add rd rs1 rs2)) = .add rd rs1 rs2 := by
  have hne : formatRRR 0#5 0#2 rd rs1 rs2 ≠ 0#16 := fun hw => wf_add.mp h (formatRRR_eq_bkpt hw).2
  change decode (formatRRR 0#5 0#2 rd rs1 rs2) = _
  simp [decode, decodeByFn, hne]

/-- The word of `addi` that is `nop` has register zr and immediate 0. -/
theorem formatRI_eq_nop {a : BitVec 3} {imm : BitVec 8} (h : formatRI 1#5 a imm = 2048#16) : a = 0 ∧ imm = 0 := by
  refine ⟨?_, ?_⟩
  · rw [← fieldA_formatRI 1#5 a imm, h]; rfl
  · rw [← fieldImm8_formatRI 1#5 a imm, h]; rfl

theorem decode_encode_addi {rd : Reg} {imm : BitVec 8} (h : (Instr.addi rd imm).wf = true) :
    decode (encode (.addi rd imm)) = .addi rd imm := by
  have hne : formatRI 1#5 rd.toBits imm ≠ 2048#16 := by
    intro hw
    obtain ⟨hrd, himm⟩ := formatRI_eq_nop hw
    exact wf_addi.mp h ⟨by rw [← Reg.ofBits_toBits rd, hrd]; rfl, himm⟩
  change decode (formatRI 1#5 rd.toBits imm) = _
  simp [decode, hne]

/-- Opcode 10111 with register zr is a control row (R100 item 3). -/
theorem decode_control (f : BitVec 8) : decode (formatRI 0b10111 0b000 f) = decodeControl f := by
  simp [decode, decodeJmpdl, Reg.ofBits]

theorem decodeControl_other {f : BitVec 8} (h : (Instr.reservedJmpdl0Other f).wf = true) :
    decodeControl f = .reservedJmpdl0Other f := by
  unfold decodeControl
  split
  case h_9 => rfl
  all_goals exact absurd h (by decide)

/-- A reserved condition keeps bit 10 beside 11 (spec/45_jump_branch.md R227). -/
theorem extract_condHi (condHi : BitVec 1) (imm : BitVec 8) :
    (formatRI 0b11000#5 (condHi ++ 0b11#2) imm).extractLsb' 10 1 = condHi := by
  apply BitVec.eq_of_toNat_eq
  have hw := formatRI_toNat 0b11000#5 (condHi ++ 0b11#2) imm
  rw [toNat_append] at hw
  rw [BitVec.extractLsb'_toNat, hw, Nat.shiftRight_eq_div_pow]
  simp
  omega

theorem decode_encode_reservedBrhCond (condHi : BitVec 1) (imm : BitVec 8) :
    decode (encode (.reservedBrhCond condHi imm)) = .reservedBrhCond condHi imm := by
  have hnone : Cond.ofBits (condHi ++ 0b11#2) = none := by
    rw [Cond.ofBits_eq_none]
    revert condHi
    decide
  change decode (formatRI 0b11000 (condHi ++ 0b11#2) imm) = _
  simp [decode, decodeBrh, hnone, extract_condHi]

/-- Decoding the word of a well-formed base instruction gives it back: one case for each shape of row in R95 and R96. -/
theorem decode_encode_base {i : Instr} (hwf : i.wf = true) (hbase : i.isAlias = false) : decode (encode i) = i := by
  cases i
  case bkpt | nop | fence | ftlb | rfi | wfi | scf | rscf | reservedJmpdl064 | reservedJmpdl0128 => decide
  case sysc n => exact decode_encode_sysc n
  case reservedJmpdl0Other f => exact (decode_control f).trans (decodeControl_other hwf)
  case jmpd rs | jmpdl rs =>
    have hrs : rs ≠ .zr := by simpa [Instr.wf] using hwf
    simp [encode, encodeWith, decode, decodeJmpd, decodeJmpdl, hrs]
  case reservedJmpdFlags rs f | reservedJmpdlFlags rs f =>
    obtain ⟨hrs, hf⟩ : rs ≠ .zr ∧ f ≠ 0#8 := by simpa [Instr.wf] using hwf
    simp [encode, encodeWith, decode, decodeJmpd, decodeJmpdl, hrs, hf]
  case reservedBrhCond condHi imm => exact decode_encode_reservedBrhCond condHi imm
  case brh => simp [encode, encodeWith, decode, decodeBrh]
  case add => exact decode_encode_add hwf
  case addc | sub | subb => simp [encode, encodeWith, decode, decodeByFn, formatRRR_ne_bkpt_of_fn]
  case addi => exact decode_encode_addi hwf
  case csrr | csrw | slt | sltu => simp [encode, encodeWith, decode, decodeCsrCompare]
  case szr | ior | and | xor | bsld | bsrd | bsrsd | brrd => simp [encode, encodeWith, decode, decodeByFn]
  case reserved0111100 | reserved0111101 | reserved0111110 | reserved0111111 =>
    simp [encode, encodeWith, decode, decodeByFn]
  case bsl | bsr | bsrs | brr => simp [encode, encodeWith, decode, decodeByDir]
  case cmpi | iori | ioriu | andi | andiu | biti | xori | xoriu | lli | lui => simp [encode, encodeWith, decode]
  case jmp | jmpl | jmpr | jmprl | prfi => simp [encode, encodeWith, decode]
  case mld | mldw | mst | mstw | xch | xchw => simp [encode, encodeWith, decode]
  all_goals cases hbase

/-- Settles O3: an alias has the word of its base instruction (`encodeWith_coreWith`), which `decode_encode_base` gives back. -/
theorem decodeOfEncode : Obligations.DecodeOfEncode := by
  unfold Obligations.DecodeOfEncode
  intro i hwf
  obtain ⟨hword, hbase⟩ := Machine.encodeWith_coreWith Config.csrNumbers i
  calc decode (encode i) = decode (encode i.core) := congrArg decode hword
    _ = i.core := decode_encode_base (wf_core hwf) hbase

/-! The instruction of a word. -/

/-- A word of opcode 00000 and fn 00 other than `bkpt` has a register field other than zr. -/
theorem wf_add_of_fields {w : Word} (hbkpt : w ≠ 0x0000) (hop : fieldOp w = 0b00000#5) (hfn : fieldFn w = 0b00#2) :
    (Instr.add (regA w) (regB w) (regC w)).wf = true := by
  rw [wf_add]
  rintro ⟨ha, hb, hc⟩
  have hw := formatRRR_of_op hop hfn
  rw [ha, hb, hc] at hw
  exact hbkpt hw.symm

/-- A word of opcode 00001 other than `nop` has a register other than zr or an immediate other than 0. -/
theorem wf_addi_of_fields {w : Word} (hnop : w ≠ 0x0800) (hop : fieldOp w = 0b00001#5) :
    (Instr.addi (regA w) (fieldImm8 w)).wf = true := by
  rw [wf_addi]
  rintro ⟨ha, himm⟩
  have hw := formatRI_of_op hop
  rw [ha, himm] at hw
  exact hnop hw.symm

theorem wf_decodeControl (f : BitVec 8) : (decodeControl f).wf = true := by
  unfold decodeControl
  split
  case h_9 => rw [wf_reservedJmpdl0Other]; simp_all
  all_goals rfl

theorem wf_decodeJmpd (w : Word) : (decodeJmpd w).wf = true := by
  unfold decodeJmpd
  split
  · rfl
  · split
    · exact wf_jmpd.mpr ‹_›
    · exact wf_reservedJmpdFlags.mpr ⟨‹_›, ‹_›⟩

theorem wf_decodeJmpdl (w : Word) : (decodeJmpdl w).wf = true := by
  unfold decodeJmpdl
  split
  · exact wf_decodeControl _
  · split
    · exact wf_jmpdl.mpr ‹_›
    · exact wf_reservedJmpdlFlags.mpr ⟨‹_›, ‹_›⟩

/-- The instruction of a word is well-formed: a row that shares its words with another is left only what that one does not take. -/
theorem wf_decode (w : Word) : (decode w).wf = true := by
  unfold decode
  split
  next => rfl
  next hbkpt =>
  split
  next => rfl
  next hnop =>
  split
  case h_1 =>
    unfold decodeByFn
    split
    · exact wf_add_of_fields hbkpt ‹_› ‹_›
    all_goals rfl
  case h_2 => exact wf_addi_of_fields hnop ‹_›
  case h_4 => unfold decodeCsrCompare; split <;> rfl
  case h_5 | h_15 | h_16 => unfold decodeByFn; split <;> rfl
  case h_13 | h_14 => unfold decodeByDir; split <;> rfl
  case h_23 => exact wf_decodeJmpd w
  case h_24 => exact wf_decodeJmpdl w
  case h_25 => unfold decodeBrh; split <;> rfl
  all_goals rfl

/-- No word decodes to an alias: the alias has the word of its base instruction, which decodes to the latter (log 20). -/
theorem isAlias_decode (w : Word) : (decode w).isAlias = false := by
  have hcore : (decode w).core = decode w := by
    rw [← decodeOfEncode (decode w) (wf_decode w), encode_decode]
  rw [← hcore]
  exact (Machine.encodeWith_coreWith Config.csrNumbers (decode w)).2

/-- Settles O4: `encode` undoes `decode`, whose answers are well-formed base instructions. -/
theorem encodeOfDecode : Obligations.EncodeOfDecode := by
  unfold Obligations.EncodeOfDecode
  exact fun w => ⟨encode_decode w, wf_decode w, isAlias_decode w⟩

/-- Settles O2: each word by evaluation of the decode procedure. -/
theorem specWordsDecode : Obligations.SpecWordsDecode := by
  unfold Obligations.SpecWordsDecode
  decide

/-! The reserved words (R101, spec/60_exceptions.md R282). -/

open Machine

theorem toBits_eq_zero (r : Reg) : r.toBits = 0 ↔ r = .zr := by
  rw [← Reg.ofBits_eq_zr, Reg.ofBits_toBits]

theorem regA_eq_zr (w : Word) : regA w = .zr ↔ fieldA w = 0 := Reg.ofBits_eq_zr (fieldA w)

/-- A one-bit condition field beside 11 is a reserved condition. -/
theorem reservedCond (condHi : BitVec 1) : condHi ++ 0b11#2 = 0b011#3 ∨ condHi ++ 0b11#2 = 0b111#3 := by
  revert condHi
  decide

/-- The word of a well-formed term of a reserved row is on the spec's list. -/
theorem reservedWord_encode {i : Instr} (hwf : i.wf = true) (hres : isReserved i = true) : ReservedWord (encode i) := by
  cases i
  case reserved0111100 | reserved0111101 | reserved0111110 | reserved0111111 =>
    exact .inl (fieldOp_formatRRR _ _ _ _ _)
  case reservedBrhCond condHi imm =>
    refine .inr (.inl ⟨fieldOp_formatRI _ _ _, ?_⟩)
    change fieldA (formatRI 0b11000 (condHi ++ 0b11#2) imm) = _ ∨ fieldA (formatRI 0b11000 (condHi ++ 0b11#2) imm) = _
    rw [fieldA_formatRI]
    exact reservedCond condHi
  case reservedJmpdFlags rs f =>
    obtain ⟨hrs, hf⟩ := wf_reservedJmpdFlags.mp hwf
    refine .inr (.inr (.inl ⟨.inl (fieldOp_formatRI _ _ _), ?_, ?_⟩))
    · exact (fieldA_formatRI _ _ _).trans_ne (mt (toBits_eq_zero rs).mp hrs)
    · exact (fieldImm8_formatRI _ _ _).trans_ne hf
  case reservedJmpdlFlags rs f =>
    obtain ⟨hrs, hf⟩ := wf_reservedJmpdlFlags.mp hwf
    refine .inr (.inr (.inl ⟨.inr (fieldOp_formatRI _ _ _), ?_, ?_⟩))
    · exact (fieldA_formatRI _ _ _).trans_ne (mt (toBits_eq_zero rs).mp hrs)
    · exact (fieldImm8_formatRI _ _ _).trans_ne hf
  case reservedJmpdl064 | reservedJmpdl0128 => exact .inr (.inr (.inr (by decide)))
  case reservedJmpdl0Other f =>
    refine .inr (.inr (.inr ⟨fieldOp_formatRI _ _ _, fieldA_formatRI _ _ _, ?_⟩))
    change fieldImm8 (formatRI 0b10111 0b000 f) ∉ _
    rw [fieldImm8_formatRI]
    exact fun hmem => wf_reservedJmpdl0Other.mp hwf (List.mem_append_left [0x40, 0x80] hmem)
  all_goals cases hres

/-- A field F that is none of the listed ones makes a reserved control row. -/
theorem isReserved_decodeControl {f : BitVec 8}
    (h : f ∉ ([0x01, 0x02, 0x04, 0x08, 0x10, 0x20] : List (BitVec 8))) : isReserved (decodeControl f) = true := by
  unfold decodeControl
  split
  case h_7 | h_8 | h_9 => rfl
  all_goals exact absurd h (by decide)

/-- A word whose opcode is neither 00000 nor 00001 is no special word, so `decode` goes by the opcode alone. -/
theorem not_special_of_op {w : Word} {op : BitVec 5} (hop : fieldOp w = op) (hzero : op ≠ 0#5) (hone : op ≠ 1#5) :
    w ≠ 0#16 ∧ w ≠ 2048#16 :=
  ⟨ne_bkpt_of_op (hop.trans_ne hzero), ne_nop_of_op (hop.trans_ne hone)⟩

theorem decode_of_op_unassigned {w : Word} (hop : fieldOp w = 0b01111#5) :
    decode w = decodeByFn w .reserved0111100 .reserved0111101 .reserved0111110 .reserved0111111 := by
  simp [decode, not_special_of_op hop, hop]

theorem decode_of_op_jmpd {w : Word} (hop : fieldOp w = 0b10110#5) : decode w = decodeJmpd w := by
  simp [decode, not_special_of_op hop, hop]

theorem decode_of_op_jmpdl {w : Word} (hop : fieldOp w = 0b10111#5) : decode w = decodeJmpdl w := by
  simp [decode, not_special_of_op hop, hop]

theorem decode_of_op_brh {w : Word} (hop : fieldOp w = 0b11000#5) : decode w = decodeBrh w := by
  simp [decode, not_special_of_op hop, hop]

/-- A word on the spec's list decodes to a reserved row, list item by list item. -/
theorem isReserved_decode {w : Word} (h : ReservedWord w) : isReserved (decode w) = true := by
  obtain hop | ⟨hop, hcond⟩ | ⟨hop, hA, hF⟩ | ⟨hop, hA, hF⟩ := h
  · rw [decode_of_op_unassigned hop]
    unfold decodeByFn
    split <;> rfl
  · rw [decode_of_op_brh hop, decodeBrh, (Cond.ofBits_eq_none _).mpr hcond]
    rfl
  · have hzr : regA w ≠ .zr := mt (regA_eq_zr w).mp hA
    obtain hop | hop := hop
    · rw [decode_of_op_jmpd hop, decodeJmpd, if_neg hzr, if_neg hF]
      rfl
    · rw [decode_of_op_jmpdl hop, decodeJmpdl, if_neg hzr, if_neg hF]
      rfl
  · rw [decode_of_op_jmpdl hop, decodeJmpdl, if_pos ((regA_eq_zr w).mpr hA)]
    exact isReserved_decodeControl hF

/-- Every term of a reserved row raises the event with its word, whatever the state. -/
theorem exec_reserved {i : Instr} (h : isReserved i = true) (s : State) :
    exec i s = .fault (.reservedInstruction (encode i)) := by
  cases i
  case reservedJmpdl064 | reservedJmpdl0128 | reservedJmpdl0Other => rfl
  case reservedJmpdFlags | reservedJmpdlFlags | reservedBrhCond => rfl
  case reserved0111100 | reserved0111101 | reserved0111110 | reserved0111111 => rfl
  all_goals cases h

/-- Settles O5: the two directions by the fields of the words, and `exec` of a reserved row as `exec_reserved` says. -/
theorem reservedWordsStop : Obligations.ReservedWordsStop := by
  unfold Obligations.ReservedWordsStop
  refine ⟨fun w => ⟨fun h => ?_, isReserved_decode⟩, fun w s h => ?_, fun i s h => exec_reserved h s⟩
  · rw [← encode_decode w]
    exact reservedWord_encode (wf_decode w) h
  · rw [exec_reserved (isReserved_decode h) s, encode_decode]

end Sys2Proof.Encoding
end

