-- ==== Sys2Proof/Proofs/Results.lean ====
section
/-! PROOFS. One rule for the instructions that go on without memory (spec/00_scope.md R12): wait for the sources, check one
register for the write fault, then write a result, fl and pc. `Finishes` says that an instruction does this; what follows from
it is proved here once. -/

namespace Sys2Proof.Machine

/-! The state after the waiting. -/

/-- The state in which the loads of the instruction's sources have arrived (R12 step 2, spec/10_state.md R37). -/
def waited (i : Instr) (s : State) : State :=
  { s with gprs := (sources i).foldl (fun g r => g.set r (g.get r).resolve) s.gprs }

/-- A register of the file after a list of resolve steps. -/
theorem get_foldl_resolve (rs : List Reg) (g : Gprs) (r : Reg) :
    (rs.foldl (fun g r => g.set r (g.get r).resolve) g).get r = if r ∈ rs then (g.get r).resolve else g.get r := by
  induction rs generalizing g with
  | nil => rfl
  | cons q rs ih =>
    rw [List.foldl_cons, ih, gprs_get_set]
    by_cases hq : r = q <;> by_cases hz : q = .zr <;> simp_all

/-- A register after the waiting: a source is resolved, any other as before. -/
theorem gpr_waited (i : Instr) (s : State) (r : Reg) :
    (waited i s).gpr r = if r ∈ sources i then (s.gpr r).resolve else s.gpr r :=
  get_foldl_resolve (sources i) s.gprs r

theorem resolved_waited (i : Instr) (s : State) (r : Reg) :
    (waited i s).resolved r = ((sources i).contains r || s.resolved r) := by
  rw [State.resolved, gpr_waited]
  by_cases hr : r ∈ sources i <;> simp [hr, State.resolved]

theorem resolved_waited_of_resolved (i : Instr) {s : State} {r : Reg} (h : s.resolved r = true) :
    (waited i s).resolved r = true := by
  simp [resolved_waited, h]

theorem resolved_waited_of_not_mem {i : Instr} {r : Reg} (h : r ∉ sources i) (s : State) :
    (waited i s).resolved r = s.resolved r := by
  simp [resolved_waited, h]

/-- `destReady` is what the destination check sees after the waiting. -/
theorem destReady_of_destination {i : Instr} {d : Reg} (h : destination i = some d) (s : State) :
    destReady i s = (waited i s).resolved d := by
  rw [resolved_waited, destReady, h]

theorem destReady_of_no_destination {i : Instr} (h : destination i = none) (s : State) : destReady i s = true := by
  rw [destReady, h]

/-- An alias waits for the same registers as its base instruction: r0 beside them is never pending (spec/10_state.md R36). -/
theorem waited_core (i : Instr) (s : State) : waited i.core s = waited i s := by
  cases i <;> rfl

/-- An alias does what its base instruction does (spec/30_encoding.md R111). -/
theorem exec_core (i : Instr) (s : State) : exec i.core s = exec i s := by
  rw [← execWith_params i.core, ← execWith_params i]
  exact (execWith_coreWith Config.params i s).symm

/-! The result of an instruction. -/

/-- What an instruction that goes on writes: a register (r0 for none), fl, the free values it has taken, and pc. -/
structure Result where
  dest : Reg
  value : Word
  fl : Flags
  draws : Nat
  target : Word

/-- Write a result. -/
def State.finish (u : State) (r : Result) : State :=
  (((u.setFl r.fl).takeDraws r.draws).setReg r.dest r.value).setPc r.target

section Finish
variable (u : State) (r : Result)

@[simp] theorem finish_fl : (u.finish r).fl = r.fl := rfl

theorem gpr_finish (q : Reg) :
    (u.finish r).gpr q = if q = r.dest ∧ r.dest ≠ .zr then { val := r.value, load := none } else u.gpr q :=
  gpr_setReg ((u.setFl r.fl).takeDraws r.draws) r.dest q r.value

theorem finish_pc_toNat : (u.finish r).pc.toNat = 2 * (r.target.toNat / 2) :=
  setPc_pc_toNat (((u.setFl r.fl).takeDraws r.draws).setReg r.dest r.value) r.target

theorem finish_pc (h : r.target.toNat % 2 = 0) : (u.finish r).pc = r.target :=
  setPc_pc (((u.setFl r.fl).takeDraws r.draws).setReg r.dest r.value) r.target h

/-- pc after any target: every bit of it but bit 0. -/
theorem finish_pc_eq : (u.finish r).pc = BitVec.ofNat 16 (2 * (r.target.toNat / 2)) := by
  rw [← finish_pc_toNat u r, BitVec.ofNat_toNat, BitVec.setWidth_eq]

end Finish

/-- The address of the next instruction is even (spec/10_state.md R33). -/
theorem npc_even (s : State) : (s.pc + 2).toNat % 2 = 0 := by
  rw [← advance_pc]
  exact pc_even s.advance

/-- An arithmetic result `rk.1` with carry `rk.2` (spec/40_arithmetic.md R138). -/
def Result.arith (d : Reg) (rk : Word × Bool) (s : State) : Result :=
  { dest := d, value := rk.1, fl := arithFlags rk.1 rk.2 s.fl, draws := 0, target := s.pc + 2 }

/-- A bitwise result: c is a free value (spec/42_logic.md R176). -/
def Result.logic (d : Reg) (v : Word) (s : State) : Result :=
  { dest := d, value := v, fl := arithFlags v (Config.drawBit s.draws) s.fl, draws := 1, target := s.pc + 2 }

/-- A result with c, s, z free values (spec/43_shift.md R198). -/
def Result.free (d : Reg) (v : Word) (s : State) : Result :=
  { dest := d
    value := v
    fl := { c := Config.drawBit s.draws, s := Config.drawBit (s.draws + 1), z := Config.drawBit (s.draws + 2), u := s.fl.u }
    draws := 3
    target := s.pc + 2 }

/-- A result with fl as before. -/
def Result.quiet (d : Reg) (v : Word) (s : State) : Result :=
  { dest := d, value := v, fl := s.fl, draws := 0, target := s.pc + 2 }

/-- New flags and no register. -/
def Result.flags (fl : Flags) (s : State) : Result :=
  { dest := .zr, value := 0, fl := fl, draws := 0, target := s.pc + 2 }

/-- A transfer to `target`. -/
def Result.jump (target : Word) (s : State) : Result :=
  { dest := .zr, value := 0, fl := s.fl, draws := 0, target := target }

/-- A transfer to `target` with the link value in rp (spec/45_jump_branch.md R226). -/
def Result.link (target : Word) (s : State) : Result :=
  { dest := .rp, value := s.pc + 2, fl := s.fl, draws := 0, target := target }

/-! Instructions that go on with a result. -/

/-- The instruction waits for its sources, raises the write fault if register `g` is pending then, and goes on with `r`. -/
def Finishes (i : Instr) (g : Reg) (r : Result) (s : State) : Prop :=
  exec i s = guardDest g (waited i s) (.next ((waited i s).finish r))

/-- An alias finishes as its base instruction does. -/
theorem Finishes.of_core {i : Instr} {g : Reg} {r : Result} {s : State} (h : Finishes i.core g r s) : Finishes i g r s := by
  rw [Finishes, exec_core, waited_core] at h
  exact h

section Consequences
variable {i : Instr} {g d : Reg} {r : Result} {s : State}

theorem Finishes.next (h : Finishes i g r s) (hg : (waited i s).resolved g = true) :
    exec i s = .next ((waited i s).finish r) := by
  rw [h, guardDest_eq, if_pos hg]

theorem Finishes.faultsOnWrite (h : Finishes i g r s) (hg : (waited i s).resolved g = false) : FaultsOnWrite i g s := by
  rw [FaultsOnWrite, h, guardDest_eq, hg]
  rfl

/-- What an instruction that has finished holds. -/
theorem Finishes.finish_of_next {t : State} (h : Finishes i g r s) (ht : exec i s = .next t) :
    t = (waited i s).finish r := by
  rw [h] at ht
  obtain ⟨-, hnext⟩ := guardDest_next ht
  injection hnext with hnext
  exact hnext.symm

theorem keepsSystem_finish (i : Instr) (r : Result) (s : State) : KeepsSystem s ((waited i s).finish r) :=
  ⟨rfl, rfl, rfl, rfl, rfl⟩

theorem writesRegister_finish (i : Instr) (r : Result) (s : State) :
    WritesRegister i r.dest r.value s ((waited i s).finish r) :=
  writesRegister_of (gpr_waited i s)
    (fun q => by rw [gpr_finish, gpr_setReg]) rfl (keepsSystem_finish i r s)

theorem writesNoRegister_finish (i : Instr) {r : Result} (hd : r.dest = .zr) (s : State) :
    WritesNoRegister i s ((waited i s).finish r) :=
  writesNoRegister_of (fun q => by simp [gpr_finish, hd, gpr_waited]) rfl (keepsSystem_finish i r s)

theorem Finishes.completesArith {v : Word} {k : Bool} (h : Finishes i g (.arith d (v, k) s) s)
    (hg : (waited i s).resolved g = true) : CompletesArith i d v k s :=
  ⟨_, h.next hg, writesRegister_finish i (.arith d (v, k) s) s, arithFlags_eq _ _ _, finish_pc _ _ (npc_even s)⟩

theorem Finishes.completesCompare {v : Word} {k : Bool} (h : Finishes i .zr (.arith .zr (v, k) s) s) :
    CompletesCompare i v k s :=
  ⟨_, h.next rfl, writesNoRegister_finish i rfl s, arithFlags_eq _ _ _, finish_pc _ _ (npc_even s)⟩

/-- s and z of a bitwise result, whatever its carry. -/
theorem logicFlagsFrom_arithFlags {v : Word} {k : Bool} {t : State} (h : t.fl = arithFlags v k s.fl) : LogicFlagsFrom v s t := by
  rw [LogicFlagsFrom, h, arithFlags_eq]
  exact ⟨rfl, rfl, rfl⟩

theorem Finishes.completesLogic {v : Word} (h : Finishes i g (.logic d v s) s) (hg : (waited i s).resolved g = true) :
    CompletesLogic i d v s :=
  ⟨_, h.next hg, writesRegister_finish i (.logic d v s) s, logicFlagsFrom_arithFlags rfl, finish_pc _ _ (npc_even s)⟩

theorem Finishes.completesBitTest {v : Word} (h : Finishes i .zr (.logic .zr v s) s) : CompletesBitTest i v s :=
  ⟨_, h.next rfl, writesNoRegister_finish i rfl s, logicFlagsFrom_arithFlags rfl, finish_pc _ _ (npc_even s)⟩

theorem Finishes.completesFreeFlags {v : Word} (h : Finishes i g (.free d v s) s) (hg : (waited i s).resolved g = true) :
    CompletesFreeFlags i d v s :=
  ⟨_, h.next hg, writesRegister_finish i (.free d v s) s, rfl, finish_pc _ _ (npc_even s)⟩

theorem Finishes.completesQuiet {v : Word} (h : Finishes i g (.quiet d v s) s) (hg : (waited i s).resolved g = true) :
    CompletesQuiet i d v s :=
  ⟨_, h.next hg, writesRegister_finish i (.quiet d v s) s, rfl, finish_pc _ _ (npc_even s)⟩

/-- A transfer keeps every bit of its target but bit 0 (spec/10_state.md R33). -/
theorem Finishes.goesTo {target : Word} (h : Finishes i .zr (.jump target s) s) :
    GoesTo i (BitVec.ofNat 16 (2 * (target.toNat / 2))) s :=
  ⟨_, h.next rfl, writesNoRegister_finish i rfl s, rfl, finish_pc_eq _ _⟩

theorem Finishes.goesTo_of_even {target : Word} (h : Finishes i .zr (.jump target s) s) (heven : target.toNat % 2 = 0) :
    GoesTo i target s :=
  ⟨_, h.next rfl, writesNoRegister_finish i rfl s, rfl, finish_pc _ _ heven⟩

theorem Finishes.goesToAndLinks {target : Word} (h : Finishes i .rp (.link target s) s)
    (hg : (waited i s).resolved .rp = true) : GoesToAndLinks i (BitVec.ofNat 16 (2 * (target.toNat / 2))) s :=
  ⟨_, h.next hg, writesRegister_finish i (.link target s) s, rfl, finish_pc_eq _ _⟩

end Consequences

end Sys2Proof.Machine
end

