-- ==== Sys2Proof/Proofs/Meanings.lean ====
section
/-! PROOFS. What `exec` does for each instruction that goes on without memory, as a result (`Finishes`): the arithmetic, CSR,
comparison, select, logic, shift, load immediate, jump and system instructions. An alias follows its base instruction. -/

namespace Sys2Proof.Machine

/-! Arithmetic (spec/40_arithmetic.md). -/


theorem finishes_add (rd rs1 rs2 : Reg) (s : State) :
    Finishes (.add rd rs1 rs2) rd (.arith rd (addC (s.view rs1) (s.view rs2) false) s) s := by
  change addOp rd rs1 rs2 s = _
  rw [addOp, withSources_eq]
  rfl

theorem finishes_addc (rd rs1 rs2 : Reg) (s : State) :
    Finishes (.addc rd rs1 rs2) rd (.arith rd (addC (s.view rs1) (s.view rs2) s.fl.c) s) s := by
  change execAddc rd rs1 rs2 s = _
  rw [execAddc, withSources_eq]
  rfl

theorem finishes_sub (rd rs1 rs2 : Reg) (s : State) :
    Finishes (.sub rd rs1 rs2) rd (.arith rd (subC .notBorrow (s.view rs1) (s.view rs2) true) s) s := by
  change subOp _ rd rs1 rs2 s = _
  rw [subOp, withSources_eq]
  rfl

theorem finishes_subb (rd rs1 rs2 : Reg) (s : State) :
    Finishes (.subb rd rs1 rs2) rd (.arith rd (subC .notBorrow (s.view rs1) (s.view rs2) s.fl.c) s) s := by
  change subbOp _ rd rs1 rs2 s = _
  rw [subbOp, withSources_eq]
  rfl

theorem finishes_addi (rd : Reg) (imm : BitVec 8) (s : State) :
    Finishes (.addi rd imm) .zr (.arith rd (addC (s.view rd) (sext8 imm) false) s) s := by
  change addiOp rd imm s = _
  rw [addiOp, withSource_eq]
  rfl

theorem finishes_cmpi (rs : Reg) (imm : BitVec 8) (s : State) :
    Finishes (.cmpi rs imm) .zr (.arith .zr (subC .notBorrow (s.view rs) (sext8 imm) true) s) s := by
  change cmpiOp _ rs imm s = _
  rw [cmpiOp, withSource_eq]
  rfl

theorem finishes_nop (s : State) : Finishes .nop .zr (.flags s.fl s) s := rfl

/-! CSR access and comparison (spec/41_csr_compare.md). -/

theorem finishes_csrr_csrIp (rd : Reg) (s : State) :
    Finishes (.csrr rd Config.csrIp) rd (.quiet rd (s.pc + 2) s) s := by
  change csrrOp _ _ rd _ s = _
  rw [csrrOp, withCsr_csrIp]
  rfl

theorem finishes_csrr_csrFl (rd : Reg) (s : State) :
    Finishes (.csrr rd Config.csrFl) rd (.quiet rd s.fl.toWord s) s := by
  change csrrOp _ _ rd _ s = _
  rw [csrrOp, withCsr_csrFl]
  rfl

theorem exec_csrw (rs : Reg) (k : BitVec 6) (s : State) :
    exec (.csrw rs k) s = writeCsr Config.csrNumbers k (s.view rs) (waited (.csrw rs k) s) := by
  change csrwOp _ rs k s = _
  rw [csrwOp, withSource_eq]
  rfl

theorem finishes_csrw_csrFl (rs : Reg) (s : State) :
    Finishes (.csrw rs Config.csrFl) .zr (.flags (Flags.ofWord (s.view rs)) s) s := by
  rw [Finishes, exec_csrw, writeCsr_csrFl]
  rfl

theorem finishes_slt (rd rs1 rs2 : Reg) (s : State) :
    Finishes (.slt rd rs1 rs2) rd (.free rd (sltValue .signedCompare (s.view rs1) (s.view rs2)) s) s := by
  change sltOp _ _ rd rs1 rs2 s = _
  rw [sltOp, withSources_eq]
  rfl

theorem finishes_sltu (rd rs1 rs2 : Reg) (s : State) :
    Finishes (.sltu rd rs1 rs2) rd (.free rd (sltuValue (s.view rs1) (s.view rs2)) s) s := by
  change sltuOp _ rd rs1 rs2 s = _
  rw [sltuOp, withSources_eq]
  rfl

/-! Select and logic (spec/42_logic.md). -/

/-- `szr` checks its destination in any case and writes it when the second source is zero (R165, D38). -/
theorem finishes_szr (rd rs1 rs2 : Reg) (s : State) :
    Finishes (.szr rd rs1 rs2) rd (.free (if s.view rs2 = 0 then rd else .zr) (s.view rs1) s) s := by
  change szrOp _ rd rs1 rs2 s = _
  rw [szrOp, withSources_eq]
  by_cases htest : s.view rs2 = 0
  · rw [if_pos htest, if_pos htest]
    rfl
  · rw [if_neg htest, if_neg htest]
    rfl

/-- The register forms share one meaning, with the bitwise function as an argument. -/
theorem logicOp_eq (f : Word → Word → Word) (rd rs1 rs2 : Reg) (s : State) :
    logicOp Config.logicCarry f rd rs1 rs2 s =
      guardDest rd ((s.await rs1).await rs2)
        (.next (((s.await rs1).await rs2).finish (.logic rd (f (s.view rs1) (s.view rs2)) s))) := by
  rw [logicOp, withSources_eq]
  rfl

theorem finishes_ior (rd rs1 rs2 : Reg) (s : State) :
    Finishes (.ior rd rs1 rs2) rd (.logic rd (s.view rs1 ||| s.view rs2) s) s :=
  logicOp_eq (· ||| ·) rd rs1 rs2 s

theorem finishes_and (rd rs1 rs2 : Reg) (s : State) :
    Finishes (.and rd rs1 rs2) rd (.logic rd (s.view rs1 &&& s.view rs2) s) s :=
  logicOp_eq (· &&& ·) rd rs1 rs2 s

theorem finishes_xor (rd rs1 rs2 : Reg) (s : State) :
    Finishes (.xor rd rs1 rs2) rd (.logic rd (s.view rs1 ^^^ s.view rs2) s) s :=
  logicOp_eq (· ^^^ ·) rd rs1 rs2 s

/-- So do the immediate forms, whose register is read and written through one field. -/
theorem logicImmOp_eq (f : Word → Word → Word) (rd : Reg) (imm : Word) (s : State) :
    logicImmOp Config.logicCarry f rd imm s =
      guardDest .zr (s.await rd) (.next ((s.await rd).finish (.logic rd (f (s.view rd) imm) s))) := by
  rw [logicImmOp, withSource_eq]
  rfl

theorem finishes_iori (rd : Reg) (imm : BitVec 8) (s : State) :
    Finishes (.iori rd imm) .zr (.logic rd (s.view rd ||| sext8 imm) s) s :=
  logicImmOp_eq (· ||| ·) rd (sext8 imm) s

theorem finishes_ioriu (rd : Reg) (imm : BitVec 8) (s : State) :
    Finishes (.ioriu rd imm) .zr (.logic rd (s.view rd ||| zext8 imm) s) s :=
  logicImmOp_eq (· ||| ·) rd (zext8 imm) s

theorem finishes_andi (rd : Reg) (imm : BitVec 8) (s : State) :
    Finishes (.andi rd imm) .zr (.logic rd (s.view rd &&& sext8 imm) s) s :=
  logicImmOp_eq (· &&& ·) rd (sext8 imm) s

theorem finishes_andiu (rd : Reg) (imm : BitVec 8) (s : State) :
    Finishes (.andiu rd imm) .zr (.logic rd (s.view rd &&& zext8 imm) s) s :=
  logicImmOp_eq (· &&& ·) rd (zext8 imm) s

theorem finishes_xori (rd : Reg) (imm : BitVec 8) (s : State) :
    Finishes (.xori rd imm) .zr (.logic rd (s.view rd ^^^ sext8 imm) s) s :=
  logicImmOp_eq (· ^^^ ·) rd (sext8 imm) s

theorem finishes_xoriu (rd : Reg) (imm : BitVec 8) (s : State) :
    Finishes (.xoriu rd imm) .zr (.logic rd (s.view rd ^^^ zext8 imm) s) s :=
  logicImmOp_eq (· ^^^ ·) rd (zext8 imm) s

theorem finishes_biti (rs : Reg) (imm : BitVec 8) (s : State) :
    Finishes (.biti rs imm) .zr (.logic .zr (s.view rs &&& zext8 imm) s) s := by
  change bitiOp _ rs imm s = _
  rw [bitiOp, withSource_eq]
  rfl

/-! Shifts (spec/43_shift.md). -/

theorem shiftImmOp_eq (f : Word → BitVec 4 → Word) (rd : Reg) (amt : BitVec 4) (rs : Reg) (s : State) :
    shiftImmOp Config.flagsOtherAlu f rd amt rs s =
      guardDest rd (s.await rs) (.next ((s.await rs).finish (.free rd (f (s.view rs) amt) s))) := by
  rw [shiftImmOp, withSource_eq]
  rfl

theorem finishes_bsl (rd : Reg) (amt : BitVec 4) (rs : Reg) (s : State) :
    Finishes (.bsl rd amt rs) rd (.free rd (shl (s.view rs) amt) s) s :=
  shiftImmOp_eq shl rd amt rs s

theorem finishes_bsr (rd : Reg) (amt : BitVec 4) (rs : Reg) (s : State) :
    Finishes (.bsr rd amt rs) rd (.free rd (shr (s.view rs) amt) s) s :=
  shiftImmOp_eq shr rd amt rs s

theorem finishes_bsrs (rd : Reg) (amt : BitVec 4) (rs : Reg) (s : State) :
    Finishes (.bsrs rd amt rs) rd (.free rd (sar (s.view rs) amt) s) s :=
  shiftImmOp_eq sar rd amt rs s

theorem finishes_brr (rd : Reg) (amt : BitVec 4) (rs : Reg) (s : State) :
    Finishes (.brr rd amt rs) rd (.free rd (ror (s.view rs) amt) s) s :=
  shiftImmOp_eq ror rd amt rs s

/-- The amount of a register shift: the low four bits of the second source (R189). -/
def shiftAmount (v : Word) : BitVec 4 := v.extractLsb' 0 4

theorem shiftRegOp_eq (f : Word → BitVec 4 → Word) (rd rs1 rs2 : Reg) (s : State) :
    shiftRegOp Config.shiftAmountMode Config.flagsOtherAlu f rd rs1 rs2 s =
      guardDest rd ((s.await rs1).await rs2)
        (.next (((s.await rs1).await rs2).finish (.free rd (f (s.view rs1) (shiftAmount (s.view rs2))) s))) := by
  rw [shiftRegOp, withSources_eq]
  rfl

theorem finishes_bsld (rd rs1 rs2 : Reg) (s : State) :
    Finishes (.bsld rd rs1 rs2) rd (.free rd (shl (s.view rs1) (shiftAmount (s.view rs2))) s) s :=
  shiftRegOp_eq shl rd rs1 rs2 s

theorem finishes_bsrd (rd rs1 rs2 : Reg) (s : State) :
    Finishes (.bsrd rd rs1 rs2) rd (.free rd (shr (s.view rs1) (shiftAmount (s.view rs2))) s) s :=
  shiftRegOp_eq shr rd rs1 rs2 s

theorem finishes_bsrsd (rd rs1 rs2 : Reg) (s : State) :
    Finishes (.bsrsd rd rs1 rs2) rd (.free rd (sar (s.view rs1) (shiftAmount (s.view rs2))) s) s :=
  shiftRegOp_eq sar rd rs1 rs2 s

theorem finishes_brrd (rd rs1 rs2 : Reg) (s : State) :
    Finishes (.brrd rd rs1 rs2) rd (.free rd (ror (s.view rs1) (shiftAmount (s.view rs2))) s) s :=
  shiftRegOp_eq ror rd rs1 rs2 s

/-! Load immediate (spec/44_load_immediate.md). -/

theorem finishes_lli (rd : Reg) (imm : BitVec 8) (s : State) : Finishes (.lli rd imm) rd (.quiet rd (sext8 imm) s) s := rfl

theorem finishes_lui (rd : Reg) (imm : BitVec 8) (s : State) : Finishes (.lui rd imm) rd (.quiet rd (upper8 imm) s) s := rfl

/-! Jumps, branch, hints (spec/45_jump_branch.md). -/

theorem finishes_jmp (imm : BitVec 11) (s : State) : Finishes (.jmp imm) .zr (.jump (absoluteTarget imm) s) s := rfl

theorem finishes_jmpl (imm : BitVec 11) (s : State) : Finishes (.jmpl imm) .rp (.link (absoluteTarget imm) s) s := rfl

theorem finishes_jmpr (imm : BitVec 11) (s : State) :
    Finishes (.jmpr imm) .zr (.jump (s.pc + 2 + relativeOffset imm) s) s := rfl

theorem finishes_jmprl (imm : BitVec 11) (s : State) :
    Finishes (.jmprl imm) .rp (.link (s.pc + 2 + relativeOffset imm) s) s := rfl

theorem finishes_jmpd (rs : Reg) (s : State) : Finishes (.jmpd rs) .zr (.jump (s.view rs) s) s := by
  change jmpdOp rs s = _
  rw [jmpdOp, withSource_eq]
  rfl

/-- The register is read before rp is written (R225). -/
theorem finishes_jmpdl (rs : Reg) (s : State) : Finishes (.jmpdl rs) .rp (.link (s.view rs) s) s := by
  change execJmpdl rs s = _
  rw [execJmpdl, withSource_eq]
  rfl

theorem finishes_brh (cond : Cond) (imm : BitVec 8) (s : State) :
    Finishes (.brh cond imm) .zr
      (.jump (if condHolds cond s.fl then s.pc + 2 + branchOffset imm else s.pc + 2) s) s := by
  change brhOp _ cond imm s = _
  rw [brhOp]
  split <;> rfl

theorem finishes_prfi (imm : BitVec 11) (s : State) : Finishes (.prfi imm) .zr (.jump (s.pc + 2) s) s := rfl

/-! System instructions (spec/46_system.md). -/

theorem finishes_ftlb (s : State) : Finishes .ftlb .zr (.jump (s.pc + 2) s) s := rfl

/-- `fence` waits for r1 to r7, which are its sources, and does nothing else (R241). -/
theorem finishes_fence (s : State) : Finishes .fence .zr (.jump (s.pc + 2) s) s := rfl

theorem finishes_scf (s : State) : Finishes .scf .zr (.flags { s.fl with c := true } s) s := rfl

theorem finishes_rscf (s : State) : Finishes .rscf .zr (.flags { s.fl with c := false } s) s := rfl

end Sys2Proof.Machine
end

