-- ==== Sys2Proof/Proofs/Transfers.lean ====
section
/-! PROOFS. Jumps, branches, returns and hints (spec/45_jump_branch.md, spec/46_system.md R242, spec/47_memory_ops.md R266). -/

namespace Sys2Proof.Machine

/-! When a register may be written. -/

/-- `destReady` in the terms of the check that `Finishes` makes. -/
theorem resolved_of_destReady {i : Instr} {d : Reg} {s : State} {b : Bool} (hd : destination i = some d)
    (h : destReady i s = b) : (waited i s).resolved d = b :=
  (destReady_of_destination hd s).symm.trans h

theorem destReady_of_resolved {i : Instr} {d : Reg} {s : State} (hd : destination i = some d) (h : s.resolved d = true) :
    destReady i s = true :=
  (destReady_of_destination hd s).trans (resolved_waited_of_resolved i h)

/-! Offsets as numbers. -/

theorem ofInt_shiftLeft_one (n : Int) : BitVec.ofInt 16 n <<< 1 = BitVec.ofInt 16 (2 * n) := by
  apply BitVec.eq_of_toNat_eq
  simp only [BitVec.toNat_shiftLeft, BitVec.toNat_ofInt, Nat.shiftLeft_eq]
  omega

/-- Twice a signed operand (spec/30_encoding.md R93). -/
theorem relativeOffset_eq (imm : BitVec 11) : relativeOffset imm = BitVec.ofInt 16 (2 * imm.toInt) :=
  ofInt_shiftLeft_one imm.toInt

theorem branchOffset_eq (imm : BitVec 8) : branchOffset imm = BitVec.ofInt 16 (2 * imm.toInt) :=
  ofInt_shiftLeft_one imm.toInt

theorem add_even {a b : Word} (ha : a.toNat % 2 = 0) (hb : b.toNat % 2 = 0) : (a + b).toNat % 2 = 0 := by
  rw [BitVec.toNat_add]
  omega

theorem ofInt_two_mul_even (n : Int) : (BitVec.ofInt 16 (2 * n)).toNat % 2 = 0 := by
  rw [BitVec.toNat_ofInt]
  omega

/-- A relative target is even. -/
theorem relative_even (s : State) (n : Int) : (s.pc + 2 + BitVec.ofInt 16 (2 * n)).toNat % 2 = 0 :=
  add_even (npc_even s) (ofInt_two_mul_even n)

/-- An even target is its own value with bit 0 dropped. -/
theorem ofNat_drop_bit {target : Word} (h : target.toNat % 2 = 0) : BitVec.ofNat 16 (2 * (target.toNat / 2)) = target := by
  apply BitVec.eq_of_toNat_eq
  rw [BitVec.toNat_ofNat]
  omega

theorem absoluteTarget_even (imm : BitVec 11) : (absoluteTarget imm).toNat % 2 = 0 := by
  rw [absoluteTarget_toNat]
  omega

/-! Where each transfer goes. -/

theorem goesTo_jmpr (imm : BitVec 11) (s : State) : GoesTo (.jmpr imm) (s.pc + 2 + BitVec.ofInt 16 (2 * imm.toInt)) s := by
  rw [← relativeOffset_eq]
  refine (finishes_jmpr imm s).goesTo_of_even ?_
  rw [relativeOffset_eq]
  exact relative_even s _

/-- `brh` goes to its target when the condition holds, and on otherwise (R227). -/
theorem goesTo_brh (cond : Cond) (imm : BitVec 8) (s : State) :
    GoesTo (.brh cond imm)
      (if condHolds cond s.fl then s.pc + 2 + BitVec.ofInt 16 (2 * imm.toInt) else s.pc + 2) s := by
  have h := finishes_brh cond imm s
  rw [branchOffset_eq] at h
  refine h.goesTo_of_even ?_
  split
  · exact relative_even s _
  · exact npc_even s

theorem goesToAndLinks_of_even {i : Instr} {target : Word} {s : State} (h : Finishes i .rp (.link target s) s)
    (hready : destReady i s = true) (hd : destination i = some .rp) (heven : target.toNat % 2 = 0) :
    GoesToAndLinks i target s := by
  have hgo := h.goesToAndLinks (resolved_of_destReady hd hready)
  rwa [ofNat_drop_bit heven] at hgo

theorem goesToAndLinks_jmpl {imm : BitVec 11} {s : State} (h : destReady (.jmpl imm) s = true) :
    GoesToAndLinks (.jmpl imm) (BitVec.ofNat 16 (32 * imm.toNat)) s := by
  rw [← absoluteTarget_eq]
  exact goesToAndLinks_of_even (finishes_jmpl imm s) h rfl (absoluteTarget_even imm)

theorem goesToAndLinks_jmprl {imm : BitVec 11} {s : State} (h : destReady (.jmprl imm) s = true) :
    GoesToAndLinks (.jmprl imm) (s.pc + 2 + BitVec.ofInt 16 (2 * imm.toInt)) s := by
  have hfin := finishes_jmprl imm s
  rw [relativeOffset_eq] at hfin
  exact goesToAndLinks_of_even hfin h rfl (relative_even s _)

theorem goesToAndLinks_jmpdl {rs : Reg} {s : State} (h : destReady (.jmpdl rs) s = true) :
    GoesToAndLinks (.jmpdl rs) (BitVec.ofNat 16 (2 * ((s.view rs).toNat / 2))) s :=
  (finishes_jmpdl rs s).goesToAndLinks (resolved_of_destReady rfl h)

/-! The obligations. -/

/-- Settles O32: the target of `jmpr` is even, so pc holds all of it. -/
theorem relativeJumpRule : Obligations.RelativeJumpRule := by
  unfold Obligations.RelativeJumpRule
  exact goesTo_jmpr

/-- Settles O33: `goesTo_brh` under each condition of R227. -/
theorem branchRule : Obligations.BranchRule := by
  unfold Obligations.BranchRule
  rintro imm s _ rfl
  refine ⟨goesTo_brh .c imm s, goesTo_brh .s imm s, goesTo_brh .z imm s, ?_, ?_, ?_⟩
  · simpa [condHolds] using goesTo_brh .nc imm s
  · simpa [condHolds] using goesTo_brh .ns imm s
  · simpa [condHolds] using goesTo_brh .nz imm s

theorem finishes_ret (s : State) : Finishes .ret .zr (.jump (s.view .rp) s) s :=
  Finishes.of_core (finishes_jmpd .rp s)

/-- Settles O34: pc drops bit 0 of the register (`Finishes.goesTo`). -/
theorem registerJumpRules : Obligations.RegisterJumpRules := by
  unfold Obligations.RegisterJumpRules
  intro rs s
  exact ⟨(finishes_jmpd rs s).goesTo, (finishes_ret s).goesTo⟩

/-- Settles O35: the three linking jumps share `Result.link`; only `jmpdl rp` reads its own destination. -/
theorem linkingJumpRules : Obligations.LinkingJumpRules := by
  unfold Obligations.LinkingJumpRules
  intro imm rs s
  refine ⟨fun h => goesToAndLinks_jmpl (destReady_of_resolved rfl h),
    fun h => goesToAndLinks_jmprl (destReady_of_resolved rfl h), goesToAndLinks_jmpdl, fun h => ?_, fun h hne => ?_,
    goesToAndLinks_jmpdl (by simp [destReady, destination, sources])⟩
  · exact ⟨(finishes_jmpl imm s).faultsOnWrite h, (finishes_jmprl imm s).faultsOnWrite h⟩
  · refine (finishes_jmpdl rs s).faultsOnWrite ?_
    rwa [resolved_waited_of_not_mem (by simpa [sources] using hne.symm)]

/-! Frames as seen by a reader. -/

section Frames
variable {i : Instr} {d r : Reg} {v : Word} {s t : State}

theorem view_of_keepsRegs {written : List Reg} (h : KeepsRegs i written s t) (hr : r ∉ written) : t.view r = s.view r := by
  rw [State.view, h r hr]
  split
  · exact resolve_view _
  · rfl

theorem resolved_of_keepsRegs {written : List Reg} (h : KeepsRegs i written s t) (hr : r ∉ written)
    (hres : s.resolved r = true) : t.resolved r = true := by
  rw [State.resolved, h r hr]
  split
  · rw [resolve_load]; rfl
  · exact hres

theorem WritesRegister.view_of_ne (h : WritesRegister i d v s t) (hr : r ≠ d) : t.view r = s.view r :=
  view_of_keepsRegs h.registers (by simpa using hr)

theorem WritesRegister.resolved_of_ne (h : WritesRegister i d v s t) (hr : r ≠ d) (hres : s.resolved r = true) :
    t.resolved r = true :=
  resolved_of_keepsRegs h.registers (by simpa using hr) hres

theorem WritesRegister.view_dest (h : WritesRegister i d v s t) (hd : d ≠ .zr) : t.view d = v := by
  rw [State.view, h.result hd]
  rfl

theorem keepsMemory_trans {u : State} (h1 : KeepsMemory s t) (h2 : KeepsMemory t u) : KeepsMemory s u :=
  fun a => (h2 a).trans (h1 a)

theorem keepsSystem_trans {u : State} (h1 : KeepsSystem s t) (h2 : KeepsSystem t u) : KeepsSystem s u := by
  obtain ⟨hira, hpen, hhidden, hmode, hcode⟩ := h1
  obtain ⟨hira', hpen', hhidden', hmode', hcode'⟩ := h2
  exact ⟨hira'.trans hira, hpen'.trans hpen, hhidden'.trans hhidden, hmode'.trans hmode, hcode'.trans hcode⟩

end Frames

/-! Call and return. -/

/-- What every call has in common: it goes somewhere and leaves the address behind it in rp. -/
theorem call_links {call : Instr} {s : State}
    (hcall : (∃ imm, call = .jmpl imm) ∨ (∃ imm, call = .jmprl imm) ∨ ∃ rs, call = .jmpdl rs)
    (hready : destReady call s = true) : ∃ target, GoesToAndLinks call target s := by
  obtain ⟨imm, rfl⟩ | ⟨imm, rfl⟩ | ⟨rs, rfl⟩ := hcall
  · exact ⟨_, goesToAndLinks_jmpl hready⟩
  · exact ⟨_, goesToAndLinks_jmprl hready⟩
  · exact ⟨_, goesToAndLinks_jmpdl hready⟩

/-- Settles O36: `ret` goes to the link value, an even address, and neither instruction changes anything else. -/
theorem returnAfterCall : Obligations.ReturnAfterCall := by
  unfold Obligations.ReturnAfterCall
  intro call s hcall hready
  obtain ⟨target, t, ht, hwrites, hfl, -⟩ := call_links hcall hready
  obtain ⟨u, hu, hnone, hfl', hpc⟩ := (registerJumpRules .rp t).2
  refine ⟨t, u, ht, hu, ?_, hfl'.trans hfl, fun r hr => ?_, keepsMemory_trans hwrites.memory hnone.memory,
    keepsSystem_trans hwrites.system hnone.system⟩
  · rw [hpc, hwrites.view_dest (by decide), ofNat_drop_bit (npc_even s)]
  · rw [view_of_keepsRegs hnone.registers (by simp), hwrites.view_of_ne hr]

/-! Hints. -/

theorem finishes_mld_zr (imm : BitVec 5) (base : Reg) (s : State) : Finishes (.mld .zr imm base) .zr (.jump (s.pc + 2) s) s := by
  change loadByteOp Config.mmio .zr imm base s = _
  rw [loadByteOp, withSource_eq, if_pos rfl]
  rfl

theorem finishes_mldw_zr (imm : BitVec 5) (base : Reg) (s : State) :
    Finishes (.mldw .zr imm base) .zr (.jump (s.pc + 2) s) s := by
  change loadWordOp Config.misalignedWord Config.mmio .zr imm base s = _
  rw [loadWordOp, withSource_eq, if_pos rfl]
  rfl

theorem finishes_prfd (imm : BitVec 5) (base : Reg) (s : State) :
    Finishes (.prfd imm base) .zr (.jump (s.pc + 2) s) s :=
  Finishes.of_core (finishes_mldw_zr imm base s)

/-- Settles O37: each hint is a transfer to the next instruction. -/
theorem hintsDoNothing : Obligations.HintsDoNothing := by
  unfold Obligations.HintsDoNothing
  intro target imm base s
  exact ⟨(finishes_prfi target s).goesTo_of_even (npc_even s), (finishes_ftlb s).goesTo_of_even (npc_even s),
    (finishes_prfd imm base s).goesTo_of_even (npc_even s), (finishes_mld_zr imm base s).goesTo_of_even (npc_even s),
    (finishes_mldw_zr imm base s).goesTo_of_even (npc_even s)⟩

end Sys2Proof.Machine
end

