-- ==== Sys2Proof/Proofs/Arithmetic.lean ====
section
/-! PROOFS. The arithmetic instructions (spec/40_arithmetic.md): results and carries as numbers, and what follows for comparison,
branching and 32-bit arithmetic. -/

namespace Sys2Proof.Machine

/-! Results and carries as numbers. -/

/-- The sign-extended immediate as an unsigned and as a signed number. -/
theorem sext8_cases (imm : BitVec 8) :
    (imm.toNat < 128 ∧ (sext8 imm).toNat = imm.toNat ∧ imm.toInt = imm.toNat) ∨
    (128 ≤ imm.toNat ∧ (sext8 imm).toNat = imm.toNat + 65280 ∧ imm.toInt = imm.toNat - 256) := by
  have hlt := imm.isLt
  have hint := BitVec.toInt_eq_toNat_cond imm
  rw [sext8_eq_ofInt, BitVec.toNat_ofInt]
  by_cases h : imm.toNat < 128
  · left
    rw [if_pos (by omega)] at hint
    omega
  · right
    rw [if_neg (by omega)] at hint
    omega

theorem sext8_toNat (imm : BitVec 8) : (sext8 imm).toNat = sextNat imm := by
  rw [sextNat]
  obtain ⟨h, hs, -⟩ | ⟨h, hs, -⟩ := sext8_cases imm
  · rw [if_neg (by omega), hs]
  · rw [if_pos h, hs]

/-- Subtraction as a + ~b + cin: the difference modulo 2^16, and no borrow (R132, R133). -/
theorem subC_notBorrow (a b : Word) (cin : Bool) :
    subC .notBorrow a b cin =
      (BitVec.ofInt 16 (a.toNat - b.toNat - (1 - cin.toNat)), decide (b.toNat + (1 - cin.toNat) ≤ a.toNat)) := by
  have ha := a.isLt
  have hb := b.isLt
  refine Prod.ext (BitVec.eq_of_toNat_eq ?_) (decide_eq_decide.mpr ?_)
  · simp only [subC, addC, BitVec.toNat_ofNat, BitVec.toNat_ofInt, BitVec.toNat_not]
    cases cin <;> simp only [Bool.toNat_true, Bool.toNat_false] <;> omega
  · simp only [BitVec.toNat_not]
    cases cin <;> simp only [Bool.toNat_true, Bool.toNat_false] <;> omega

theorem subC_notBorrow_true (a b : Word) :
    subC .notBorrow a b true = (BitVec.ofInt 16 (a.toNat - b.toNat), decide (b.toNat ≤ a.toNat)) := by
  simpa using subC_notBorrow a b true

theorem subC_zero_left (b : Word) :
    subC .notBorrow 0 b true = (BitVec.ofInt 16 (-b.toNat), decide (b.toNat = 0)) := by
  rw [subC_notBorrow_true]
  simp

theorem subC_sext8 (a : Word) (imm : BitVec 8) :
    subC .notBorrow a (sext8 imm) true = (BitVec.ofInt 16 (a.toNat - imm.toInt), decide (sextNat imm ≤ a.toNat)) := by
  rw [subC_notBorrow_true, sext8_toNat]
  refine Prod.ext (BitVec.eq_of_toNat_eq ?_) rfl
  rw [← sext8_toNat, BitVec.toNat_ofInt, BitVec.toNat_ofInt]
  obtain ⟨-, hs, hi⟩ | ⟨-, hs, hi⟩ := sext8_cases imm
  · rw [hs, hi]
  · rw [hs, hi]
    omega

theorem addC_sext8 (a : Word) (imm : BitVec 8) :
    addC a (sext8 imm) false = (BitVec.ofInt 16 (a.toNat + imm.toInt), decide (65536 ≤ a.toNat + sextNat imm)) := by
  refine Prod.ext (BitVec.eq_of_toNat_eq ?_) (by rw [← sext8_toNat]; rfl)
  simp only [addC, BitVec.toNat_ofNat, BitVec.toNat_ofInt, Bool.toNat_false]
  obtain ⟨-, hs, hi⟩ | ⟨-, hs, hi⟩ := sext8_cases imm
  · rw [hs, hi]
    omega
  · rw [hs, hi]
    omega

theorem addC_false (a b : Word) :
    addC a b false = (BitVec.ofNat 16 (a.toNat + b.toNat), decide (65536 ≤ a.toNat + b.toNat)) := by
  simp [addC]

theorem addC_zero_right (a : Word) : addC a 0 false = (a, false) := by
  have ha : ¬ 65536 ≤ a.toNat := Nat.not_le.mpr a.isLt
  simp [addC, ha]

theorem addC_sext8_one (a : Word) :
    addC a (sext8 0x01) false = (BitVec.ofNat 16 (a.toNat + 1), decide (a.toNat = 65535)) := by
  have ha := a.isLt
  have himm : (sext8 0x01).toNat = 1 := rfl
  rw [addC_false, himm, decide_eq_decide.mpr (by omega : 65536 ≤ a.toNat + 1 ↔ a.toNat = 65535)]

theorem addC_sext8_minus_one (a : Word) :
    addC a (sext8 0xFF) false = (BitVec.ofNat 16 (a.toNat + 65535), decide (a.toNat ≠ 0)) := by
  have himm : (sext8 0xFF).toNat = 65535 := rfl
  rw [addC_false, himm, decide_eq_decide.mpr (by omega : 65536 ≤ a.toNat + 65535 ↔ a.toNat ≠ 0)]

/-! Addition. -/

/-- Settles O7: `finishes_add`, whose result and carry are those of the sum. -/
theorem addRule : Obligations.AddRule := by
  unfold Obligations.AddRule
  intro rd rs1 rs2 s
  have h := finishes_add rd rs1 rs2 s
  rw [addC_false] at h
  exact ⟨fun hready => h.completesArith (resolved_of_destReady rfl hready),
    fun hnot => h.faultsOnWrite (resolved_of_destReady rfl hnot), rfl, rfl⟩

/-- Settles O8: `finishes_addc`; the carry in is a third term of the sum. -/
theorem addWithCarry : Obligations.AddWithCarry := by
  unfold Obligations.AddWithCarry
  intro rd rs1 rs2 s
  have h := finishes_addc rd rs1 rs2 s
  exact ⟨fun hready => h.completesArith (resolved_of_destReady rfl hready),
    fun hnot => h.faultsOnWrite (resolved_of_destReady rfl hnot)⟩

/-- `addi` has its register among its sources, so no destination is checked (R134). -/
theorem completesArith_addi (rd : Reg) (imm : BitVec 8) (s : State) :
    CompletesArith (.addi rd imm) rd (BitVec.ofInt 16 ((s.view rd).toNat + imm.toInt))
      (decide (65536 ≤ (s.view rd).toNat + sextNat imm)) s := by
  have h := finishes_addi rd imm s
  rw [addC_sext8] at h
  exact h.completesArith rfl

/-- Settles O11: the sum with the sign-extended immediate as a number is `addC_sext8`. -/
theorem addImmediateRule : Obligations.AddImmediateRule := by
  unfold Obligations.AddImmediateRule
  exact fun rd imm s => ⟨completesArith_addi rd imm s, rfl, rfl⟩

/-! Subtraction and comparison. -/

theorem finishes_neg (rd rs : Reg) (s : State) :
    Finishes (.neg rd rs) rd (.arith rd (subC .notBorrow 0 (s.view rs) true) s) s :=
  Finishes.of_core (finishes_sub rd .zr rs s)

theorem finishes_cmp (rs1 rs2 : Reg) (s : State) :
    Finishes (.cmp rs1 rs2) .zr (.arith .zr (subC .notBorrow (s.view rs1) (s.view rs2) true) s) s :=
  Finishes.of_core (finishes_sub .zr rs1 rs2 s)

/-- Settles O9: the differences as numbers are `subC_notBorrow` and its special cases. -/
theorem subtractRules : Obligations.SubtractRules := by
  unfold Obligations.SubtractRules
  intro rd rs1 rs2 s
  have hsub := finishes_sub rd rs1 rs2 s
  have hsubb := finishes_subb rd rs1 rs2 s
  have hneg := finishes_neg rd rs2 s
  rw [subC_notBorrow_true] at hsub
  rw [subC_notBorrow] at hsubb
  rw [subC_zero_left] at hneg
  exact ⟨fun h => hsub.completesArith (resolved_of_destReady rfl h),
    fun h => hsubb.completesArith (resolved_of_destReady rfl h),
    fun h => hneg.completesArith (resolved_of_destReady rfl h),
    fun h => hsub.faultsOnWrite (resolved_of_destReady rfl h),
    fun h => hsubb.faultsOnWrite (resolved_of_destReady rfl h),
    fun h => hneg.faultsOnWrite (resolved_of_destReady rfl h)⟩

theorem completesCompare_cmp (rs1 rs2 : Reg) (s : State) :
    CompletesCompare (.cmp rs1 rs2) (BitVec.ofInt 16 ((s.view rs1).toNat - (s.view rs2).toNat))
      (decide ((s.view rs2).toNat ≤ (s.view rs1).toNat)) s := by
  have h := finishes_cmp rs1 rs2 s
  rw [subC_notBorrow_true] at h
  exact h.completesCompare

/-- Settles O10: a comparison is a subtraction into r0, which is always ready. -/
theorem compareRules : Obligations.CompareRules := by
  unfold Obligations.CompareRules
  intro rs1 rs2 imm s
  have hcmpi := finishes_cmpi rs1 imm s
  rw [subC_sext8] at hcmpi
  exact ⟨completesCompare_cmp rs1 rs2 s, hcmpi.completesCompare⟩

/-! Aliases of addition. -/

theorem finishes_mov (rd rs : Reg) (s : State) : Finishes (.mov rd rs) rd (.arith rd (s.view rs, false) s) s := by
  have h : Finishes (.mov rd rs) rd (.arith rd (addC (s.view rs) 0 false) s) s :=
    Finishes.of_core (finishes_add rd rs .zr s)
  rwa [addC_zero_right] at h

theorem finishes_test (rs : Reg) (s : State) : Finishes (.test rs) .zr (.arith .zr (s.view rs, false) s) s := by
  have h : Finishes (.test rs) .zr (.arith .zr (addC (s.view rs) 0 false) s) s :=
    Finishes.of_core (finishes_add .zr rs .zr s)
  rwa [addC_zero_right] at h

theorem finishes_inc (rd : Reg) (s : State) :
    Finishes (.inc rd) .zr (.arith rd (addC (s.view rd) (sext8 0x01) false) s) s :=
  Finishes.of_core (finishes_addi rd 0x01 s)

theorem completesArith_inc (rd : Reg) (s : State) :
    CompletesArith (.inc rd) rd (BitVec.ofNat 16 ((s.view rd).toNat + 1)) (decide ((s.view rd).toNat = 65535)) s := by
  have h := finishes_inc rd s
  rw [addC_sext8_one] at h
  exact h.completesArith rfl

theorem finishes_dec (rd : Reg) (s : State) :
    Finishes (.dec rd) .zr (.arith rd (addC (s.view rd) (sext8 0xFF) false) s) s :=
  Finishes.of_core (finishes_addi rd 0xFF s)

theorem completesArith_dec (rd : Reg) (s : State) :
    CompletesArith (.dec rd) rd (BitVec.ofNat 16 ((s.view rd).toNat + 65535)) (decide ((s.view rd).toNat ≠ 0)) s := by
  have h := finishes_dec rd s
  rw [addC_sext8_minus_one] at h
  exact h.completesArith rfl

theorem finishes_alloc (imm : BitVec 8) (s : State) :
    Finishes (.alloc imm) .zr (.arith .sp (addC (s.view .sp) (sext8 imm) false) s) s :=
  Finishes.of_core (finishes_addi .sp imm s)

theorem completesArith_alloc (imm : BitVec 8) (s : State) :
    CompletesArith (.alloc imm) .sp (BitVec.ofInt 16 ((s.view .sp).toNat + imm.toInt))
      (decide (65536 ≤ (s.view .sp).toNat + sextNat imm)) s := by
  have h := finishes_alloc imm s
  rw [addC_sext8] at h
  exact h.completesArith rfl

/-- Settles O12: each alias by its base instruction's rule, with the fixed operand put in. -/
theorem additionAliases : Obligations.AdditionAliases := by
  unfold Obligations.AdditionAliases
  intro rd rs imm s
  have hmov := finishes_mov rd rs s
  exact ⟨fun h => hmov.completesArith (resolved_of_destReady rfl h),
    fun h => hmov.faultsOnWrite (resolved_of_destReady rfl h), (finishes_test rs s).completesCompare,
    completesArith_inc rd s, completesArith_dec rd s, completesArith_alloc imm s, rfl, rfl, rfl, rfl, rfl, rfl, rfl, rfl,
    rfl, rfl, rfl⟩

/-! Branching on a comparison. -/

/-- A difference is zero exactly when the operands are equal. -/
theorem difference_zero_iff (a b : Word) : (BitVec.ofInt 16 (a.toNat - b.toNat)).toNat = 0 ↔ a = b := by
  have ha := a.isLt
  have hb := b.isLt
  rw [BitVec.toNat_ofInt, ← BitVec.toNat_inj]
  omega

/-- The sign of a difference that does not overflow is the signed order (spec/40_arithmetic.md R143). -/
theorem difference_sign_iff {a b : Word} (hlo : -32768 ≤ a.toInt - b.toInt) (hhi : a.toInt - b.toInt ≤ 32767) :
    2 ^ 15 ≤ (BitVec.ofInt 16 (a.toNat - b.toNat)).toNat ↔ a.toInt < b.toInt := by
  have ha := BitVec.toInt_eq_toNat_cond a
  have hb := BitVec.toInt_eq_toNat_cond b
  have hla := a.isLt
  have hlb := b.isLt
  rw [BitVec.toNat_ofInt]
  split at ha <;> split at hb <;> omega

/-- Settles O13: `cmp` leaves the flags of the difference, and `brh` goes by them from the next instruction. -/
theorem compareThenBranch : Obligations.CompareThenBranch := by
  unfold Obligations.CompareThenBranch
  intro a b imm s
  obtain ⟨t, ht, -, hfl, hpc⟩ := completesCompare_cmp a b s
  have hpc4 : t.pc + 2 = s.pc + 4 := by rw [hpc, BitVec.add_assoc]; rfl
  have hgo (cond : Cond) := goesTo_brh cond imm t
  simp only [hpc4, hfl, flagsOf, condHolds] at hgo
  refine ⟨t, ht, ?_, ?_, ?_, ?_, fun hlo hhi => ?_⟩
  · simpa only [difference_zero_iff, decide_eq_true_eq] using hgo .z
  · simpa only [difference_zero_iff, Bool.not_eq_true', decide_eq_false_iff_not, ite_not] using hgo .nz
  · simpa only [decide_eq_true_eq] using hgo .c
  · simpa only [Bool.not_eq_true', decide_eq_false_iff_not, ite_not] using hgo .nc
  · simpa only [difference_sign_iff hlo hhi, decide_eq_true_eq] using hgo .s

/-! Destination zr. -/

section ZeroDestination
variable {i : Instr} {g : Reg} {r : Result} {s : State}

/-- A result for r0 leaves its flags and nothing else. -/
theorem Finishes.flagsOnly (h : Finishes i .zr r s) (hd : r.dest = .zr) (hpc : r.target = s.pc + 2) :
    ∃ t, exec i s = .next t ∧ WritesNoRegister i s t ∧ t.pc = s.pc + 2 ∧ t.fl = r.fl := by
  refine ⟨_, h.next rfl, writesNoRegister_finish i hd s, ?_, rfl⟩
  rw [finish_pc _ _ (by rw [hpc]; exact npc_even s), hpc]

theorem Finishes.fl_of_next {t : State} (h : Finishes i g r s) (ht : exec i s = .next t) : t.fl = r.fl := by
  rw [h.finish_of_next ht, finish_fl]

/-- A register form whose flags do not depend on its destination, at destination zr. -/
theorem flagsOnly_register {f : Reg → Reg → Reg → Instr} {res : Reg → Result} {a b : Reg}
    (h : ∀ rd, Finishes (f rd a b) rd (res rd) s) (hzr : (res .zr).dest = .zr) (hpc : (res .zr).target = s.pc + 2)
    (hfl : ∀ rd, (res rd).fl = (res .zr).fl) :
    ∃ t, exec (f .zr a b) s = .next t ∧ WritesNoRegister (f .zr a b) s t ∧ t.pc = s.pc + 2 ∧
      ∀ rd t', exec (f rd a b) s = .next t' → t'.fl = t.fl := by
  obtain ⟨t, ht, hnone, htpc, htfl⟩ := (h .zr).flagsOnly hzr hpc
  refine ⟨t, ht, hnone, htpc, fun rd t' ht' => ?_⟩
  rw [(h rd).fl_of_next ht', hfl, htfl]

/-- An immediate form whose flags depend on its register's value only, at register zr. -/
theorem flagsOnly_immediate {f : Reg → BitVec 8 → Instr} {res : Reg → Result} {imm : BitVec 8}
    (h : ∀ rd, Finishes (f rd imm) .zr (res rd) s) (hzr : (res .zr).dest = .zr) (hpc : (res .zr).target = s.pc + 2)
    (hfl : ∀ rd, s.view rd = 0 → (res rd).fl = (res .zr).fl) :
    ∃ t, exec (f .zr imm) s = .next t ∧ WritesNoRegister (f .zr imm) s t ∧ t.pc = s.pc + 2 ∧
      ∀ rd t', s.view rd = 0 → exec (f rd imm) s = .next t' → t'.fl = t.fl := by
  obtain ⟨t, ht, hnone, htpc, htfl⟩ := (h .zr).flagsOnly hzr hpc
  refine ⟨t, ht, hnone, htpc, fun rd t' hrd ht' => ?_⟩
  rw [(h rd).fl_of_next ht', hfl rd hrd, htfl]

theorem flagsOnly_compare {f : Reg → BitVec 8 → Instr} {res : Result} {rs : Reg} {imm : BitVec 8}
    (h : Finishes (f rs imm) .zr res s) (hzr : res.dest = .zr) (hpc : res.target = s.pc + 2) :
    ∃ t, exec (f rs imm) s = .next t ∧ WritesNoRegister (f rs imm) s t ∧ t.pc = s.pc + 2 := by
  obtain ⟨t, ht, hnone, htpc, -⟩ := h.flagsOnly hzr hpc
  exact ⟨t, ht, hnone, htpc⟩

/-- Flags written from a register that holds zero are those written from r0. -/
theorem arith_fl_of_view {op : Word → Word × Bool} {rd : Reg} (hrd : s.view rd = 0) :
    (Result.arith rd (op (s.view rd)) s).fl = (Result.arith .zr (op (s.view .zr)) s).fl := by
  rw [hrd, view_zr]
  rfl

theorem logic_fl_of_view {op : Word → Word} {rd : Reg} (hrd : s.view rd = 0) :
    (Result.logic rd (op (s.view rd)) s).fl = (Result.logic .zr (op (s.view .zr)) s).fl := by
  rw [hrd, view_zr]
  rfl

end ZeroDestination

/-- Settles O15: no instruction's flags depend on its destination, and with destination zr nothing else is written. -/
theorem zeroDestinationFlagsOnly : Obligations.ZeroDestinationFlagsOnly := by
  unfold Obligations.ZeroDestinationFlagsOnly
  intro a b imm s
  simp only [List.forall_mem_cons, List.not_mem_nil, false_implies, implies_true, and_true]
  refine ⟨⟨?_, ?_, ?_, ?_, ?_, ?_, ?_, ?_⟩, ⟨?_, ?_, ?_, ?_, ?_, ?_, ?_⟩, ⟨?_, ?_⟩, rfl, rfl⟩
  · exact flagsOnly_register (finishes_add · a b s) rfl rfl fun _ => rfl
  · exact flagsOnly_register (finishes_addc · a b s) rfl rfl fun _ => rfl
  · exact flagsOnly_register (finishes_sub · a b s) rfl rfl fun _ => rfl
  · exact flagsOnly_register (finishes_subb · a b s) rfl rfl fun _ => rfl
  · exact flagsOnly_register (finishes_szr · a b s) (ite_self _) rfl fun _ => rfl
  · exact flagsOnly_register (finishes_ior · a b s) rfl rfl fun _ => rfl
  · exact flagsOnly_register (finishes_and · a b s) rfl rfl fun _ => rfl
  · exact flagsOnly_register (finishes_xor · a b s) rfl rfl fun _ => rfl
  · exact flagsOnly_immediate (finishes_addi · imm s) rfl rfl fun _ => arith_fl_of_view (op := (addC · (sext8 imm) false))
  · exact flagsOnly_immediate (finishes_iori · imm s) rfl rfl fun _ => logic_fl_of_view (op := (· ||| sext8 imm))
  · exact flagsOnly_immediate (finishes_ioriu · imm s) rfl rfl fun _ => logic_fl_of_view (op := (· ||| zext8 imm))
  · exact flagsOnly_immediate (finishes_andi · imm s) rfl rfl fun _ => logic_fl_of_view (op := (· &&& sext8 imm))
  · exact flagsOnly_immediate (finishes_andiu · imm s) rfl rfl fun _ => logic_fl_of_view (op := (· &&& zext8 imm))
  · exact flagsOnly_immediate (finishes_xori · imm s) rfl rfl fun _ => logic_fl_of_view (op := (· ^^^ sext8 imm))
  · exact flagsOnly_immediate (finishes_xoriu · imm s) rfl rfl fun _ => logic_fl_of_view (op := (· ^^^ zext8 imm))
  · exact flagsOnly_compare (finishes_cmpi a imm s) rfl rfl
  · exact flagsOnly_compare (finishes_biti a imm s) rfl rfl

/-! 32-bit numbers in two registers. -/

section Wide
variable {lowI highI : Instr} {low high : Reg} {v w : Word} {s t u : State}

/-- After two results in distinct registers, each holds its own, and every other register has its old value. -/
theorem view_of_two_results (h1 : WritesRegister lowI low v s t) (h2 : WritesRegister highI high w t u) (hlow : low ≠ .zr)
    (hhigh : high ≠ .zr) (hne : low ≠ high) :
    u.view low = v ∧ u.view high = w ∧ ∀ r, r ≠ low → r ≠ high → u.view r = s.view r := by
  refine ⟨?_, h2.view_dest hhigh, fun r hrl hrh => ?_⟩
  · rw [h2.view_of_ne hne, h1.view_dest hlow]
  · rw [h2.view_of_ne hrh, h1.view_of_ne hrl]

end Wide

/-- Two 16-bit sums with a carry between them make a 32-bit sum. -/
theorem wide_sum (ah al bh bl : Word) {c : Bool} (hc : c = decide (65536 ≤ al.toNat + bl.toNat)) :
    65536 * (BitVec.ofNat 16 (ah.toNat + bh.toNat + c.toNat)).toNat + (BitVec.ofNat 16 (al.toNat + bl.toNat)).toNat =
      (65536 * ah.toNat + al.toNat + (65536 * bh.toNat + bl.toNat)) % 4294967296 ∧
    (65536 ≤ ah.toNat + bh.toNat + c.toNat ↔
      4294967296 ≤ 65536 * ah.toNat + al.toNat + (65536 * bh.toNat + bl.toNat)) := by
  have hal := al.isLt
  have hbl := bl.isLt
  simp only [BitVec.toNat_ofNat]
  by_cases h : 65536 ≤ al.toNat + bl.toNat <;> simp only [hc, h, decide_true, decide_false, Bool.toNat_true, Bool.toNat_false] <;>
    constructor <;> omega

/-- Two 16-bit differences with a borrow between them make a 32-bit difference. -/
theorem wide_difference (ah al bh bl : Word) {c : Bool} (hc : c = decide (bl.toNat ≤ al.toNat)) :
    ((65536 * (BitVec.ofInt 16 (ah.toNat - bh.toNat - (1 - c.toNat))).toNat +
        (BitVec.ofInt 16 (al.toNat - bl.toNat)).toNat : Nat) : Int) =
      ((65536 * ah.toNat + al.toNat : Nat) - (65536 * bh.toNat + bl.toNat : Nat) : Int) % 4294967296 ∧
    (bh.toNat + (1 - c.toNat) ≤ ah.toNat ↔ 65536 * bh.toNat + bl.toNat ≤ 65536 * ah.toNat + al.toNat) := by
  have hal := al.isLt
  have hbl := bl.isLt
  simp only [BitVec.toNat_ofInt]
  by_cases h : bl.toNat ≤ al.toNat <;> simp only [hc, h, decide_true, decide_false, Bool.toNat_true, Bool.toNat_false] <;>
    constructor <;> omega

/-- Settles O16: the low instruction leaves the carry that the high one takes; `wide_sum` and `wide_difference` are the numbers. -/
theorem wideArithmetic : Obligations.WideArithmetic := by
  unfold Obligations.WideArithmetic
  intro dl al bl dh ah bh s hdl hdh hne hah hbh hrl hrh
  constructor
  · obtain ⟨t, ht, hw1, hfl1, -⟩ := (addRule dl al bl s).1 (destReady_of_resolved rfl hrl)
    have hready := destReady_of_resolved (i := .addc dh ah bh) rfl (hw1.resolved_of_ne hne.symm hrh)
    obtain ⟨u, hu, hw2, hfl2, -⟩ := (addWithCarry dh ah bh t).1 hready
    obtain ⟨hlow, hhigh, hrest⟩ := view_of_two_results hw1 hw2 hdl hdh hne
    obtain ⟨hsum, hcarry⟩ := wide_sum (s.view ah) (s.view al) (s.view bh) (s.view bl) (congrArg Flags.c hfl1)
    refine ⟨t, u, ht, hu, ?_, ?_, hrest, keepsMemory_trans hw1.memory hw2.memory⟩
    · rw [hlow, hhigh, hw1.view_of_ne hah.symm, hw1.view_of_ne hbh.symm, hsum]
    · rw [hfl2, ← hcarry, hw1.view_of_ne hah.symm, hw1.view_of_ne hbh.symm]
      exact decide_eq_true_iff
  · obtain ⟨t, ht, hw1, hfl1, -⟩ := (subtractRules dl al bl s).1 (destReady_of_resolved rfl hrl)
    have hready := destReady_of_resolved (i := .subb dh ah bh) rfl (hw1.resolved_of_ne hne.symm hrh)
    obtain ⟨u, hu, hw2, hfl2, -⟩ := (subtractRules dh ah bh t).2.1 hready
    obtain ⟨hlow, hhigh, hrest⟩ := view_of_two_results hw1 hw2 hdl hdh hne
    obtain ⟨hdiff, hborrow⟩ := wide_difference (s.view ah) (s.view al) (s.view bh) (s.view bl) (congrArg Flags.c hfl1)
    refine ⟨t, u, ht, hu, ?_, ?_, hrest, keepsMemory_trans hw1.memory hw2.memory⟩
    · rw [hlow, hhigh, hw1.view_of_ne hah.symm, hw1.view_of_ne hbh.symm, hdiff]
    · rw [hfl2, ← hborrow, hw1.view_of_ne hah.symm, hw1.view_of_ne hbh.symm]
      exact decide_eq_true_iff

end Sys2Proof.Machine
end

