-- ==== Sys2Proof/Proofs/CsrCompare.lean ====
section
/-! PROOFS. CSR access and set-if-less-than (spec/41_csr_compare.md, spec/10_state.md R40 to R45), the carry flag (spec/46_system.md
R245, R246). -/

namespace Sys2Proof.Machine

/-! The value of fl. -/

/-- fl as a number: its four bits from bit 0 up (spec/10_state.md R34, R42). -/
theorem toWord_eq (fl : Flags) :
    fl.toWord = BitVec.ofNat 16 (fl.c.toNat + 2 * fl.s.toNat + 4 * fl.z.toNat + 8 * fl.u.toNat) := by
  obtain ⟨c, s, z, u⟩ := fl
  revert c s z u
  decide

theorem getLsbD_eq_decide (v : Word) (n : Nat) : v.getLsbD n = decide (v.toNat / 2 ^ n % 2 = 1) := by
  rw [BitVec.getLsbD, Nat.testBit_eq_decide_div_mod_eq]

theorem ofWord_eq (v : Word) :
    Flags.ofWord v = { c := decide (v.toNat % 2 = 1), s := decide (v.toNat / 2 % 2 = 1),
                       z := decide (v.toNat / 4 % 2 = 1), u := decide (v.toNat / 8 % 2 = 1) } := by
  simp only [Flags.ofWord, getLsbD_eq_decide, Nat.pow_zero, Nat.div_one, Nat.reducePow]

/-! CSR access. -/

theorem finishes_ip (rd : Reg) (s : State) : Finishes (.ip rd) rd (.quiet rd (s.pc + 2) s) s :=
  Finishes.of_core (finishes_csrr_csrIp rd s)

/-- The destination check comes before everything else a CSR read does (log 21). -/
theorem exec_csrr (rd : Reg) (k : BitVec 6) (s : State) :
    exec (.csrr rd k) s =
      guardDest rd s (withCsr Config.csrNumbers Config.csrIpValue k s fun v => writeBack rd v s) := rfl

theorem exec_csrr_of_resolved {rd : Reg} {s : State} (h : s.resolved rd = true) (k : BitVec 6) :
    exec (.csrr rd k) s = withCsr Config.csrNumbers Config.csrIpValue k s fun v => writeBack rd v s := by
  rw [exec_csrr, guardDest_eq, if_pos h]

theorem faultsOnWrite_csrr {rd : Reg} {k : BitVec 6} {s : State} (h : destReady (.csrr rd k) s = false) :
    FaultsOnWrite (.csrr rd k) rd s := by
  have hpending : s.resolved rd = false := h
  rw [FaultsOnWrite, exec_csrr, guardDest_eq, hpending]
  rfl

/-- Settles O17: the two readable CSRs by their meanings, and the write fault by the check that comes first. -/
theorem csrReads : Obligations.CsrReads := by
  unfold Obligations.CsrReads
  intro rd s
  have hfl := finishes_csrr_csrFl rd s
  rw [toWord_eq] at hfl
  exact ⟨fun h => (finishes_csrr_csrIp rd s).completesQuiet (resolved_of_destReady rfl h),
    fun h => (finishes_ip rd s).completesQuiet (resolved_of_destReady rfl h),
    fun h => hfl.completesQuiet (resolved_of_destReady rfl h), fun _ => faultsOnWrite_csrr,
    fun h => (finishes_ip rd s).faultsOnWrite (resolved_of_destReady rfl h)⟩

/-- The state after the pending interrupts have been cleared (spec/10_state.md R43). -/
def cleared (i : Instr) (s : State) : State := { waited i s with pendingInterrupts := [] }.advance

theorem exec_csrw_csrPen {rs : Reg} {s : State} (h : s.view rs = 0) :
    exec (.csrw rs Config.csrPen) s = .next (cleared (.csrw rs Config.csrPen) s) := by
  rw [exec_csrw, writeCsr_csrPen, if_pos h]
  rfl

theorem exec_clri (s : State) : exec .clri s = .next (cleared .clri s) := by
  rw [← exec_core .clri]
  exact exec_csrw_csrPen (view_zr s)

/-- What clearing the pending interrupts leaves unchanged: all but pc and the sources waited for. -/
theorem cleared_frame (i : Instr) (s : State) :
    (cleared i s).pendingInterrupts = [] ∧ KeepsRegs i [] s (cleared i s) ∧ KeepsMemory s (cleared i s) ∧
    (cleared i s).fl = s.fl ∧ (cleared i s).ira = s.ira ∧ (cleared i s).hidden = s.hidden ∧
    (cleared i s).mode = s.mode ∧ (cleared i s).code = s.code ∧ (cleared i s).pc = s.pc + 2 :=
  ⟨rfl, fun r _ => gpr_waited i s r, fun _ => rfl, rfl, rfl, rfl, rfl, rfl, advance_pc _⟩

/-- New flags, written by an instruction that writes no register. -/
theorem Finishes.writesFlags {i : Instr} {fl : Flags} {s : State} (h : Finishes i .zr (.flags fl s) s) :
    ∃ t, exec i s = .next t ∧ WritesNoRegister i s t ∧ t.fl = fl ∧ t.pc = s.pc + 2 :=
  ⟨_, h.next rfl, writesNoRegister_finish i rfl s, rfl, finish_pc _ _ (npc_even s)⟩

/-- Settles O18: `csrw` of fl writes flags only; `csrw` of zero to pen, and `clri`, clear the pending interrupts only. -/
theorem csrWrites : Obligations.CsrWrites := by
  unfold Obligations.CsrWrites
  intro rs s
  have hfl := finishes_csrw_csrFl rs s
  rw [ofWord_eq] at hfl
  exact ⟨hfl.writesFlags, fun h => ⟨_, exec_csrw_csrPen h, cleared_frame _ s⟩, ⟨_, exec_clri s, cleared_frame _ s⟩⟩

/-- A number that is none of the four has no meaning as a source. -/
theorem withCsr_unassigned {k : BitVec 6} (h : k ∉ [Config.csrIp, Config.csrFl, Config.csrPen, Config.csrIra])
    (s : State) (cont : Word → Outcome) :
    withCsr Config.csrNumbers Config.csrIpValue k s cont = .refused (.unassignedCsr k) := by
  simp only [List.mem_cons, List.not_mem_nil, or_false, not_or] at h
  obtain ⟨hip, hfl, hpen, hira⟩ := h
  simp [withCsr, Config.csrNumbers, hip, hfl, hpen, hira]

/-- Nor has it one as a target. -/
theorem writeCsr_unassigned {k : BitVec 6} (h : k ∉ [Config.csrIp, Config.csrFl, Config.csrPen, Config.csrIra])
    (v : Word) (s : State) : writeCsr Config.csrNumbers k v s = .refused (.unassignedCsr k) := by
  simp only [List.mem_cons, List.not_mem_nil, or_false, not_or] at h
  obtain ⟨hip, hfl, hpen, hira⟩ := h
  simp [writeCsr, Config.csrNumbers, hip, hfl, hpen, hira]

theorem csrNumbers_distinct : [Config.csrIp, Config.csrFl, Config.csrPen, Config.csrIra].Pairwise (· ≠ ·) := by
  simp [csrIp_ne_csrFl, csrIp_ne_csrPen, csrIp_ne_csrIra, csrFl_ne_csrPen, csrFl_ne_csrIra, csrPen_ne_csrIra]

/-- Settles O19: the four numbers are distinct, so each access without a meaning reaches its own refusal. -/
theorem csrRefusals : Obligations.CsrRefusals := by
  unfold Obligations.CsrRefusals
  refine ⟨csrNumbers_distinct, fun r k s => ⟨fun h => ?_, fun h => ?_, ?_, ?_, fun h => ?_, fun h => ⟨fun hr => ?_, ?_⟩⟩⟩
  · rw [exec_csrr_of_resolved h, withCsr_csrPen]
  · rw [exec_csrr_of_resolved h, withCsr_csrIra]
  · rw [exec_csrw, writeCsr_csrIp]
  · rw [exec_csrw, writeCsr_csrIra]
  · rw [exec_csrw, writeCsr_csrPen, if_neg h]
  · rw [exec_csrr_of_resolved hr, withCsr_unassigned h]
  · rw [exec_csrw, writeCsr_unassigned h]

/-! Set-if-less-than. -/

theorem finishes_sneg (rd rs : Reg) (s : State) :
    Finishes (.sneg rd rs) rd (.free rd (sltValue .signedCompare (s.view rs) 0) s) s :=
  Finishes.of_core (finishes_slt rd rs .zr s)

theorem finishes_spos (rd rs : Reg) (s : State) :
    Finishes (.spos rd rs) rd (.free rd (sltValue .signedCompare 0 (s.view rs)) s) s :=
  Finishes.of_core (finishes_slt rd .zr rs s)

theorem finishes_snez (rd rs : Reg) (s : State) :
    Finishes (.snez rd rs) rd (.free rd (sltuValue 0 (s.view rs)) s) s :=
  Finishes.of_core (finishes_sltu rd .zr rs s)

/-- A number is positive when it is none of 0 and those with bit 15 set (R157). -/
theorem sltValue_zero_left (v : Word) :
    sltValue .signedCompare 0 v = if 1 ≤ v.toNat ∧ v.toNat ≤ 32767 then 1 else 0 := by
  have hint := BitVec.toInt_eq_toNat_cond v
  have hlt := v.isLt
  refine if_congr ?_ rfl rfl
  change (0 : Int) < v.toInt ↔ _
  split at hint <;> omega

/-- Against 0 both readings of `slt` look at bit 15 (R152, R156). -/
theorem sltValue_zero_right (m : Config.SltMode) (v : Word) :
    sltValue m v 0 = if 32768 ≤ v.toNat then 1 else 0 := by
  have hlt := v.isLt
  cases m with
  | signedCompare =>
    have hint := BitVec.toInt_eq_toNat_cond v
    refine if_congr ?_ rfl rfl
    change v.toInt < 0 ↔ _
    split at hint <;> omega
  | signOfDifference =>
    have hdiff : (addC v (~~~0) true).1 = v := by
      apply BitVec.eq_of_toNat_eq
      have hzero : (0 : Word).toNat = 0 := rfl
      simp only [addC, BitVec.toNat_ofNat, BitVec.toNat_not, Bool.toNat_true, hzero]
      omega
    refine if_congr ?_ rfl rfl
    rw [hdiff, BitVec.msb_eq_decide, decide_eq_true_eq]

theorem sltuValue_zero_left (v : Word) : sltuValue 0 v = if v.toNat = 0 then 0 else 1 := by
  change (if 0 < v.toNat then (1 : Word) else 0) = _
  rw [← ite_not]
  exact if_congr (by omega) rfl rfl

/-- Settles O20: `slt` and `sltu` by their values, and `spos` by that of `slt` with first operand 0. -/
theorem setLessThan : Obligations.SetLessThan := by
  unfold Obligations.SetLessThan
  intro rd rs1 rs2 s
  have hslt := finishes_slt rd rs1 rs2 s
  have hsltu := finishes_sltu rd rs1 rs2 s
  have hspos := finishes_spos rd rs1 s
  rw [sltValue_zero_left] at hspos
  exact ⟨fun h => hslt.completesFreeFlags (resolved_of_destReady rfl h),
    fun h => hsltu.completesFreeFlags (resolved_of_destReady rfl h),
    fun h => hspos.completesFreeFlags (resolved_of_destReady rfl h),
    fun h => hslt.faultsOnWrite (resolved_of_destReady rfl h),
    fun h => hsltu.faultsOnWrite (resolved_of_destReady rfl h),
    fun h => hspos.faultsOnWrite (resolved_of_destReady rfl h)⟩

/-- Settles O21: `slt` against 0 gives bit 15 (`sltValue_zero_right`), 0 below a number unsigned that it is not zero. -/
theorem signAndZeroTests : Obligations.SignAndZeroTests := by
  unfold Obligations.SignAndZeroTests
  intro rd rs v s
  have hsneg := finishes_sneg rd rs s
  have hsnez := finishes_snez rd rs s
  rw [sltValue_zero_right] at hsneg
  rw [sltuValue_zero_left] at hsnez
  exact ⟨fun h => hsneg.completesFreeFlags (resolved_of_destReady rfl h),
    fun h => hsnez.completesFreeFlags (resolved_of_destReady rfl h), (sltValue_zero_right · v), rfl, rfl, rfl, rfl⟩

/-! The carry flag. -/

/-- Settles O39: both write flags only. -/
theorem carryFlagRules : Obligations.CarryFlagRules := by
  unfold Obligations.CarryFlagRules
  exact fun s => ⟨(finishes_scf s).writesFlags, (finishes_rscf s).writesFlags⟩

end Sys2Proof.Machine
end

