-- ==== Sys2Proof/Proofs/LogicShift.lean ====
section
/-! PROOFS. Select and bitwise logic (spec/42_logic.md), shifts (spec/43_shift.md), load immediate (spec/44_load_immediate.md):
results as numbers. -/

namespace Sys2Proof.Machine

/-! Immediates as numbers. -/

theorem zext8_eq_ofNat (imm : BitVec 8) : zext8 imm = BitVec.ofNat 16 imm.toNat := by
  apply BitVec.eq_of_toNat_eq
  simp [zext8]

theorem upper8_eq_ofNat (imm : BitVec 8) : upper8 imm = BitVec.ofNat 16 (256 * imm.toNat) := by
  have hlt := imm.isLt
  have happend : (upper8 imm).toNat = imm.toNat * 2 ^ 8 + (0x00#8).toNat := toNat_append 8 8 imm 0x00#8
  apply BitVec.eq_of_toNat_eq
  rw [happend, BitVec.toNat_ofNat, BitVec.toNat_ofNat]
  omega

/-! Select and logic. -/

/-- Settles O22: `szr` writes its result into its destination or into r0, as its second source says. -/
theorem selectRule : Obligations.SelectRule := by
  unfold Obligations.SelectRule
  intro rd rs1 rs2 s
  have h := finishes_szr rd rs1 rs2 s
  refine ⟨fun hready htest => ?_, fun hready htest => ?_, fun hnot => h.faultsOnWrite (resolved_of_destReady rfl hnot)⟩
  · rw [if_pos htest] at h
    exact h.completesFreeFlags (resolved_of_destReady rfl hready)
  · rw [if_neg htest] at h
    exact ⟨_, h.next (resolved_of_destReady rfl hready), writesNoRegister_finish _ rfl s, rfl, finish_pc _ _ (npc_even s)⟩

/-- Settles O23: the three register forms share `Finishes.completesLogic`. -/
theorem logicRegisterRules : Obligations.LogicRegisterRules := by
  unfold Obligations.LogicRegisterRules
  intro rd rs1 rs2 s
  have hior := finishes_ior rd rs1 rs2 s
  have hand := finishes_and rd rs1 rs2 s
  have hxor := finishes_xor rd rs1 rs2 s
  exact ⟨fun h => hior.completesLogic (resolved_of_destReady rfl h),
    fun h => hand.completesLogic (resolved_of_destReady rfl h),
    fun h => hxor.completesLogic (resolved_of_destReady rfl h),
    fun h => hior.faultsOnWrite (resolved_of_destReady rfl h),
    fun h => hand.faultsOnWrite (resolved_of_destReady rfl h),
    fun h => hxor.faultsOnWrite (resolved_of_destReady rfl h), rfl, rfl, rfl⟩

/-- A zero-extended immediate masks the upper byte away. -/
theorem and_zext8_lt (v : Word) (imm : BitVec 8) : (v &&& BitVec.ofNat 16 imm.toNat).toNat < 256 := by
  have hlt := imm.isLt
  rw [BitVec.toNat_and, BitVec.toNat_ofNat]
  exact lt_of_le_of_lt (Nat.and_le_right.trans (Nat.mod_le _ _)) hlt

/-- Settles O24: the immediate forms check no destination; the immediates are `sext8` and `zext8` as numbers. -/
theorem logicImmediateRules : Obligations.LogicImmediateRules := by
  unfold Obligations.LogicImmediateRules
  intro rd imm s
  rw [← zext8_eq_ofNat, ← sext8_eq_ofInt]
  refine ⟨(finishes_iori rd imm s).completesLogic rfl, (finishes_ioriu rd imm s).completesLogic rfl,
    (finishes_andi rd imm s).completesLogic rfl, (finishes_andiu rd imm s).completesLogic rfl,
    (finishes_xori rd imm s).completesLogic rfl, (finishes_xoriu rd imm s).completesLogic rfl,
    (finishes_biti rd imm s).completesBitTest, ?_, rfl, rfl, rfl, rfl, rfl, rfl, rfl⟩
  rw [zext8_eq_ofNat]
  exact and_zext8_lt _ imm

/-! Complement and cut. -/

/-- `xori` with -1 complements every bit (R180). -/
theorem xor_sext8_ones (v : Word) : v ^^^ sext8 0xFF = BitVec.ofNat 16 (65535 - v.toNat) := by
  have hnot : v ^^^ sext8 0xFF = ~~~v := BitVec.xor_allOnes
  rw [hnot]
  apply BitVec.eq_of_toNat_eq
  rw [BitVec.toNat_not, BitVec.toNat_ofNat]
  omega

/-- A mask of the low `n` bits is a remainder. -/
theorem and_mask (v : Word) (n : Nat) {m : Word} (hm : m.toNat = 2 ^ n - 1) :
    v &&& m = BitVec.ofNat 16 (v.toNat % 2 ^ n) := by
  apply BitVec.eq_of_toNat_eq
  rw [BitVec.toNat_and, hm, Nat.and_two_pow_sub_one_eq_mod, BitVec.toNat_ofNat]
  exact (Nat.mod_eq_of_lt (lt_of_le_of_lt (Nat.mod_le _ _) v.isLt)).symm

/-- A word is its upper byte and its lower byte. -/
theorem append_bytes (v : Word) : v.extractLsb' 8 8 ++ v.extractLsb' 0 8 = v := by
  apply BitVec.eq_of_toNat_eq
  rw [toNat_append, BitVec.extractLsb'_toNat, BitVec.extractLsb'_toNat, Nat.shiftRight_eq_div_pow,
    Nat.shiftRight_eq_div_pow]
  omega

/-- `xoriu` with 0xFF complements the low byte and keeps the upper one (R181). -/
theorem xor_zext8_ones (v : Word) :
    v ^^^ zext8 0xFF = BitVec.ofNat 16 (v.toNat / 256 * 256 + (255 - v.toNat % 256)) := by
  have hsplit : v ^^^ zext8 0xFF = v.extractLsb' 8 8 ++ ~~~v.extractLsb' 0 8 := by
    have hones : zext8 0xFF = 0#8 ++ BitVec.allOnes 8 := rfl
    rw [← append_bytes v, hones, BitVec.xor_append, append_bytes, BitVec.xor_allOnes, BitVec.xor_zero]
  apply BitVec.eq_of_toNat_eq
  rw [hsplit, toNat_append, BitVec.toNat_not, BitVec.extractLsb'_toNat, BitVec.extractLsb'_toNat,
    Nat.shiftRight_eq_div_pow, Nat.shiftRight_eq_div_pow, BitVec.toNat_ofNat]
  omega

theorem finishes_not (rd : Reg) (s : State) : Finishes (.not rd) .zr (.logic rd (s.view rd ^^^ sext8 0xFF) s) s :=
  Finishes.of_core (finishes_xori rd 0xFF s)

theorem finishes_not8 (rd : Reg) (s : State) : Finishes (.not8 rd) .zr (.logic rd (s.view rd ^^^ zext8 0xFF) s) s :=
  Finishes.of_core (finishes_xoriu rd 0xFF s)

/-- Settles O25: the exclusive or with all ones, or with ones in the low byte, as numbers. -/
theorem notRules : Obligations.NotRules := by
  unfold Obligations.NotRules
  intro rd s
  have hnot := finishes_not rd s
  have hnot8 := finishes_not8 rd s
  rw [xor_sext8_ones] at hnot
  rw [xor_zext8_ones] at hnot8
  exact ⟨hnot.completesLogic rfl, hnot8.completesLogic rfl, rfl, rfl, rfl, rfl⟩

theorem finishes_cut4 (rd : Reg) (s : State) : Finishes (.cut4 rd) .zr (.logic rd (s.view rd &&& zext8 0x0F) s) s :=
  Finishes.of_core (finishes_andiu rd 0x0F s)

theorem finishes_cut8 (rd : Reg) (s : State) : Finishes (.cut8 rd) .zr (.logic rd (s.view rd &&& zext8 0xFF) s) s :=
  Finishes.of_core (finishes_andiu rd 0xFF s)

theorem finishes_clrl (rd : Reg) (s : State) : Finishes (.clrl rd) .zr (.logic rd (s.view rd &&& zext8 0x00) s) s :=
  Finishes.of_core (finishes_andiu rd 0x00 s)

/-- Settles O26: each alias masks with the ones of its low 4, 8 or 0 bits (`and_mask`). -/
theorem cutRules : Obligations.CutRules := by
  unfold Obligations.CutRules
  intro rd s
  have hcut4 := finishes_cut4 rd s
  have hcut8 := finishes_cut8 rd s
  have hclrl := finishes_clrl rd s
  rw [and_mask _ 4 rfl] at hcut4
  rw [and_mask _ 8 rfl] at hcut8
  rw [and_mask _ 0 rfl, Nat.pow_zero, Nat.mod_one] at hclrl
  exact ⟨hcut4.completesLogic rfl, hcut8.completesLogic rfl, hclrl.completesLogic rfl⟩

/-! Load immediate. -/

theorem finishes_clr (rd : Reg) (s : State) : Finishes (.clr rd) rd (.quiet rd 0 s) s := rfl

/-- Settles O30: the extended immediates as numbers; fl is that of the old state. -/
theorem loadImmediateRules : Obligations.LoadImmediateRules := by
  unfold Obligations.LoadImmediateRules
  intro rd imm s
  have hlli := finishes_lli rd imm s
  have hlui := finishes_lui rd imm s
  have hclr := finishes_clr rd s
  rw [upper8_eq_ofNat] at hlui
  exact ⟨fun h => hlli.completesQuiet (resolved_of_destReady rfl h),
    fun h => hlui.completesQuiet (resolved_of_destReady rfl h),
    fun h => hclr.completesQuiet (resolved_of_destReady rfl h),
    fun h => hlli.faultsOnWrite (resolved_of_destReady rfl h),
    fun h => hlui.faultsOnWrite (resolved_of_destReady rfl h),
    fun h => hclr.faultsOnWrite (resolved_of_destReady rfl h)⟩

/-- The upper and the lower byte of a constant do not overlap. -/
theorem upper_or_lower (hi lo : BitVec 8) :
    BitVec.ofNat 16 (256 * hi.toNat) ||| BitVec.ofNat 16 lo.toNat = BitVec.ofNat 16 (256 * hi.toNat + lo.toNat) := by
  have hhi := hi.isLt
  have hlo := lo.isLt
  apply BitVec.eq_of_toNat_eq
  rw [BitVec.toNat_or, BitVec.toNat_ofNat, BitVec.toNat_ofNat, BitVec.toNat_ofNat, Nat.mod_eq_of_lt (by omega),
    Nat.mod_eq_of_lt (by omega), Nat.mod_eq_of_lt (by omega)]
  exact (Nat.two_pow_add_eq_or_of_lt (i := 8) hlo hi.toNat).symm

/-- A register that the instruction neither writes nor waits for is as before, its async state included. -/
theorem gpr_of_keepsRegs {i : Instr} {written : List Reg} {s t : State} {r : Reg} (h : KeepsRegs i written s t)
    (hr : r ∉ written) (hs : r ∉ sources i) : t.gpr r = s.gpr r := by
  rw [h r hr, if_neg hs]

/-- Settles O27: `lui` leaves the upper byte and zeros, into which `ioriu` puts the lower byte. -/
theorem fullConstant : Obligations.FullConstant := by
  unfold Obligations.FullConstant
  intro rd hi lo s hrd hres
  obtain ⟨t, ht, hlui, hfl, hpc⟩ := (loadImmediateRules rd hi s).2.1 (destReady_of_resolved rfl hres)
  obtain ⟨u, hu, hior, ⟨hs, hz, hu'⟩, hpc'⟩ := (logicImmediateRules rd lo t).2.1
  rw [hlui.view_dest hrd, upper_or_lower] at hior hs hz
  refine ⟨t, u, ht, hu, hior.result hrd, fun r hr => ?_, keepsMemory_trans hlui.memory hior.memory,
    keepsSystem_trans hlui.system hior.system, ⟨hs, hz, by rw [hu', hfl]⟩, ?_⟩
  · rw [gpr_of_keepsRegs hior.registers (by simpa using hr) (by simpa [sources] using hr),
      gpr_of_keepsRegs hlui.registers (by simpa using hr) (by simp [sources])]
  · rw [hpc', hpc, BitVec.add_assoc]
    rfl

/-! Shifts. -/

theorem shl_eq (v : Word) (n : BitVec 4) : shl v n = BitVec.ofNat 16 (v.toNat * 2 ^ n.toNat) := by
  apply BitVec.eq_of_toNat_eq
  rw [shl, BitVec.toNat_shiftLeft, Nat.shiftLeft_eq, BitVec.toNat_ofNat]

theorem shr_eq (v : Word) (n : BitVec 4) : shr v n = BitVec.ofNat 16 (v.toNat / 2 ^ n.toNat) := by
  apply BitVec.eq_of_toNat_eq
  rw [shr, BitVec.toNat_ushiftRight, Nat.shiftRight_eq_div_pow, BitVec.toNat_ofNat]
  exact (Nat.mod_eq_of_lt (lt_of_le_of_lt (Nat.div_le_self _ _) v.isLt)).symm

theorem sar_eq (v : Word) (n : BitVec 4) : sar v n = BitVec.ofInt 16 (v.toInt / 2 ^ n.toNat) := by
  rw [sar, BitVec.sshiftRight, Int.shiftRight_eq_div_pow]
  norm_num

/-- A shift towards bit 15 by 16 - n keeps the low n bits. -/
theorem mul_two_pow_mod (v : Nat) {n : Nat} (hn : n ≤ 16) :
    v * 2 ^ (16 - n) % 65536 = v % 2 ^ n * 2 ^ (16 - n) := by
  have hpow : 65536 = 2 ^ n * 2 ^ (16 - n) := by
    rw [← Nat.pow_add, Nat.add_sub_cancel' hn]
  rw [hpow, Nat.mul_mod_mul_right]

/-- The bits shifted out come back above: for n = 0 both halves are the whole value. -/
theorem ror_eq (v : Word) (n : BitVec 4) :
    ror v n = BitVec.ofNat 16 (v.toNat / 2 ^ n.toNat + v.toNat % 2 ^ n.toNat * 2 ^ (16 - n.toNat)) := by
  have hv := v.isLt
  have hn := n.isLt
  by_cases h0 : n = 0
  · subst h0
    simp [ror, shr, shl, Nat.mod_one]
  · have hpos : n.toNat ≠ 0 := fun h => h0 (BitVec.eq_of_toNat_eq h)
    have hneg : (-n).toNat = 16 - n.toNat := by
      rw [BitVec.toNat_neg]
      omega
    have hlow : v.toNat / 2 ^ n.toNat < 2 ^ (16 - n.toNat) := by
      rw [Nat.div_lt_iff_lt_mul (Nat.two_pow_pos _), ← Nat.pow_add, Nat.sub_add_cancel (by omega)]
      exact hv
    have hhigh : v.toNat * 2 ^ (16 - n.toNat) % 2 ^ 16 = v.toNat % 2 ^ n.toNat * 2 ^ (16 - n.toNat) :=
      mul_two_pow_mod v.toNat (by omega)
    have hor : v.toNat / 2 ^ n.toNat + v.toNat % 2 ^ n.toNat * 2 ^ (16 - n.toNat) =
        v.toNat / 2 ^ n.toNat % 2 ^ 16 ||| v.toNat * 2 ^ (16 - n.toNat) % 2 ^ 16 := by
      rw [hhigh, Nat.mod_eq_of_lt (lt_of_le_of_lt (Nat.div_le_self _ _) hv), Nat.or_comm, Nat.add_comm, Nat.mul_comm]
      exact Nat.two_pow_add_eq_or_of_lt hlow _
    apply BitVec.eq_of_toNat_eq
    rw [ror, BitVec.toNat_or, shr_eq, shl_eq, hneg, BitVec.toNat_ofNat, BitVec.toNat_ofNat, BitVec.toNat_ofNat, hor]
    exact (Nat.mod_eq_of_lt (Nat.or_lt_two_pow (Nat.mod_lt _ (by decide)) (Nat.mod_lt _ (by decide)))).symm

theorem shiftAmount_toNat (v : Word) : (shiftAmount v).toNat = v.toNat % 16 := by
  simp [shiftAmount, BitVec.extractLsb'_toNat]

/-- Settles O28: each shift as an operation on numbers. -/
theorem shiftByAmount : Obligations.ShiftByAmount := by
  unfold Obligations.ShiftByAmount
  intro rd n rs s
  have hbsl := finishes_bsl rd n rs s
  have hbsr := finishes_bsr rd n rs s
  have hbsrs := finishes_bsrs rd n rs s
  have hbrr := finishes_brr rd n rs s
  rw [shl_eq] at hbsl
  rw [shr_eq] at hbsr
  rw [sar_eq] at hbsrs
  rw [ror_eq] at hbrr
  exact ⟨fun h => hbsl.completesFreeFlags (resolved_of_destReady rfl h),
    fun h => hbsr.completesFreeFlags (resolved_of_destReady rfl h),
    fun h => hbsrs.completesFreeFlags (resolved_of_destReady rfl h),
    fun h => hbrr.completesFreeFlags (resolved_of_destReady rfl h),
    fun h => hbsl.faultsOnWrite (resolved_of_destReady rfl h),
    fun h => hbsr.faultsOnWrite (resolved_of_destReady rfl h),
    fun h => hbsrs.faultsOnWrite (resolved_of_destReady rfl h),
    fun h => hbrr.faultsOnWrite (resolved_of_destReady rfl h)⟩

/-- Settles O29: the same functions, with the amount modulo 16. -/
theorem shiftByRegister : Obligations.ShiftByRegister := by
  unfold Obligations.ShiftByRegister
  rintro rd rs1 rs2 _ s rfl
  have hbsld := finishes_bsld rd rs1 rs2 s
  have hbsrd := finishes_bsrd rd rs1 rs2 s
  have hbsrsd := finishes_bsrsd rd rs1 rs2 s
  have hbrrd := finishes_brrd rd rs1 rs2 s
  rw [shl_eq, shiftAmount_toNat] at hbsld
  rw [shr_eq, shiftAmount_toNat] at hbsrd
  rw [sar_eq, shiftAmount_toNat] at hbsrsd
  rw [ror_eq, shiftAmount_toNat] at hbrrd
  exact ⟨fun h => hbsld.completesFreeFlags (resolved_of_destReady rfl h),
    fun h => hbsrd.completesFreeFlags (resolved_of_destReady rfl h),
    fun h => hbsrsd.completesFreeFlags (resolved_of_destReady rfl h),
    fun h => hbrrd.completesFreeFlags (resolved_of_destReady rfl h),
    fun h => hbsld.faultsOnWrite (resolved_of_destReady rfl h),
    fun h => hbsrd.faultsOnWrite (resolved_of_destReady rfl h),
    fun h => hbsrsd.faultsOnWrite (resolved_of_destReady rfl h),
    fun h => hbrrd.faultsOnWrite (resolved_of_destReady rfl h)⟩

end Sys2Proof.Machine
end

