-- ==== Sys2Proof/Proofs/MemoryAccess.lean ====
section
/-! PROOFS. Loads, stores and exchanges (spec/47_memory_ops.md, spec/20_memory.md): what `exec` does for each at the parameters of
Config.lean, and the rules that follow. -/

namespace Sys2Proof.Machine

/-! Effective addresses and values as numbers. -/

theorem byteEa_toNat (base : Word) (imm : BitVec 5) : (byteEa base imm).toNat = (base.toNat + imm.toNat) % 65536 := by
  have hlt := imm.isLt
  simp only [byteEa, byteOffset, BitVec.toNat_add, BitVec.toNat_setWidth]
  omega

theorem wordEa_toNat (base : Word) (imm : BitVec 5) : (wordEa base imm).toNat = (base.toNat + 2 * imm.toNat) % 65536 := by
  have hlt := imm.isLt
  simp only [wordEa, wordOffset, BitVec.toNat_add, BitVec.toNat_shiftLeft, BitVec.toNat_setWidth, Nat.shiftLeft_eq]
  omega

theorem append_eq_ofNat (hi lo : Byte) : hi ++ lo = BitVec.ofNat 16 (lo.toNat + 256 * hi.toNat) := by
  have hhi := hi.isLt
  have hlo := lo.isLt
  apply BitVec.eq_of_toNat_eq
  rw [toNat_append, BitVec.toNat_ofNat]
  omega

theorem lowByte_eq_ofNat (v : Word) : v.extractLsb' 0 8 = BitVec.ofNat 8 v.toNat := by
  apply BitVec.eq_of_toNat_eq
  rw [BitVec.extractLsb'_toNat, BitVec.toNat_ofNat, Nat.shiftRight_zero]

/-! What `exec` does. The base is read before the destination is checked; the checks come in the order alignment, code range,
bytes with a value (R260, log 21). -/

theorem exec_mld {rd : Reg} (hrd : rd ≠ .zr) (imm : BitVec 5) (base : Reg) (s : State) :
    exec (.mld rd imm base) s =
      guardDest rd (waited (.mld rd imm base) s)
        (withByte (byteEa (s.view base) imm) s fun v =>
          .next ((waited (.mld rd imm base) s).issueLoad rd (sext8 v)).advance) := by
  change loadByteOp Config.mmio rd imm base s = _
  rw [loadByteOp, withSource_eq, if_neg hrd, guardMmio_eq]
  rfl

theorem exec_mldw {rd : Reg} (hrd : rd ≠ .zr) (imm : BitVec 5) (base : Reg) (s : State) :
    exec (.mldw rd imm base) s =
      guardDest rd (waited (.mldw rd imm base) s)
        (if (wordEa (s.view base) imm).toNat % 2 = 1 then .fault (.misalignedAccess (wordEa (s.view base) imm))
        else withWord (wordEa (s.view base) imm) s fun v =>
          .next ((waited (.mldw rd imm base) s).issueLoad rd v).advance) := by
  change loadWordOp Config.misalignedWord Config.mmio rd imm base s = _
  simp only [loadWordOp, withSource_eq, if_neg hrd, alignWord_eq, guardMmio_eq]
  rfl

theorem exec_mst (rs : Reg) (imm : BitVec 5) (base : Reg) (s : State) :
    exec (.mst rs imm base) s =
      guardStore Config.mmio [byteEa (s.view base) imm] s
        (.next ((waited (.mst rs imm base) s).writeByte (byteEa (s.view base) imm) ((s.view rs).extractLsb' 0 8)).advance) := by
  change storeByteOp Config.mmio rs imm base s = _
  rw [storeByteOp, withSources_eq]
  rfl

theorem exec_mstw (rs : Reg) (imm : BitVec 5) (base : Reg) (s : State) :
    exec (.mstw rs imm base) s =
      if (wordEa (s.view base) imm).toNat % 2 = 1 then .fault (.misalignedAccess (wordEa (s.view base) imm))
      else guardStore Config.mmio [wordEa (s.view base) imm, wordEa (s.view base) imm + 1] s
        (.next ((waited (.mstw rs imm base) s).writeWord (wordEa (s.view base) imm) (s.view rs)).advance) := by
  change storeWordOp Config.misalignedWord Config.mmio rs imm base s = _
  rw [storeWordOp, withSources_eq, alignWord_eq]
  rfl

theorem exec_xch {rw : Reg} (hrw : rw ≠ .zr) (imm : BitVec 5) (base : Reg) (s : State) :
    exec (.xch rw imm base) s =
      guardStore Config.mmio [byteEa (s.view base) imm] s
        (withByte (byteEa (s.view base) imm) s fun old =>
          .next (((waited (.xch rw imm base) s).writeByte (byteEa (s.view base) imm)
            ((s.view rw).extractLsb' 0 8)).issueLoad rw (sext8 old)).advance) := by
  change exchangeByteOp Config.mmio rw imm base s = _
  rw [exchangeByteOp, withSources_eq, if_neg hrw]
  rfl

theorem exec_xchw {rw : Reg} (hrw : rw ≠ .zr) (imm : BitVec 5) (base : Reg) (s : State) :
    exec (.xchw rw imm base) s =
      if (wordEa (s.view base) imm).toNat % 2 = 1 then .fault (.misalignedAccess (wordEa (s.view base) imm))
      else guardStore Config.mmio [wordEa (s.view base) imm, wordEa (s.view base) imm + 1] s
        (withWord (wordEa (s.view base) imm) s fun old =>
          .next (((waited (.xchw rw imm base) s).writeWord (wordEa (s.view base) imm) (s.view rw)).issueLoad rw old).advance) := by
  change exchangeWordOp Config.misalignedWord Config.mmio rw imm base s = _
  simp only [exchangeWordOp, withSources_eq, alignWord_eq, if_neg hrw]
  rfl

/-- `mclr` is `mst` of r0, which holds zero (R269). -/
theorem exec_mclr (imm : BitVec 5) (base : Reg) (s : State) :
    exec (.mclr imm base) s =
      guardStore Config.mmio [byteEa (s.view base) imm] s
        (.next ((waited (.mclr imm base) s).writeByte (byteEa (s.view base) imm) 0).advance) :=
  (exec_core (.mclr imm base) s).symm.trans (exec_mst .zr imm base s)

theorem exec_mclrw (imm : BitVec 5) (base : Reg) (s : State) :
    exec (.mclrw imm base) s =
      if (wordEa (s.view base) imm).toNat % 2 = 1 then .fault (.misalignedAccess (wordEa (s.view base) imm))
      else guardStore Config.mmio [wordEa (s.view base) imm, wordEa (s.view base) imm + 1] s
        (.next ((waited (.mclrw imm base) s).writeWord (wordEa (s.view base) imm) 0).advance) :=
  (exec_core (.mclrw imm base) s).symm.trans (exec_mstw .zr imm base s)

/-- An exchange with zr is a store of zero (R266 (c)). -/
theorem exec_xch_zr (imm : BitVec 5) (base : Reg) (s : State) :
    exec (.xch .zr imm base) s =
      guardStore Config.mmio [byteEa (s.view base) imm] s
        (.next ((waited (.xch .zr imm base) s).writeByte (byteEa (s.view base) imm) 0).advance) := by
  change exchangeByteOp Config.mmio .zr imm base s = _
  rw [exchangeByteOp, withSources_eq]
  rfl

theorem exec_xchw_zr (imm : BitVec 5) (base : Reg) (s : State) :
    exec (.xchw .zr imm base) s =
      if (wordEa (s.view base) imm).toNat % 2 = 1 then .fault (.misalignedAccess (wordEa (s.view base) imm))
      else guardStore Config.mmio [wordEa (s.view base) imm, wordEa (s.view base) imm + 1] s
        (.next ((waited (.xchw .zr imm base) s).writeWord (wordEa (s.view base) imm) 0).advance) := by
  change exchangeWordOp Config.misalignedWord Config.mmio .zr imm base s = _
  rw [exchangeWordOp, withSources_eq, alignWord_eq]
  rfl

/-! Stores. -/

theorem storesByte_writeByte {s u : State} (hu : ∀ a, u.readByte a = s.readByte a) (a : Word) (b : Byte) :
    StoresByte a b s (u.writeByte a b) := by
  refine ⟨by rw [readByte_writeByte, if_pos rfl], fun a' ha' => ?_⟩
  rw [readByte_writeByte, if_neg ha', hu]

theorem storesWord_writeWord {s u : State} (hu : ∀ a, u.readByte a = s.readByte a) (a v : Word) :
    StoresWord a v s (u.writeWord a v) := by
  refine ⟨?_, ?_, fun a' ha ha1 => ?_⟩
  · rw [readByte_writeWord, if_neg (word_succ_ne a).symm, if_pos rfl]
  · rw [readByte_writeWord, if_pos rfl]
  · rw [readByte_writeWord, if_neg ha1, if_neg ha, hu]

/-- A byte store outside the code range goes on. -/
theorem completesByteStore_of_exec {i : Instr} {a : Word} {b : Byte} {s : State}
    (h : exec i s = guardStore Config.mmio [a] s (.next ((waited i s).writeByte a b).advance))
    (hout : outsideCode [a] s = true) : CompletesByteStore i a b s := by
  rw [guardStore_of_outside hout] at h
  exact ⟨_, h, storesByte_writeByte (fun _ => rfl) a b, fun r _ => gpr_waited i s r, ⟨rfl, rfl, rfl, rfl, rfl⟩, rfl,
    advance_pc _⟩

/-- So does a word store at an even address. -/
theorem completesWordStore_of_exec {i : Instr} {a v : Word} {s : State}
    (h : exec i s = if a.toNat % 2 = 1 then .fault (.misalignedAccess a)
      else guardStore Config.mmio [a, a + 1] s (.next ((waited i s).writeWord a v).advance))
    (heven : a.toNat % 2 = 0) (hout : outsideCode [a, a + 1] s = true) : CompletesWordStore i a v s := by
  rw [if_neg (by omega), guardStore_of_outside hout] at h
  exact ⟨_, h, storesWord_writeWord (fun _ => rfl) a v, fun r _ => gpr_waited i s r, ⟨rfl, rfl, rfl, rfl, rfl⟩, rfl,
    advance_pc _⟩

/-- Settles O41: `exec_mst` and `exec_mclr` past the check of the code range. -/
theorem byteStoreRules : Obligations.ByteStoreRules := by
  unfold Obligations.ByteStoreRules
  intro rs imm base s hout
  have hmst := exec_mst rs imm base s
  rw [lowByte_eq_ofNat] at hmst
  exact ⟨completesByteStore_of_exec hmst hout, completesByteStore_of_exec (exec_mclr imm base s) hout⟩

/-- Settles O42: `exec_mstw` and `exec_mclrw` past the checks of alignment and code range. -/
theorem wordStoreRules : Obligations.WordStoreRules := by
  unfold Obligations.WordStoreRules
  exact fun rs imm base s heven hout => ⟨completesWordStore_of_exec (exec_mstw rs imm base s) heven hout,
    completesWordStore_of_exec (exec_mclrw imm base s) heven hout⟩

/-! Loads. -/

/-- A load issued in a state that has the registers and the system state of the waiting one. -/
theorem issuesLoad_issueLoad {i : Instr} {d : Reg} {v : Word} {s u : State} (hd : d ≠ .zr)
    (hregs : ∀ r, u.gpr r = (waited i s).gpr r) (hsys : KeepsSystem s u) : IssuesLoad i d v s (u.issueLoad d v).advance where
  pending := ⟨_, by rw [gpr_advance, gpr_issueLoad, if_pos ⟨rfl, hd⟩, hregs, gpr_waited]⟩
  registers r hr := by
    have hne : r ≠ d := by simpa using hr
    rw [gpr_advance, gpr_issueLoad, if_neg (fun h => hne h.1), hregs, gpr_waited]
  system := hsys

/-- The value a load will deliver is what a reader of its register gets. -/
theorem IssuesLoad.view_dest {i : Instr} {d : Reg} {v : Word} {s t : State} (h : IssuesLoad i d v s t) : t.view d = v := by
  obtain ⟨left, hpending⟩ := h.pending
  rw [State.view, hpending]
  rfl

theorem completesLoad_mld {rd : Reg} {imm : BitVec 5} {base : Reg} {s : State} {lo : Byte} (hrd : rd ≠ .zr)
    (hready : destReady (.mld rd imm base) s = true) (hlo : s.readByte (byteEa (s.view base) imm) = some lo) :
    CompletesLoad (.mld rd imm base) rd (BitVec.ofInt 16 lo.toInt) s := by
  have h := exec_mld hrd imm base s
  rw [guardDest_eq, if_pos (resolved_of_destReady rfl hready), withByte_of_some hlo] at h
  exact ⟨_, h, issuesLoad_issueLoad hrd (fun _ => rfl) ⟨rfl, rfl, rfl, rfl, rfl⟩, fun _ => rfl, rfl, advance_pc _⟩

theorem completesLoad_mldw {rd : Reg} {imm : BitVec 5} {base : Reg} {s : State} {lo hi : Byte} (hrd : rd ≠ .zr)
    (hready : destReady (.mldw rd imm base) s = true) (heven : (wordEa (s.view base) imm).toNat % 2 = 0)
    (hlo : s.readByte (wordEa (s.view base) imm) = some lo) (hhi : s.readByte (wordEa (s.view base) imm + 1) = some hi) :
    CompletesLoad (.mldw rd imm base) rd (BitVec.ofNat 16 (lo.toNat + 256 * hi.toNat)) s := by
  have h := exec_mldw hrd imm base s
  rw [guardDest_eq, if_pos (resolved_of_destReady rfl hready), if_neg (by omega), withWord_of_some hlo hhi,
    append_eq_ofNat] at h
  exact ⟨_, h, issuesLoad_issueLoad hrd (fun _ => rfl) ⟨rfl, rfl, rfl, rfl, rfl⟩, fun _ => rfl, rfl, advance_pc _⟩

/-- A destination that is not ready is not r0, which is never pending (spec/10_state.md R36). -/
theorem ne_zr_of_not_ready {i : Instr} {d : Reg} {s : State} (hd : destination i = some d) (h : destReady i s = false) :
    d ≠ .zr := by
  rintro rfl
  rw [destReady_of_resolved hd (resolved_zr s)] at h
  cases h

theorem faultsOnWrite_mld {rd : Reg} {imm : BitVec 5} {base : Reg} {s : State}
    (h : destReady (.mld rd imm base) s = false) : FaultsOnWrite (.mld rd imm base) rd s := by
  rw [FaultsOnWrite, exec_mld (ne_zr_of_not_ready rfl h), guardDest_eq, resolved_of_destReady rfl h]
  rfl

theorem faultsOnWrite_mldw {rd : Reg} {imm : BitVec 5} {base : Reg} {s : State}
    (h : destReady (.mldw rd imm base) s = false) : FaultsOnWrite (.mldw rd imm base) rd s := by
  rw [FaultsOnWrite, exec_mldw (ne_zr_of_not_ready rfl h), guardDest_eq, resolved_of_destReady rfl h]
  rfl

/-- Settles O40: `exec_mld` and `exec_mldw` past their checks, or stopped by the first one. -/
theorem loadRules : Obligations.LoadRules := by
  unfold Obligations.LoadRules
  exact fun rd imm base s lo hi => ⟨byteEa_toNat _ imm, wordEa_toNat _ imm, completesLoad_mld, completesLoad_mldw,
    faultsOnWrite_mld, faultsOnWrite_mldw⟩

/-! Exchanges. -/

/-- Settles O43: an exchange stores as a store does and issues a load of what it found; with zr it is a store of zero. -/
theorem exchangeRules : Obligations.ExchangeRules := by
  unfold Obligations.ExchangeRules
  intro rw imm base s lo hi
  refine ⟨fun hrw hout hlo => ?_, fun hrw heven hout hlo hhi => ?_, completesByteStore_of_exec (exec_xch_zr imm base s),
    completesWordStore_of_exec (exec_xchw_zr imm base s)⟩
  · have h := exec_xch hrw imm base s
    rw [guardStore_of_outside hout, withByte_of_some hlo, lowByte_eq_ofNat] at h
    exact ⟨_, h, issuesLoad_issueLoad hrw (fun _ => rfl) ⟨rfl, rfl, rfl, rfl, rfl⟩,
      storesByte_writeByte (u := waited (.xch rw imm base) s) (fun _ => rfl) _ _, rfl, advance_pc _⟩
  · have h := exec_xchw hrw imm base s
    rw [if_neg (by omega), guardStore_of_outside hout, withWord_of_some hlo hhi, append_eq_ofNat] at h
    exact ⟨_, h, issuesLoad_issueLoad hrw (fun _ => rfl) ⟨rfl, rfl, rfl, rfl, rfl⟩,
      storesWord_writeWord (u := waited (.xchw rw imm base) s) (fun _ => rfl) _ _, rfl, advance_pc _⟩

/-! Accesses that stop. -/

/-- Settles O44: the alignment check comes before those of code range and value. -/
theorem oddWordAccessTraps : Obligations.OddWordAccessTraps := by
  unfold Obligations.OddWordAccessTraps
  intro r imm base s hodd
  refine ⟨?_, ?_, ?_, fun hr hready => ?_⟩
  · rw [exec_mstw, if_pos hodd]
  · rw [exec_mclrw, if_pos hodd]
  · by_cases hr : r = .zr
    · rw [hr, exec_xchw_zr, if_pos hodd]
    · rw [exec_xchw hr, if_pos hodd]
  · rw [exec_mldw hr, guardDest_eq, if_pos (resolved_of_destReady rfl hready), if_pos hodd]

theorem guardStore_byte_inside {a : Word} {s : State} (h : inRanges s.code a = true) (k : Outcome) :
    guardStore Config.mmio [a] s k = .refused (.storeIntoCode a) := by
  simp [guardStore, guardMmio_eq, guardCode, h]

/-- The first byte that lies in the code range is named. -/
theorem guardStore_word_inside {a : Word} {s : State} (h : inRanges s.code a = true ∨ inRanges s.code (a + 1) = true)
    (k : Outcome) :
    guardStore Config.mmio [a, a + 1] s k = .refused (.storeIntoCode (if inRanges s.code a then a else a + 1)) := by
  rw [guardStore, guardMmio_eq, guardCode]
  by_cases ha : inRanges s.code a = true
  · simp [ha]
  · have ha1 : inRanges s.code (a + 1) = true := h.resolve_left ha
    rw [List.find?_cons_of_neg ha, List.find?_cons_of_pos ha1, if_neg ha]

/-- Settles O45: the check of the code range comes before anything is stored or read. -/
theorem storeIntoCodeRefused : Obligations.StoreIntoCodeRefused := by
  unfold Obligations.StoreIntoCodeRefused
  intro r imm base s
  refine ⟨fun hin => ⟨?_, ?_, ?_⟩, ?_⟩
  · rw [exec_mst, guardStore_byte_inside hin]
  · rw [exec_mclr, guardStore_byte_inside hin]
  · by_cases hr : r = .zr
    · rw [hr, exec_xch_zr, guardStore_byte_inside hin]
    · rw [exec_xch hr, guardStore_byte_inside hin]
  · rintro _ rfl heven hin
    refine ⟨?_, ?_, ?_⟩
    · rw [exec_mstw, if_neg (by omega), guardStore_word_inside hin]
    · rw [exec_mclrw, if_neg (by omega), guardStore_word_inside hin]
    · by_cases hr : r = .zr
      · rw [hr, exec_xchw_zr, if_neg (by omega), guardStore_word_inside hin]
      · rw [exec_xchw hr, if_neg (by omega), guardStore_word_inside hin]

/-- The first byte of a word that has no value is named. -/
theorem withWord_of_none {a : Word} {s : State} (h : s.readByte a = none ∨ s.readByte (a + 1) = none) (k : Word → Outcome) :
    withWord a s k = .fault (.unsetRead (if s.readByte a = none then a else a + 1)) := by
  rw [withWord]
  cases ha : s.readByte a with
  | none => rw [withByte_of_none ha, if_pos rfl]
  | some lo =>
    have ha1 : s.readByte (a + 1) = none := h.resolve_left (by simp [ha])
    rw [withByte_of_some ha, withByte_of_none ha1, if_neg (by simp)]

/-- Settles O46: past the other checks, a read stops at the first byte without a value. -/
theorem unsetByteStops : Obligations.UnsetByteStops := by
  unfold Obligations.UnsetByteStops
  intro rd imm base s hrd
  refine ⟨fun hnone => ⟨fun hready => ?_, fun hout => ?_⟩, ?_⟩
  · rw [exec_mld hrd, guardDest_eq, if_pos (resolved_of_destReady rfl hready), withByte_of_none hnone]
  · rw [exec_xch hrd, guardStore_of_outside hout, withByte_of_none hnone]
  · rintro _ rfl heven hnone
    refine ⟨fun hready => ?_, fun hout => ?_⟩
    · rw [exec_mldw hrd, guardDest_eq, if_pos (resolved_of_destReady rfl hready), if_neg (by omega), withWord_of_none hnone]
    · rw [exec_xchw hrd, if_neg (by omega), guardStore_of_outside hout, withWord_of_none hnone]

/-! A store read back. -/

/-- The byte offsets of the two halves of a word (spec/30_encoding.md R93: a word offset is twice its field). -/
theorem byteEa_double (base : Word) {k : BitVec 5} (hk : k.toNat < 16) : byteEa base (2 * k) = wordEa base k := by
  apply BitVec.eq_of_toNat_eq
  have hdouble : (2 * k).toNat = 2 * k.toNat := by
    rw [BitVec.toNat_mul]
    exact Nat.mod_eq_of_lt (by change 2 * k.toNat < 32; omega)
  rw [byteEa_toNat, wordEa_toNat, hdouble]

theorem byteEa_double_succ (base : Word) {k : BitVec 5} (hk : k.toNat < 16) :
    byteEa base (2 * k + 1) = wordEa base k + 1 := by
  have hdouble : (2 * k + 1).toNat = 2 * k.toNat + 1 := by
    rw [BitVec.toNat_add, BitVec.toNat_mul]
    change (2 * k.toNat % 32 + 1) % 32 = _
    omega
  have hone : (1 : Word).toNat = 1 := rfl
  apply BitVec.eq_of_toNat_eq
  rw [byteEa_toNat, hdouble, BitVec.toNat_add, wordEa_toNat, hone]
  omega

theorem highByte_eq_ofNat (v : Word) : v.extractLsb' 8 8 = BitVec.ofNat 8 (v.toNat / 256) := by
  apply BitVec.eq_of_toNat_eq
  rw [BitVec.extractLsb'_toNat, BitVec.toNat_ofNat, Nat.shiftRight_eq_div_pow]

theorem lowByte_eq_ofNat_mod (v : Word) : v.extractLsb' 0 8 = BitVec.ofNat 8 (v.toNat % 256) := by
  apply BitVec.eq_of_toNat_eq
  rw [BitVec.extractLsb'_toNat, BitVec.toNat_ofNat, Nat.shiftRight_zero]
  omega

/-- A byte load that goes on is read back as the sign-extended byte. -/
theorem mld_reads {rd base : Reg} {k : BitVec 5} {s : State} {b : Byte} (hrd : rd ≠ .zr) (hres : s.resolved rd = true)
    (hb : s.readByte (byteEa (s.view base) k) = some b) :
    ∃ u, exec (.mld rd k base) s = .next u ∧ u.view rd = BitVec.ofInt 16 b.toInt := by
  obtain ⟨u, hu, hload, -⟩ := completesLoad_mld hrd (destReady_of_resolved rfl hres) hb
  exact ⟨u, hu, hload.view_dest⟩

/-- A word load that goes on is read back as the word of its bytes. -/
theorem mldw_reads {rd base : Reg} {k : BitVec 5} {s : State} {lo hi : Byte} (hrd : rd ≠ .zr) (hres : s.resolved rd = true)
    (heven : (wordEa (s.view base) k).toNat % 2 = 0) (hlo : s.readByte (wordEa (s.view base) k) = some lo)
    (hhi : s.readByte (wordEa (s.view base) k + 1) = some hi) :
    ∃ u, exec (.mldw rd k base) s = .next u ∧ u.view rd = hi ++ lo := by
  obtain ⟨u, hu, hload, -⟩ := completesLoad_mldw hrd (destReady_of_resolved rfl hres) heven hlo hhi
  exact ⟨u, hu, by rw [hload.view_dest, append_eq_ofNat]⟩

/-- Settles O47: after the store its two bytes are the halves of the word (`StoresWord`), at addresses that the loads form
again from the unchanged base. -/
theorem storeThenLoad : Obligations.StoreThenLoad := by
  unfold Obligations.StoreThenLoad
  intro rs rd k base s hrd hres heven hout
  obtain ⟨t, ht, ⟨hlo, hhi, -⟩, hregs, -⟩ := (wordStoreRules rs k base s heven hout).1
  have hbase : t.view base = s.view base := view_of_keepsRegs hregs (by simp)
  have hres' : t.resolved rd = true := resolved_of_keepsRegs hregs (by simp) hres
  rw [← hbase] at hlo hhi heven
  refine ⟨t, ht, ?_, fun hk => ⟨?_, ?_⟩⟩
  · have h := mldw_reads hrd hres' heven hlo hhi
    rwa [append_bytes] at h
  · rw [← lowByte_eq_ofNat_mod]
    exact mld_reads hrd hres' (by rw [byteEa_double _ hk, hlo])
  · rw [← highByte_eq_ofNat]
    exact mld_reads hrd hres' (by rw [byteEa_double_succ _ hk, hhi])

end Sys2Proof.Machine
end

