-- ==== Sys2Proof/Proofs/Waiting.lean ====
section
/-! PROOFS. The hold of a reader is no step of its own (spec/10_state.md R37, spec/70_reset_and_hazards.md R321; log 7): an instruction
does the same before and after one of its sources has arrived. -/

namespace Sys2Proof.Machine

/-! The resolve step of a source, done before the instruction reads it. -/

theorem await_await_self (s : State) (r : Reg) : (s.await r).await r = s.await r :=
  await_of_resolved _ r (resolved_await_self s r)

theorem await_comm (s : State) (a b : Reg) : (s.await a).await b = (s.await b).await a := by
  cases a <;> cases b <;> rfl

theorem withSource_await (r : Reg) (s : State) (k : Word → State → Outcome) :
    withSource r (s.await r) k = withSource r s k := by
  rw [withSource_eq, withSource_eq, view_await, await_await_self]

theorem withSources_await {a b r : Reg} (hr : r = a ∨ r = b) (s : State) (k : Word → Word → State → Outcome) :
    withSources a b (s.await r) k = withSources a b s k := by
  rw [withSources_eq, withSources_eq, view_await, view_await]
  obtain rfl | rfl := hr
  · rw [await_await_self]
  · rw [await_comm s, await_await_self]

theorem awaitAll_await (s : State) (r : Reg) : (s.await r).awaitAll = s.awaitAll := by
  cases r <;> simp [State.awaitAll, State.await, State.setGpr, State.gpr, Gprs.map, Gprs.set, Gprs.get]

/-- Every base instruction reads its sources through `withSource` or `withSources`, `fence` through `awaitAll`. -/
theorem exec_await_base {i : Instr} {r : Reg} (hbase : i.isAlias = false) (hr : r ∈ sources i) (s : State) :
    exec i (s.await r) = exec i s := by
  cases i
  case fence => simp only [exec, execFence, awaitAll_await]
  case add | addc | sub | subb =>
    have hr := by simpa [sources] using hr
    simp only [exec, execAdd, execAddc, execSub, execSubb, addOp, subOp, subbOp, withSources_await hr]
  case slt | sltu =>
    have hr := by simpa [sources] using hr
    simp only [exec, execSlt, execSltu, sltOp, sltuOp, withSources_await hr]
  case szr | ior | and | xor =>
    have hr := by simpa [sources] using hr
    simp only [exec, execSzr, execIor, execAnd, execXor, szrOp, logicOp, withSources_await hr]
  case bsld | bsrd | bsrsd | brrd =>
    have hr := by simpa [sources] using hr
    simp only [exec, execBsld, execBsrd, execBsrsd, execBrrd, shiftRegOp, withSources_await hr]
  case mst | mstw | xch | xchw =>
    have hr := by simpa [sources] using hr
    simp only [exec, execMst, execMstw, execXch, execXchw, storeByteOp, storeWordOp, exchangeByteOp, exchangeWordOp,
      withSources_await hr]
  case addi | cmpi | csrw =>
    obtain rfl := by simpa [sources] using hr
    simp only [exec, execAddi, execCmpi, execCsrw, addiOp, cmpiOp, csrwOp, withSource_await]
  case iori | ioriu | andi | andiu | xori | xoriu | biti =>
    obtain rfl := by simpa [sources] using hr
    simp only [exec, execIori, execIoriu, execAndi, execAndiu, execXori, execXoriu, execBiti, logicImmOp, bitiOp,
      withSource_await]
  case bsl | bsr | bsrs | brr =>
    obtain rfl := by simpa [sources] using hr
    simp only [exec, execBsl, execBsr, execBsrs, execBrr, shiftImmOp, withSource_await]
  case jmpd | jmpdl =>
    obtain rfl := by simpa [sources] using hr
    simp only [exec, execJmpd, execJmpdl, jmpdOp, withSource_await]
  case mld | mldw =>
    obtain rfl := by simpa [sources] using hr
    simp only [exec, execMld, execMldw, loadByteOp, loadWordOp, withSource_await]
  -- The other base instructions have no source.
  all_goals simp [Instr.isAlias, sources] at hbase hr

/-- An alias reads what its base instruction reads; r0 beside it is never pending. -/
theorem sources_core {i : Instr} {r : Reg} (hr : r ∈ sources i) : r ∈ sources i.core := by
  cases i <;> simp_all [sources, Instr.core, Instr.coreWith]

/-- Settles O48: an instruction and its base instruction do the same, and the latter reads the register in any case. -/
theorem pendingReaderWaits : Obligations.PendingReaderWaits := by
  unfold Obligations.PendingReaderWaits
  intro i s r hr
  obtain ⟨-, hbase⟩ := encodeWith_coreWith Config.csrNumbers i
  rw [← exec_core i s, ← exec_core i (s.await r)]
  exact (exec_await_base hbase (sources_core hr) s).symm

end Sys2Proof.Machine
end

