-- ==== Sys2Proof/Proofs/Answers.lean ====
section
/-! PROOFS. What an instruction can answer, said once for all of them (`exec_answers`): it goes on and keeps what `Goes` says, it
raises the write fault, or it stops for the cause the spec names. The statements about every instruction follow. -/

namespace Sys2Proof.Machine

/-! What an instruction that goes on keeps. -/

/-- What an instruction may do to memory: only the storing ones change it, the canonical form stays, and so does every byte of the
code range (spec/20_memory.md R70). -/
structure KeepsCode (i : Instr) (s t : State) : Prop where
  unstored : storesToMemory i = false → t.mem = s.mem
  canonical : s.mem.wf → t.mem.wf
  codeBytes : ∀ a, inRanges s.code a = true → t.readByte a = s.readByte a

/-- What an instruction that goes on from `s` to `t` keeps. -/
structure Goes (i : Instr) (s t : State) : Prop where
  ready : destReady i s = true
  /-- A load in flight that the instruction does not wait for stays as it is. -/
  inFlight : ∀ r, r ∉ sources i → s.resolved r = false → t.gpr r = s.gpr r
  memory : KeepsCode i s t
  ira : t.ira = s.ira
  hidden : t.hidden = s.hidden
  mode : t.mode = s.mode
  code : t.code = s.code
  interrupts : t.pendingInterrupts = s.pendingInterrupts ∨
    (t.pendingInterrupts = [] ∧ (i = .clri ∨ ∃ rs, i = .csrw rs Config.csrPen))
  flags : canWriteFlags i = false → t.fl = s.fl
  unnamedFlag : (∀ rs, i ≠ .csrw rs Config.csrFl) → t.fl.u = s.fl.u

/-- The cause of each fault but the write fault (spec/60_exceptions.md R280). -/
def FaultCause (i : Instr) (s : State) : Fault → Prop
  | .asyncWriteFault _ => False
  | .breakpoint => i = .bkpt
  | .syscall n => i = .sysc n
  | .reservedInstruction w => isReserved i = true ∧ w = encode i
  | .misalignedAccess a => a.toNat % 2 = 1 ∧ ∃ r imm base, a = wordEa (s.view base) imm ∧
      i.core ∈ ([.mldw r imm base, .mstw r imm base, .xchw r imm base] : List Instr)
  | .returnFromInterrupt => i = .rfi
  | .waitForInterrupt => i = .wfi ∧ s.pendingInterrupts = []
  | .unsetRead a => s.readByte a = none ∧ ∃ r imm base, r ≠ .zr ∧
      i ∈ ([.mld r imm base, .mldw r imm base, .xch r imm base, .xchw r imm base] : List Instr)
  | .interrupt src => i = .wfi ∧ src ∈ s.pendingInterrupts

/-- What an instruction can answer. -/
inductive Answers (i : Instr) (s : State) : Outcome → Prop
  | next {t : State} (h : Goes i s t) : Answers i s (.next t)
  | writeFault {d : Reg} (hd : destination i = some d) (hnot : destReady i s = false) :
      Answers i s (.fault (.asyncWriteFault d))
  | stop {f : Fault} (hready : destReady i s = true) (hcause : FaultCause i s f) : Answers i s (.fault f)
  | refusal {r : Refusal} (hready : destReady i s = true) : Answers i s (.refused r)

/-! The destination check. -/

/-- The check of the instruction's own destination raises the write fault or lets it go on, ready. -/
theorem answers_guardDest {i : Instr} {d : Reg} {s : State} {k : Outcome} (hd : destination i = some d)
    (hk : destReady i s = true → Answers i s k) : Answers i s (guardDest d (waited i s) k) := by
  rw [guardDest_eq, ← destReady_of_destination hd]
  cases hready : destReady i s with
  | true => exact hk hready
  | false => exact .writeFault hd hready

/-! Memory. -/

section Memory
variable {i : Instr} {s u t : State}

theorem keepsCode_of_mem (h : t.mem = s.mem) : KeepsCode i s t where
  unstored _ := h
  canonical hwf := by rwa [h]
  codeBytes a _ := by rw [State.readByte, State.readByte, h]

/-- No byte of an access that passed the check lies in the code range. -/
theorem ne_of_outsideCode {bytes : List Word} {a b : Word} (h : outsideCode bytes s = true) (hb : b ∈ bytes)
    (ha : inRanges s.code a = true) : a ≠ b := by
  rintro rfl
  have := List.all_eq_true.mp h a hb
  simp [ha] at this

theorem keepsCode_writeByte {a : Word} {b : Byte} (hst : storesToMemory i = true) (hu : u.mem = s.mem)
    (hout : outsideCode [a] s = true) (ht : t.mem = (u.writeByte a b).mem) : KeepsCode i s t where
  unstored h := by rw [hst] at h; cases h
  canonical hwf := by
    rw [ht]
    exact writeByte_wf u a b (by rwa [hu])
  codeBytes a' ha' := by
    have hread : t.readByte a' = (u.writeByte a b).readByte a' := by rw [State.readByte, ht]; rfl
    rw [hread, readByte_writeByte, if_neg (ne_of_outsideCode hout (by simp) ha'), State.readByte, hu]
    rfl

theorem keepsCode_writeWord {a v : Word} (hst : storesToMemory i = true) (hu : u.mem = s.mem)
    (hout : outsideCode [a, a + 1] s = true) (ht : t.mem = (u.writeWord a v).mem) : KeepsCode i s t where
  unstored h := by rw [hst] at h; cases h
  canonical hwf := by
    rw [ht]
    exact writeWord_wf u a v (by rwa [hu])
  codeBytes a' ha' := by
    have hread : t.readByte a' = (u.writeWord a v).readByte a' := by rw [State.readByte, ht]; rfl
    rw [hread, readByte_writeWord, if_neg (ne_of_outsideCode hout (by simp) ha'),
      if_neg (ne_of_outsideCode hout (by simp) ha'), State.readByte, hu]
    rfl

/-- The check of a store refuses it or lets it go on outside the code range. -/
theorem answers_guardStore {bytes : List Word} {k : Outcome} (hready : destReady i s = true)
    (hk : outsideCode bytes s = true → Answers i s k) : Answers i s (guardStore Config.mmio bytes s k) := by
  cases hout : outsideCode bytes s with
  | true =>
    rw [guardStore_of_outside hout]
    exact hk hout
  | false =>
    obtain ⟨a, -, -, hrefused⟩ := guardCode_of_inside hout k
    rw [guardStore, guardMmio_eq, hrefused]
    exact .refusal hready

end Memory

/-! Instructions that go on with a result. -/

/-- A register with a load in flight that is waited for by nobody is no destination that may be written. -/
theorem ne_of_inFlight {i : Instr} {d q : Reg} {s : State} (hready : destReady i s = true)
    (hdest : destination i = some d ∨ d ∈ sources i) (hq : q ∉ sources i) (hpending : s.resolved q = false) : q ≠ d := by
  rintro rfl
  obtain hd | hmem := hdest
  · rw [destReady_of_destination hd, resolved_waited_of_not_mem hq, hpending] at hready
    cases hready
  · exact hq hmem

theorem goes_finish {i : Instr} {r : Result} {s : State} (hready : destReady i s = true)
    (hdest : r.dest = .zr ∨ destination i = some r.dest ∨ r.dest ∈ sources i) (hfl : canWriteFlags i = true ∨ r.fl = s.fl)
    (hu : r.fl.u = s.fl.u ∨ ∃ rs, i = .csrw rs Config.csrFl) : Goes i s ((waited i s).finish r) where
  ready := hready
  inFlight q hq hpending := by
    have hne : ¬ (q = r.dest ∧ r.dest ≠ .zr) := by
      rintro ⟨heq, hzr⟩
      exact ne_of_inFlight hready (hdest.resolve_left hzr) hq hpending heq
    rw [gpr_finish, if_neg hne, gpr_waited, if_neg hq]
  memory := keepsCode_of_mem rfl
  ira := rfl
  hidden := rfl
  mode := rfl
  code := rfl
  interrupts := .inl rfl
  flags h := hfl.resolve_left (by simp [h])
  unnamedFlag h := hu.resolve_right fun ⟨rs, hrs⟩ => h rs hrs

theorem arith_unnamedFlag (d : Reg) (rk : Word × Bool) (s : State) : (Result.arith d rk s).fl.u = s.fl.u := rfl

section Finishes
variable {i : Instr} {g : Reg} {r : Result} {s : State}

/-- An instruction that checks its destination and writes it, or nothing. -/
theorem Finishes.answers (h : Finishes i g r s) (hd : destination i = some g) (hdest : r.dest = .zr ∨ r.dest = g)
    (hfl : canWriteFlags i = true ∨ r.fl = s.fl) (hu : r.fl.u = s.fl.u) : Answers i s (exec i s) := by
  rw [h]
  refine answers_guardDest hd fun hready => .next (goes_finish hready (hdest.imp_right fun heq => .inl ?_) hfl (.inl hu))
  rw [heq, hd]

/-- An instruction without a destination, which writes one of its sources or nothing. -/
theorem Finishes.answers_unchecked (h : Finishes i .zr r s) (hd : destination i = none)
    (hdest : r.dest = .zr ∨ r.dest ∈ sources i) (hfl : canWriteFlags i = true ∨ r.fl = s.fl)
    (hu : r.fl.u = s.fl.u ∨ ∃ rs, i = .csrw rs Config.csrFl) : Answers i s (exec i s) := by
  rw [h.next rfl]
  exact .next (goes_finish (destReady_of_no_destination hd s) (hdest.imp_right .inr) hfl hu)

end Finishes

/-! CSR access. -/

/-- A CSR read refuses or goes on with a value. -/
theorem withCsr_cases (k : BitVec 6) (s : State) (cont : Word → Outcome) :
    (∃ r, withCsr Config.csrNumbers Config.csrIpValue k s cont = .refused r) ∨
    ∃ v, withCsr Config.csrNumbers Config.csrIpValue k s cont = cont v := by
  unfold withCsr
  split
  · exact .inr ⟨_, rfl⟩
  · split
    · exact .inr ⟨_, rfl⟩
    · split
      · exact .inl ⟨_, rfl⟩
      · split <;> exact .inl ⟨_, rfl⟩

theorem answers_csrr (rd : Reg) (k : BitVec 6) (s : State) : Answers (.csrr rd k) s (exec (.csrr rd k) s) := by
  obtain ⟨r, hr⟩ | ⟨v, hv⟩ := withCsr_cases k s fun v => writeBack rd v s
  · rw [exec_csrr, hr]
    exact answers_guardDest (i := .csrr rd k) rfl .refusal
  · have h : Finishes (.csrr rd k) rd (.quiet rd v s) s := by
      rw [Finishes, exec_csrr, hv]
      rfl
    exact h.answers rfl (.inr rfl) (.inr rfl) rfl

theorem goes_cleared {i : Instr} (h : i = .clri ∨ ∃ rs, i = .csrw rs Config.csrPen) (s : State) : Goes i s (cleared i s) where
  ready := by
    obtain rfl | ⟨rs, rfl⟩ := h
    · rfl
    · rfl
  inFlight q hq _ := (gpr_waited i s q).trans (if_neg hq)
  memory := keepsCode_of_mem rfl
  ira := rfl
  hidden := rfl
  mode := rfl
  code := rfl
  interrupts := .inr ⟨rfl, h⟩
  flags _ := rfl
  unnamedFlag _ := rfl

/-- A CSR write refuses or goes on. -/
theorem writeCsr_cases (k : BitVec 6) (v : Word) (s : State) :
    (∃ r, writeCsr Config.csrNumbers k v s = .refused r) ∨ ∃ t, writeCsr Config.csrNumbers k v s = .next t := by
  unfold writeCsr
  split
  · exact .inl ⟨_, rfl⟩
  · split
    · exact .inr ⟨_, rfl⟩
    · split
      · split
        · exact .inr ⟨_, rfl⟩
        · exact .inl ⟨_, rfl⟩
      · split <;> exact .inl ⟨_, rfl⟩

theorem answers_csrw (rs : Reg) (k : BitVec 6) (s : State) : Answers (.csrw rs k) s (exec (.csrw rs k) s) := by
  obtain ⟨r, hr⟩ | ⟨t, ht⟩ := writeCsr_cases k (s.view rs) (waited (.csrw rs k) s)
  · rw [exec_csrw, hr]
    exact .refusal rfl
  · obtain ⟨rfl, -⟩ | ⟨rfl, hzero, -⟩ := writeCsr_next ht
    · exact (finishes_csrw_csrFl rs s).answers_unchecked rfl (.inl rfl) (.inl rfl) (.inr ⟨rs, rfl⟩)
    · rw [exec_csrw_csrPen hzero]
      exact .next (goes_cleared (.inr ⟨rs, rfl⟩) s)

/-! Memory access. -/

/-- An access that goes on: registers, memory and pc apart, the state is the waiting one's. -/
theorem goes_access {i : Instr} {s t : State} (hready : destReady i s = true) (hfl : t.fl = s.fl)
    (hregs : ∀ q, q ∉ sources i → s.resolved q = false → t.gpr q = s.gpr q) (hmem : KeepsCode i s t)
    (hsys : KeepsSystem s t) : Goes i s t := by
  obtain ⟨hira, hpen, hhidden, hmode, hcode⟩ := hsys
  exact ⟨hready, hregs, hmem, hira, hhidden, hmode, hcode, .inl hpen, fun _ => hfl, fun _ => congrArg Flags.u hfl⟩

/-- A load issued keeps every other load in flight. -/
theorem issueLoad_inFlight {i : Instr} {d q : Reg} {v : Word} {s u : State} (hready : destReady i s = true)
    (hdest : destination i = some d ∨ d ∈ sources i) (hu : ∀ r, u.gpr r = (waited i s).gpr r) (hq : q ∉ sources i)
    (hpending : s.resolved q = false) : (u.issueLoad d v).advance.gpr q = s.gpr q := by
  have hne := ne_of_inFlight hready hdest hq hpending
  rw [gpr_advance, gpr_issueLoad, if_neg (fun h => hne h.1), hu, gpr_waited, if_neg hq]

/-- A byte read stops at a byte without a value or goes on with it. -/
theorem answers_withByte {i : Instr} {a : Word} {s : State} {k : Byte → Outcome} (hready : destReady i s = true)
    (hcause : ∃ r imm base, r ≠ .zr ∧
      i ∈ ([.mld r imm base, .mldw r imm base, .xch r imm base, .xchw r imm base] : List Instr))
    (hk : ∀ b, Answers i s (k b)) : Answers i s (withByte a s k) := by
  cases hb : s.readByte a with
  | none =>
    rw [withByte_of_none hb]
    exact .stop hready ⟨hb, hcause⟩
  | some b =>
    rw [withByte_of_some hb]
    exact hk b

/-- The alignment check stops a word access at an odd address. -/
theorem answers_align {i : Instr} {a : Word} {s : State} {k : Outcome} (hready : destReady i s = true)
    (hcause : ∃ r imm base, a = wordEa (s.view base) imm ∧
      i.core ∈ ([.mldw r imm base, .mstw r imm base, .xchw r imm base] : List Instr))
    (hk : Answers i s k) : Answers i s (if a.toNat % 2 = 1 then .fault (.misalignedAccess a) else k) := by
  split
  · exact .stop hready ⟨‹_›, hcause⟩
  · exact hk

theorem answers_mld (rd : Reg) (imm : BitVec 5) (base : Reg) (s : State) :
    Answers (.mld rd imm base) s (exec (.mld rd imm base) s) := by
  by_cases hrd : rd = .zr
  · subst hrd
    exact (finishes_mld_zr imm base s).answers rfl (.inl rfl) (.inr rfl) rfl
  · rw [exec_mld hrd]
    refine answers_guardDest rfl fun hready => answers_withByte hready ⟨rd, imm, base, hrd, by simp⟩ fun b => .next ?_
    exact goes_access hready rfl (fun q => issueLoad_inFlight hready (.inl rfl) fun _ => rfl) (keepsCode_of_mem rfl)
      ⟨rfl, rfl, rfl, rfl, rfl⟩

theorem answers_mldw (rd : Reg) (imm : BitVec 5) (base : Reg) (s : State) :
    Answers (.mldw rd imm base) s (exec (.mldw rd imm base) s) := by
  by_cases hrd : rd = .zr
  · subst hrd
    exact (finishes_mldw_zr imm base s).answers rfl (.inl rfl) (.inr rfl) rfl
  · rw [exec_mldw hrd]
    have hcause : ∃ r imm' base', r ≠ .zr ∧ Instr.mldw rd imm base ∈
        ([.mld r imm' base', .mldw r imm' base', .xch r imm' base', .xchw r imm' base'] : List Instr) :=
      ⟨rd, imm, base, hrd, by simp⟩
    refine answers_guardDest rfl fun hready => answers_align hready ⟨rd, imm, base, rfl, .head _⟩ ?_
    refine answers_withByte hready hcause fun lo => answers_withByte hready hcause fun hi => .next ?_
    exact goes_access hready rfl (fun q => issueLoad_inFlight hready (.inl rfl) fun _ => rfl) (keepsCode_of_mem rfl)
      ⟨rfl, rfl, rfl, rfl, rfl⟩

/-- A byte store (`mst`, `mclr`, `xch zr`). -/
theorem answers_byteStore {i : Instr} {a : Word} {b : Byte} {s : State} (hd : destination i = none)
    (hst : storesToMemory i = true)
    (h : exec i s = guardStore Config.mmio [a] s (.next ((waited i s).writeByte a b).advance)) :
    Answers i s (exec i s) := by
  have hready := destReady_of_no_destination hd s
  rw [h]
  refine answers_guardStore hready fun hout => .next ?_
  exact goes_access hready rfl (fun q hq _ => (gpr_waited i s q).trans (if_neg hq))
    (keepsCode_writeByte (u := waited i s) hst rfl hout rfl) ⟨rfl, rfl, rfl, rfl, rfl⟩

/-- A word store (`mstw`, `mclrw`, `xchw zr`). -/
theorem answers_wordStore {i : Instr} {a v : Word} {s : State} (hd : destination i = none) (hst : storesToMemory i = true)
    (hcause : ∃ r imm base, a = wordEa (s.view base) imm ∧
      i.core ∈ ([.mldw r imm base, .mstw r imm base, .xchw r imm base] : List Instr))
    (h : exec i s = if a.toNat % 2 = 1 then .fault (.misalignedAccess a)
      else guardStore Config.mmio [a, a + 1] s (.next ((waited i s).writeWord a v).advance)) : Answers i s (exec i s) := by
  have hready := destReady_of_no_destination hd s
  rw [h]
  refine answers_align hready hcause (answers_guardStore hready fun hout => .next ?_)
  exact goes_access hready rfl (fun q hq _ => (gpr_waited i s q).trans (if_neg hq))
    (keepsCode_writeWord (u := waited i s) hst rfl hout rfl) ⟨rfl, rfl, rfl, rfl, rfl⟩

theorem answers_xch (reg : Reg) (imm : BitVec 5) (base : Reg) (s : State) :
    Answers (.xch reg imm base) s (exec (.xch reg imm base) s) := by
  by_cases hrw : reg = .zr
  · subst hrw
    exact answers_byteStore rfl rfl (exec_xch_zr imm base s)
  · rw [exec_xch hrw]
    refine answers_guardStore rfl fun hout =>
      answers_withByte rfl ⟨reg, imm, base, hrw, by simp⟩ fun old => .next ?_
    exact goes_access rfl rfl (fun q => issueLoad_inFlight rfl (.inr (by simp [sources])) fun _ => rfl)
      (keepsCode_writeByte (u := waited (.xch reg imm base) s) rfl rfl hout rfl) ⟨rfl, rfl, rfl, rfl, rfl⟩

theorem answers_xchw (reg : Reg) (imm : BitVec 5) (base : Reg) (s : State) :
    Answers (.xchw reg imm base) s (exec (.xchw reg imm base) s) := by
  have hodd : ∃ r imm' base', wordEa (s.view base) imm = wordEa (s.view base') imm' ∧ (Instr.xchw reg imm base).core ∈
      ([.mldw r imm' base', .mstw r imm' base', .xchw r imm' base'] : List Instr) :=
    ⟨reg, imm, base, rfl, .tail _ (.tail _ (.head _))⟩
  by_cases hrw : reg = .zr
  · subst hrw
    exact answers_wordStore rfl rfl hodd (exec_xchw_zr imm base s)
  · rw [exec_xchw hrw]
    have hcause : ∃ r imm' base', r ≠ .zr ∧ Instr.xchw reg imm base ∈
        ([.mld r imm' base', .mldw r imm' base', .xch r imm' base', .xchw r imm' base'] : List Instr) :=
      ⟨reg, imm, base, hrw, by simp⟩
    refine answers_align rfl hodd (answers_guardStore rfl fun hout => ?_)
    refine answers_withByte rfl hcause fun lo => answers_withByte rfl hcause fun hi => .next ?_
    exact goes_access rfl rfl (fun q => issueLoad_inFlight rfl (.inr (by simp [sources])) fun _ => rfl)
      (keepsCode_writeWord (u := waited (.xchw reg imm base) s) rfl rfl hout rfl) ⟨rfl, rfl, rfl, rfl, rfl⟩

/-! Instructions that stop. -/

/-- The interrupt that `wfi` takes is one of the pending ones (log 16). -/
theorem takenInterrupt_mem {pending : List Nat} (h : pending ≠ []) : takenInterrupt pending ∈ pending := by
  have hlt : Config.interruptTaken pending % pending.length < pending.length :=
    Nat.mod_lt _ (List.length_pos_iff.mpr h)
  rw [takenInterrupt, List.getD_eq_getElem _ _ hlt]
  exact List.getElem_mem hlt

theorem exec_wfi_of_pending {s : State} (h : s.pendingInterrupts ≠ []) :
    exec .wfi s = .fault (.interrupt (takenInterrupt s.pendingInterrupts)) := by
  obtain ⟨p, ps, hp⟩ := List.exists_cons_of_ne_nil h
  change wfiOp Config.interrupts s = _
  rw [wfiOp.eq_def, hp]
  rfl

theorem exec_wfi_of_none {s : State} (h : s.pendingInterrupts = []) : exec .wfi s = .fault .waitForInterrupt :=
  wfiOp_never s h

theorem answers_wfi (s : State) : Answers .wfi s (exec .wfi s) := by
  by_cases h : s.pendingInterrupts = []
  · rw [exec_wfi_of_none h]
    exact .stop rfl ⟨rfl, h⟩
  · rw [exec_wfi_of_pending h]
    exact .stop rfl ⟨rfl, takenInterrupt_mem h⟩

theorem answers_reserved {i : Instr} (h : isReserved i = true) (hd : destination i = none) (s : State) :
    Answers i s (exec i s) := by
  rw [Encoding.exec_reserved h]
  exact .stop (destReady_of_no_destination hd s) ⟨h, rfl⟩

/-- What every instruction can answer: one line for each, by what it does. -/
theorem exec_answers (i : Instr) (s : State) : Answers i s (exec i s) := by
  cases i with
  -- Specials.
  | bkpt => exact .stop rfl rfl
  | nop => exact (finishes_nop s).answers_unchecked rfl (.inl rfl) (.inr rfl) (.inl rfl)
  | sysc n => exact .stop rfl rfl
  | fence => exact (finishes_fence s).answers_unchecked rfl (.inl rfl) (.inr rfl) (.inl rfl)
  | ftlb => exact (finishes_ftlb s).answers_unchecked rfl (.inl rfl) (.inr rfl) (.inl rfl)
  | rfi => exact .stop rfl rfl
  | wfi => exact answers_wfi s
  | scf => exact (finishes_scf s).answers_unchecked rfl (.inl rfl) (.inl rfl) (.inl rfl)
  | rscf => exact (finishes_rscf s).answers_unchecked rfl (.inl rfl) (.inl rfl) (.inl rfl)
  -- Reserved rows.
  | reservedJmpdl064 => exact answers_reserved rfl rfl s
  | reservedJmpdl0128 => exact answers_reserved rfl rfl s
  | reservedJmpdl0Other f => exact answers_reserved rfl rfl s
  | reservedJmpdFlags rs f => exact answers_reserved rfl rfl s
  | reservedJmpdlFlags rs f => exact answers_reserved rfl rfl s
  | reservedBrhCond condHi imm => exact answers_reserved rfl rfl s
  | reserved0111100 a b c => exact answers_reserved rfl rfl s
  | reserved0111101 a b c => exact answers_reserved rfl rfl s
  | reserved0111110 a b c => exact answers_reserved rfl rfl s
  | reserved0111111 a b c => exact answers_reserved rfl rfl s
  -- Arithmetic, comparison, select, logic, shifts.
  | add rd rs1 rs2 => exact (finishes_add rd rs1 rs2 s).answers rfl (.inr rfl) (.inl rfl) rfl
  | addc rd rs1 rs2 => exact (finishes_addc rd rs1 rs2 s).answers rfl (.inr rfl) (.inl rfl) rfl
  | sub rd rs1 rs2 => exact (finishes_sub rd rs1 rs2 s).answers rfl (.inr rfl) (.inl rfl) rfl
  | subb rd rs1 rs2 => exact (finishes_subb rd rs1 rs2 s).answers rfl (.inr rfl) (.inl rfl) rfl
  | slt rd rs1 rs2 => exact (finishes_slt rd rs1 rs2 s).answers rfl (.inr rfl) (.inl rfl) rfl
  | sltu rd rs1 rs2 => exact (finishes_sltu rd rs1 rs2 s).answers rfl (.inr rfl) (.inl rfl) rfl
  | ior rd rs1 rs2 => exact (finishes_ior rd rs1 rs2 s).answers rfl (.inr rfl) (.inl rfl) rfl
  | and rd rs1 rs2 => exact (finishes_and rd rs1 rs2 s).answers rfl (.inr rfl) (.inl rfl) rfl
  | xor rd rs1 rs2 => exact (finishes_xor rd rs1 rs2 s).answers rfl (.inr rfl) (.inl rfl) rfl
  | bsld rd rs1 rs2 => exact (finishes_bsld rd rs1 rs2 s).answers rfl (.inr rfl) (.inl rfl) rfl
  | bsrd rd rs1 rs2 => exact (finishes_bsrd rd rs1 rs2 s).answers rfl (.inr rfl) (.inl rfl) rfl
  | bsrsd rd rs1 rs2 => exact (finishes_bsrsd rd rs1 rs2 s).answers rfl (.inr rfl) (.inl rfl) rfl
  | brrd rd rs1 rs2 => exact (finishes_brrd rd rs1 rs2 s).answers rfl (.inr rfl) (.inl rfl) rfl
  | szr rd rs1 rs2 =>
    have hdest : (if s.view rs2 = 0 then rd else .zr) = .zr ∨ (if s.view rs2 = 0 then rd else .zr) = rd := by
      split
      · exact .inr rfl
      · exact .inl rfl
    exact (finishes_szr rd rs1 rs2 s).answers rfl hdest (.inl rfl) rfl
  | bsl rd amt rs => exact (finishes_bsl rd amt rs s).answers rfl (.inr rfl) (.inl rfl) rfl
  | bsr rd amt rs => exact (finishes_bsr rd amt rs s).answers rfl (.inr rfl) (.inl rfl) rfl
  | bsrs rd amt rs => exact (finishes_bsrs rd amt rs s).answers rfl (.inr rfl) (.inl rfl) rfl
  | brr rd amt rs => exact (finishes_brr rd amt rs s).answers rfl (.inr rfl) (.inl rfl) rfl
  | addi rd imm => exact (finishes_addi rd imm s).answers_unchecked rfl (.inr (.head _)) (.inl rfl) (.inl rfl)
  | iori rd imm => exact (finishes_iori rd imm s).answers_unchecked rfl (.inr (.head _)) (.inl rfl) (.inl rfl)
  | ioriu rd imm => exact (finishes_ioriu rd imm s).answers_unchecked rfl (.inr (.head _)) (.inl rfl) (.inl rfl)
  | andi rd imm => exact (finishes_andi rd imm s).answers_unchecked rfl (.inr (.head _)) (.inl rfl) (.inl rfl)
  | andiu rd imm => exact (finishes_andiu rd imm s).answers_unchecked rfl (.inr (.head _)) (.inl rfl) (.inl rfl)
  | xori rd imm => exact (finishes_xori rd imm s).answers_unchecked rfl (.inr (.head _)) (.inl rfl) (.inl rfl)
  | xoriu rd imm => exact (finishes_xoriu rd imm s).answers_unchecked rfl (.inr (.head _)) (.inl rfl) (.inl rfl)
  | cmpi rs imm => exact (finishes_cmpi rs imm s).answers_unchecked rfl (.inl rfl) (.inl rfl) (.inl rfl)
  | biti rs imm => exact (finishes_biti rs imm s).answers_unchecked rfl (.inl rfl) (.inl rfl) (.inl rfl)
  -- CSR access, load immediate, transfers.
  | csrr rd k => exact answers_csrr rd k s
  | csrw rs k => exact answers_csrw rs k s
  | lli rd imm => exact (finishes_lli rd imm s).answers rfl (.inr rfl) (.inr rfl) rfl
  | lui rd imm => exact (finishes_lui rd imm s).answers rfl (.inr rfl) (.inr rfl) rfl
  | jmpl imm => exact (finishes_jmpl imm s).answers rfl (.inr rfl) (.inr rfl) rfl
  | jmprl imm => exact (finishes_jmprl imm s).answers rfl (.inr rfl) (.inr rfl) rfl
  | jmpdl rs => exact (finishes_jmpdl rs s).answers rfl (.inr rfl) (.inr rfl) rfl
  | jmp imm => exact (finishes_jmp imm s).answers_unchecked rfl (.inl rfl) (.inr rfl) (.inl rfl)
  | jmpr imm => exact (finishes_jmpr imm s).answers_unchecked rfl (.inl rfl) (.inr rfl) (.inl rfl)
  | prfi imm => exact (finishes_prfi imm s).answers_unchecked rfl (.inl rfl) (.inr rfl) (.inl rfl)
  | jmpd rs => exact (finishes_jmpd rs s).answers_unchecked rfl (.inl rfl) (.inr rfl) (.inl rfl)
  | brh cond imm => exact (finishes_brh cond imm s).answers_unchecked rfl (.inl rfl) (.inr rfl) (.inl rfl)
  -- Memory.
  | mld rd imm base => exact answers_mld rd imm base s
  | mldw rd imm base => exact answers_mldw rd imm base s
  | mst rs imm base => exact answers_byteStore rfl rfl (exec_mst rs imm base s)
  | mstw rs imm base =>
    exact answers_wordStore rfl rfl ⟨rs, imm, base, rfl, .tail _ (.head _)⟩ (exec_mstw rs imm base s)
  | xch reg imm base => exact answers_xch reg imm base s
  | xchw reg imm base => exact answers_xchw reg imm base s
  -- Aliases.
  | mov rd rs => exact (finishes_mov rd rs s).answers rfl (.inr rfl) (.inl rfl) rfl
  | neg rd rs => exact (finishes_neg rd rs s).answers rfl (.inr rfl) (.inl rfl) rfl
  | test rs => exact (finishes_test rs s).answers_unchecked rfl (.inl rfl) (.inl rfl) (.inl rfl)
  | cmp rs1 rs2 => exact (finishes_cmp rs1 rs2 s).answers_unchecked rfl (.inl rfl) (.inl rfl) (.inl rfl)
  | inc rd => exact (finishes_inc rd s).answers_unchecked rfl (.inr (.head _)) (.inl rfl) (.inl rfl)
  | dec rd => exact (finishes_dec rd s).answers_unchecked rfl (.inr (.head _)) (.inl rfl) (.inl (arith_unnamedFlag _ _ s))
  | alloc imm => exact (finishes_alloc imm s).answers_unchecked rfl (.inr (.head _)) (.inl rfl) (.inl rfl)
  | ip rd => exact (finishes_ip rd s).answers rfl (.inr rfl) (.inr rfl) rfl
  | clri =>
    rw [exec_clri]
    exact .next (goes_cleared (.inl rfl) s)
  | sneg rd rs => exact (finishes_sneg rd rs s).answers rfl (.inr rfl) (.inl rfl) rfl
  | spos rd rs => exact (finishes_spos rd rs s).answers rfl (.inr rfl) (.inl rfl) rfl
  | snez rd rs => exact (finishes_snez rd rs s).answers rfl (.inr rfl) (.inl rfl) rfl
  | cut4 rd => exact (finishes_cut4 rd s).answers_unchecked rfl (.inr (.head _)) (.inl rfl) (.inl rfl)
  | cut8 rd => exact (finishes_cut8 rd s).answers_unchecked rfl (.inr (.head _)) (.inl rfl) (.inl rfl)
  | clrl rd => exact (finishes_clrl rd s).answers_unchecked rfl (.inr (.head _)) (.inl rfl) (.inl rfl)
  | not rd => exact (finishes_not rd s).answers_unchecked rfl (.inr (.head _)) (.inl rfl) (.inl rfl)
  | not8 rd => exact (finishes_not8 rd s).answers_unchecked rfl (.inr (.head _)) (.inl rfl) (.inl rfl)
  | clr rd => exact (finishes_clr rd s).answers rfl (.inr rfl) (.inr rfl) rfl
  | ret => exact (finishes_ret s).answers_unchecked rfl (.inl rfl) (.inr rfl) (.inl rfl)
  | prfd imm base => exact (finishes_prfd imm base s).answers_unchecked rfl (.inl rfl) (.inr rfl) (.inl rfl)
  | mclr imm base => exact answers_byteStore rfl rfl (exec_mclr imm base s)
  | mclrw imm base =>
    exact answers_wordStore rfl rfl ⟨.zr, imm, base, rfl, .tail _ (.head _)⟩ (exec_mclrw imm base s)

/-! The statements about every instruction. -/

theorem goes_of_exec {i : Instr} {s t : State} (h : exec i s = .next t) : Goes i s t := by
  have ha := exec_answers i s
  rw [h] at ha
  cases ha with
  | next hgoes => exact hgoes

/-- A fault is the write fault of a destination that is not ready, or has its cause. -/
theorem cause_of_exec {i : Instr} {s : State} {f : Fault} (h : exec i s = .fault f) :
    (∃ d, f = .asyncWriteFault d ∧ destination i = some d ∧ destReady i s = false) ∨ FaultCause i s f := by
  have ha := exec_answers i s
  rw [h] at ha
  cases ha with
  | writeFault hd hnot => exact .inl ⟨_, rfl, hd, hnot⟩
  | stop _ hcause => exact .inr hcause

/-- An instruction whose destination is not ready can only raise the write fault. -/
theorem exec_of_not_ready {i : Instr} {s : State} {d : Reg} (hd : destination i = some d) (h : destReady i s = false) :
    exec i s = .fault (.asyncWriteFault d) := by
  have ha := exec_answers i s
  generalize exec i s = o at ha
  cases ha with
  | writeFault hd' _ => rw [Option.some.inj (hd'.symm.trans hd)]
  | next hgoes => rw [hgoes.ready] at h; cases h
  | stop hready _ => rw [hready] at h; cases h
  | refusal hready => rw [hready] at h; cases h

theorem destReady_eq_false {i : Instr} {d : Reg} {s : State} (hd : destination i = some d) :
    destReady i s = false ↔ d ∉ sources i ∧ s.resolved d = false := by
  rw [destReady_of_destination hd, resolved_waited]
  simp

/-- Settles O49: the write fault is what an instruction answers whose destination is not ready, and no other answer is it. -/
theorem writeFaultExactly : Obligations.WriteFaultExactly := by
  unfold Obligations.WriteFaultExactly
  intro i s d
  constructor
  · intro h
    obtain ⟨d', hf, hd, hnot⟩ | hcause := cause_of_exec h
    · obtain rfl := Fault.asyncWriteFault.inj hf
      exact ⟨hd, (destReady_eq_false hd).mp hnot⟩
    · exact hcause.elim
  · rintro ⟨hd, hnot⟩
    exact exec_of_not_ready hd ((destReady_eq_false hd).mpr hnot)

/-- Settles O54: the two flag clauses of `Goes`. -/
theorem flagWriters : Obligations.FlagWriters := by
  unfold Obligations.FlagWriters
  intro i s t h
  have hgoes := goes_of_exec h
  exact ⟨hgoes.flags, hgoes.unnamedFlag⟩

/-- Settles O55: the system clauses of `Goes`. -/
theorem systemStateFrame : Obligations.SystemStateFrame := by
  unfold Obligations.SystemStateFrame
  intro i s t h
  have hgoes := goes_of_exec h
  exact ⟨hgoes.ira, hgoes.hidden, hgoes.mode, hgoes.code, hgoes.interrupts⟩

/-- Settles O56: `FaultCause`, fault by fault. -/
theorem faultsHaveTheirCause : Obligations.FaultsHaveTheirCause := by
  unfold Obligations.FaultsHaveTheirCause
  intro i s f h
  obtain ⟨d, rfl, -⟩ | hcause := cause_of_exec h
  · simp
  · refine ⟨?_, ?_, ?_, ?_, ?_, ?_, ?_, ?_⟩
    · rintro rfl; exact hcause
    · rintro n rfl; exact hcause
    · rintro rfl; exact hcause
    · rintro rfl; exact hcause
    · rintro src rfl; exact hcause
    · rintro w rfl; exact hcause
    · rintro a rfl; exact hcause
    · rintro a rfl; exact hcause

/-- Settles O6: each special by its own meaning; the interrupt `wfi` takes is a pending one. -/
theorem specialsStop : Obligations.SpecialsStop := by
  unfold Obligations.SpecialsStop
  exact fun s => ⟨rfl, fun _ => rfl, rfl, exec_wfi_of_none, fun h => ⟨_, takenInterrupt_mem h, exec_wfi_of_pending h⟩⟩

/-- Settles O38: `fence` waits for r1 to r7 and goes on; with every register resolved no destination is pending. -/
theorem fenceRule : Obligations.FenceRule := by
  unfold Obligations.FenceRule
  intro s
  have hregs (r : Reg) : s.awaitAll.advance.gpr r = { val := s.view r, load := none } := by
    rw [gpr_advance, gpr_awaitAll, State.view, ← resolve_val, ← resolve_load (s.gpr r)]
  refine ⟨s.awaitAll.advance, rfl, hregs, fun _ => rfl, ⟨rfl, rfl, rfl, rfl, rfl⟩, rfl, advance_pc s.awaitAll, ?_⟩
  intro i d hfault
  obtain ⟨-, -, hpending⟩ := (writeFaultExactly i _ d).mp hfault
  rw [State.resolved, hregs] at hpending
  cases hpending

/-! Steps and runs. -/

/-- A step that goes on executes the instruction at pc after the memory side's turn. -/
theorem step_next {s t : State} (h : step s = .next t) :
    ∃ i, instructionAt s = some i ∧ exec i s.memorySide = .next t := by
  rw [step_eq] at h
  obtain ⟨first, second, h1, h2, hexec⟩ := fetch_next h
  refine ⟨_, ?_, hexec⟩
  rw [pc_memorySide, readByte_memorySide] at h1 h2
  rw [instructionAt, h1, h2]

/-- Settles O51: the memory side touches registers only, and `Goes` keeps memory canonical and the system state. -/
theorem invariantKeptByStep : Obligations.InvariantKeptByStep := by
  unfold Obligations.InvariantKeptByStep
  rintro s t ⟨hwf, hpen, hhidden⟩ h
  obtain ⟨i, -, hexec⟩ := step_next h
  have hgoes := goes_of_exec hexec
  refine ⟨hgoes.memory.canonical hwf, ?_, hgoes.hidden.trans hhidden⟩
  obtain heq | ⟨hnil, -⟩ := hgoes.interrupts
  · exact heq.trans hpen
  · exact hnil

theorem runsTo_zero {s t : State} : RunsTo 0 s t ↔ t = s :=
  ⟨fun h => (Host.Outcome.next.inj h).symm, fun h => h ▸ rfl⟩

/-- A run of one more step is a first step that goes on and the run of the rest. -/
theorem runsTo_succ {k : Nat} {s t : State} : RunsTo (k + 1) s t ↔ ∃ u, step s = .next u ∧ RunsTo k u t := by
  cases hstep : step s with
  | next u =>
    have hrun : Sys2Proof.core.run (k + 1) s = Sys2Proof.core.run k u := by
      have hcore : Sys2Proof.core.step s = .next u := hstep
      simp only [Host.Core.run, hcore]
    rw [RunsTo, hrun]
    exact ⟨fun h => ⟨u, rfl, h⟩, fun ⟨u', hu', h⟩ => by rwa [← Host.Outcome.next.inj hu'] at h⟩
  | fault f =>
    have hrun : Sys2Proof.core.run (k + 1) s = .fault f := by
      have hcore : Sys2Proof.core.step s = .fault f := hstep
      simp only [Host.Core.run, hcore]
    rw [RunsTo, hrun]
    simp
  | refused r =>
    have hrun : Sys2Proof.core.run (k + 1) s = .refused r := by
      have hcore : Sys2Proof.core.step s = .refused r := hstep
      simp only [Host.Core.run, hcore]
    rw [RunsTo, hrun]
    simp

/-- One step keeps the code range and the bytes in it. -/
theorem step_keepsCode {s t : State} (h : step s = .next t) :
    t.code = s.code ∧ ∀ a, inRanges s.code a = true → t.readByte a = s.readByte a := by
  obtain ⟨i, -, hexec⟩ := step_next h
  have hgoes := goes_of_exec hexec
  exact ⟨hgoes.code, hgoes.memory.codeBytes⟩

/-- Settles O53: the memory clause of `Goes`, and by induction on the length of the run that every step keeps the code range. -/
theorem codeStaysConstant : Obligations.CodeStaysConstant := by
  unfold Obligations.CodeStaysConstant
  refine ⟨fun i s t h hst a => ?_, fun k => ?_⟩
  · rw [State.readByte, State.readByte, (goes_of_exec h).memory.unstored hst]
  · induction k with
    | zero =>
      intro s t h
      obtain rfl := runsTo_zero.mp h
      exact ⟨rfl, fun _ _ => rfl⟩
    | succ k ih =>
      intro s t h
      obtain ⟨u, hstep, hrun⟩ := runsTo_succ.mp h
      obtain ⟨hcode, hbytes⟩ := step_keepsCode hstep
      obtain ⟨hcode', hbytes'⟩ := ih u t hrun
      refine ⟨hcode'.trans hcode, fun a ha => ?_⟩
      rw [hbytes' a (by rwa [hcode]), hbytes a ha]

/-- A load in flight that the instruction of a step does not wait for comes one instruction closer. -/
theorem step_inFlight {s t : State} {i : Instr} {r : Reg} {v : Word} {n : Nat} (hstep : step s = .next t)
    (hi : instructionAt s = some i) (hr : r ∉ sources i) (hload : (s.gpr r).load = some { value := v, left := n + 1 }) :
    (t.gpr r).load = some { value := v, left := n } := by
  obtain ⟨i', hi', hexec⟩ := step_next hstep
  obtain rfl := Option.some.inj (hi'.symm.trans hi)
  have htick : (s.memorySide.gpr r).load = some { value := v, left := n } := by
    rw [gpr_memorySide, Gpr.tick, hload]
  have hpending : s.memorySide.resolved r = false := by
    rw [State.resolved, htick]
    rfl
  rw [(goes_of_exec hexec).inFlight r hr hpending, htick]

/-- Settles O50: by induction on the steps left; a reader of the register ends the wait, any other step brings the load closer. -/
theorem loadArrivesInTime : Obligations.LoadArrivesInTime := by
  unfold Obligations.LoadArrivesInTime
  rintro s t r ⟨v, n⟩
  induction n generalizing s with
  | zero =>
    intro hload hrun
    obtain rfl := runsTo_zero.mp hrun
    right
    rw [gpr_memorySide, Gpr.tick, hload]
  | succ n ih =>
    intro hload hrun
    obtain ⟨u, hstep, hrest⟩ := runsTo_succ.mp hrun
    obtain ⟨i, hi, -⟩ := step_next hstep
    by_cases hr : r ∈ sources i
    · exact .inl ⟨0, s, i, n.succ_pos, runsTo_zero.mpr rfl, hi, hr⟩
    · obtain ⟨j, w, i', hj, hw, hread⟩ | harrived := ih u (step_inFlight hstep hi hr hload) hrest
      · exact .inl ⟨j + 1, w, i', Nat.succ_lt_succ hj, runsTo_succ.mpr ⟨u, hstep, hw⟩, hread⟩
      · exact .inr harrived

end Sys2Proof.Machine
end

