-- ==== Sys2Proof/Proofs/StartAndImage.lean ====
section
/-! PROOFS. Reset and the step (spec/10_state.md R50, spec/00_scope.md R12), loading an image (spec/20_memory.md R70,
spec/30_encoding.md R112), and the configuration (spec/00_scope.md R8). -/

namespace Sys2Proof.Machine

/-! Reset. -/

theorem gpr_reset (r : Reg) : State.reset.gpr r = { val := 0, load := none } := by
  cases r <;> rfl

/-- Settles O52: memory is empty after reset (`reset_mem_wf`). -/
theorem invariantAtReset : Obligations.InvariantAtReset := by
  unfold Obligations.InvariantAtReset
  exact ⟨reset_mem_wf, rfl, rfl⟩

/-- Settles O57: the fields of the reset state. -/
theorem resetState : Obligations.ResetState := by
  unfold Obligations.ResetState
  refine ⟨fun r => ?_, fun _ => rfl, rfl, rfl, rfl, fun r => ?_, rfl, rfl, rfl, rfl⟩
  · rw [State.resolved, gpr_reset]
    rfl
  · rw [State.view, gpr_reset]
    rfl

/-! The step. -/

/-- An instruction at pc has both its bytes. -/
theorem bytes_of_instructionAt {s : State} {i : Instr} (h : instructionAt s = some i) :
    ∃ first second, s.readByte s.pc = some first ∧ s.readByte (s.pc + 1) = some second ∧
      decode (assembleWord Config.ifetchOrder first second) = i := by
  unfold instructionAt at h
  split at h
  · exact ⟨_, _, ‹_›, ‹_›, Option.some.inj h⟩
  · cases h

theorem step_of_instructionAt {s : State} {i : Instr} (h : instructionAt s = some i) : step s = exec i s.memorySide := by
  obtain ⟨first, second, h1, h2, rfl⟩ := bytes_of_instructionAt h
  rw [step_eq, fetch_of_some (s := s.memorySide) h1 h2]

/-- Settles O1: a fetch reads the two bytes at pc in order, and what they decode to is well-formed. -/
theorem stepRunsDecodedInstruction : Obligations.StepRunsDecodedInstruction := by
  unfold Obligations.StepRunsDecodedInstruction
  intro s
  refine ⟨fun i hi => ⟨?_, step_of_instructionAt hi⟩, rfl, rfl, fun _ => rfl, ⟨rfl, rfl, rfl, rfl, rfl⟩, gpr_memorySide s,
    fun hnone => ?_, fun b hb hnone => ?_⟩
  · obtain ⟨first, second, -, -, rfl⟩ := bytes_of_instructionAt hi
    exact Encoding.wf_decode _
  · rw [step_eq, fetch, guardMmio_eq, pc_memorySide, withByte_of_none (s := s.memorySide) hnone]
  · rw [step_eq, fetch, guardMmio_eq, pc_memorySide, withByte_of_some (s := s.memorySide) hb,
      withByte_of_none (s := s.memorySide) hnone]

/-! Loading an image. -/

theorem coverByte_gprs (s : State) (a : Word) : (s.coverByte a).gprs = s.gprs := by
  unfold State.coverByte
  split
  · split <;> rfl
  · rfl

theorem coverByte_ip (s : State) (a : Word) : (s.coverByte a).ip = s.ip := by
  unfold State.coverByte
  split
  · split <;> rfl
  · rfl

/-- Loading leaves the registers and pc. -/
theorem loadImage_registers (bytes : List (Option Byte)) (s : State) (a : Word) :
    (s.loadImage a bytes).gprs = s.gprs ∧ (s.loadImage a bytes).ip = s.ip := by
  induction bytes generalizing s a with
  | nil => exact ⟨rfl, rfl⟩
  | cons b bytes ih =>
    cases b with
    | none => exact ih s (a + 1)
    | some b =>
      obtain ⟨hgprs, hip⟩ := ih ((s.writeByte a b).coverByte a) (a + 1)
      exact ⟨hgprs.trans (coverByte_gprs _ a), hip.trans (coverByte_ip _ a)⟩

theorem gpr_loadImage (bytes : List (Option Byte)) (s : State) (a : Word) (r : Reg) :
    (s.loadImage a bytes).gpr r = s.gpr r := by
  rw [State.gpr, (loadImage_registers bytes s a).1, State.gpr]

theorem add_ofNat_succ (a : Word) (k : Nat) : a + 1 + BitVec.ofNat 16 k = a + BitVec.ofNat 16 (k + 1) := by
  have hone : (1 : Word).toNat = 1 := rfl
  apply BitVec.eq_of_toNat_eq
  simp only [BitVec.toNat_add, BitVec.toNat_ofNat, hone]
  omega

/-- Loading leaves every address that gets no byte. -/
theorem loadImage_of_ne (bytes : List (Option Byte)) (s : State) (a x : Word)
    (hx : ∀ (k : Nat) (b : Byte), bytes[k]? = some (some b) → x ≠ a + BitVec.ofNat 16 k) :
    (s.loadImage a bytes).readByte x = s.readByte x ∧
    inRanges (s.loadImage a bytes).code x = inRanges s.code x := by
  induction bytes generalizing s a with
  | nil => exact ⟨rfl, rfl⟩
  | cons b bytes ih =>
    have hrest : ∀ (k : Nat) (b : Byte), bytes[k]? = some (some b) → x ≠ a + 1 + BitVec.ofNat 16 k := by
      intro k b hk
      rw [add_ofNat_succ]
      exact hx (k + 1) b hk
    cases b with
    | none => exact ih s (a + 1) hrest
    | some b =>
      have hxa : x ≠ a := by simpa using hx 0 b rfl
      obtain ⟨hread, hcode⟩ := ih ((s.writeByte a b).coverByte a) (a + 1) hrest
      refine ⟨hread.trans ?_, hcode.trans ?_⟩
      · rw [readByte_coverByte, readByte_writeByte, if_neg hxa]
      · rw [inRanges_coverByte, decide_eq_false hxa, Bool.false_or, writeByte_code]

/-- The first address of an image of at most 65536 bytes is not reached again. -/
theorem first_ne_rest {a : Word} {k : Nat} (hk : k + 1 < 65536) : a ≠ a + BitVec.ofNat 16 (k + 1) := by
  intro h
  have hnat := congrArg BitVec.toNat h
  have ha := a.isLt
  rw [BitVec.toNat_add, BitVec.toNat_ofNat] at hnat
  omega

/-- Loading gives each byte its value and puts it into the code range. -/
theorem loadImage_get (bytes : List (Option Byte)) (s : State) (a : Word) (hlen : bytes.length ≤ 65536) {k : Nat} {b : Byte}
    (hk : bytes[k]? = some (some b)) :
    (s.loadImage a bytes).readByte (a + BitVec.ofNat 16 k) = some b ∧
    inRanges (s.loadImage a bytes).code (a + BitVec.ofNat 16 k) = true := by
  induction bytes generalizing s a k with
  | nil => cases hk
  | cons b' bytes ih =>
    rw [List.length_cons] at hlen
    cases k with
    | succ k =>
      rw [← add_ofNat_succ]
      cases b' with
      | none => exact ih s (a + 1) (by omega) hk
      | some b' => exact ih ((s.writeByte a b').coverByte a) (a + 1) (by omega) hk
    | zero =>
      obtain rfl : b' = some b := by simpa using hk
      have hne : ∀ (j : Nat) (c : Byte), bytes[j]? = some (some c) → a ≠ a + 1 + BitVec.ofNat 16 j := by
        intro j c hj
        have hjlen := (List.getElem?_eq_some_iff.mp hj).1
        rw [add_ofNat_succ]
        exact first_ne_rest (by omega)
      obtain ⟨hread, hcode⟩ := loadImage_of_ne bytes ((s.writeByte a b).coverByte a) (a + 1) a hne
      have hzero : a + BitVec.ofNat 16 0 = a := BitVec.add_zero a
      rw [hzero]
      refine ⟨hread.trans ?_, hcode.trans ?_⟩
      · rw [readByte_coverByte, readByte_writeByte, if_pos rfl]
      · rw [inRanges_coverByte, decide_eq_true rfl, Bool.true_or]

/-! A data directive read back. -/

/-- The two bytes of a number, low byte first, make the number modulo 2^16 (R112). -/
theorem append_ofInt (v : Int) : BitVec.ofInt 8 (v / 256) ++ BitVec.ofInt 8 v = BitVec.ofInt 16 v := by
  apply BitVec.eq_of_toNat_eq
  rw [toNat_append, BitVec.toNat_ofInt, BitVec.toNat_ofInt, BitVec.toNat_ofInt]
  omega

/-- The values a `u16` holds. -/
theorem holds_u16 (v : Int) : DataType.u16.holds v = true ↔ 0 ≤ v ∧ v < 65536 := by
  change (decide (0 ≤ v) && decide (v < 2 ^ 16)) = true ↔ _
  rw [Bool.and_eq_true, decide_eq_true_iff, decide_eq_true_iff]
  norm_num

/-- The values an `i16` holds. -/
theorem holds_i16 (v : Int) : DataType.i16.holds v = true ↔ -32768 ≤ v ∧ v < 32768 := by
  change (decide (-2 ^ 15 ≤ v) && decide (v < 2 ^ 15)) = true ↔ _
  rw [Bool.and_eq_true, decide_eq_true_iff, decide_eq_true_iff]
  norm_num

theorem u16_read_back {v : Int} (h : DataType.u16.holds v = true) : ((BitVec.ofInt 16 v).toNat : Int) = v := by
  obtain ⟨hlow, hhigh⟩ := (holds_u16 v).mp h
  rw [BitVec.toNat_ofInt]
  omega

theorem i16_read_back {v : Int} (h : DataType.i16.holds v = true) : (BitVec.ofInt 16 v).toInt = v := by
  obtain ⟨hlow, hhigh⟩ := (holds_i16 v).mp h
  rw [BitVec.toInt_ofInt, Int.bmod_eq_of_le (by omega) (by omega)]

/-- The bytes of a 16-bit directive. -/
theorem emit_sixteen {ty : DataType} (h : ty = .u16 ∨ ty = .i16) (v : Int) :
    (Directive.value ty v).emit = [some (BitVec.ofInt 8 v), some (BitVec.ofInt 8 (v / 256))] := by
  obtain rfl | rfl := h <;> rfl

theorem wordEa_zero (base : Word) : wordEa base 0 = base := BitVec.add_zero base

/-- A 16-bit directive loaded at the even address in `base` is read back by `mldw` as its value modulo 2^16. -/
theorem directive_reads {ty : DataType} {v : Int} {rd base : Reg} {s : State} (hty : ty = .u16 ∨ ty = .i16) (hrd : rd ≠ .zr)
    (hres : s.resolved rd = true) (heven : (s.view base).toNat % 2 = 0) :
    ∃ t, exec (.mldw rd 0 base) (s.loadImage (s.view base) (Directive.value ty v).emit) = .next t ∧
      t.view rd = BitVec.ofInt 16 v := by
  rw [emit_sixteen hty v]
  generalize hbytes : [some (BitVec.ofInt 8 v), some (BitVec.ofInt 8 (v / 256))] = bytes
  have hlen : bytes.length ≤ 65536 := by simp [← hbytes]
  obtain ⟨hlo, -⟩ := loadImage_get bytes s (s.view base) hlen (k := 0) (b := BitVec.ofInt 8 v) (by rw [← hbytes]; rfl)
  obtain ⟨hhi, -⟩ := loadImage_get bytes s (s.view base) hlen (k := 1) (b := BitVec.ofInt 8 (v / 256)) (by rw [← hbytes]; rfl)
  have hgpr := gpr_loadImage bytes s (s.view base)
  have hbase : (s.loadImage (s.view base) bytes).view base = s.view base := by rw [State.view, hgpr, State.view]
  have hres' : (s.loadImage (s.view base) bytes).resolved rd = true := by rw [State.resolved, hgpr]; exact hres
  have hzero : s.view base + BitVec.ofNat 16 0 = s.view base := BitVec.add_zero _
  rw [hzero] at hlo
  rw [← append_ofInt]
  exact mldw_reads hrd hres' (by rwa [hbase, wordEa_zero]) (by rwa [hbase, wordEa_zero]) (by rwa [hbase, wordEa_zero])

/-- Settles O58: what loading gives and leaves, byte by byte, and a 16-bit directive read back through its two bytes. -/
theorem loadedImage : Obligations.LoadedImage := by
  unfold Obligations.LoadedImage
  refine ⟨fun bytes a s hlen => ⟨fun k b hk => loadImage_get bytes s a hlen hk, fun x hx => loadImage_of_ne bytes s a x hx,
    gpr_loadImage bytes s a, ?_⟩, fun ty v rd base s hty hholds hrd hres heven => ?_⟩
  · rw [State.pc, (loadImage_registers bytes s a).2, State.pc]
  · obtain ⟨t, ht, hview⟩ := directive_reads (v := v) hty hrd hres heven
    refine ⟨t, ht, ?_⟩
    rw [hview]
    obtain rfl | rfl := hty
    · rw [if_pos rfl]
      exact u16_read_back hholds
    · rw [if_neg (by decide)]
      exact i16_read_back hholds

end Sys2Proof.Machine
end

