-- ==== Sys2Proof/Proofs/Configurations.lean ====
section
/-! PROOFS. The machine under other parameters (spec/00_scope.md R8): SUB_CARRY, REL_BASE and INTERRUPTS. -/

namespace Sys2Proof.Machine

/-! SUB_CARRY (R132, R133, R135): only the carry of the difference differs. -/

theorem writeArith_borrow {rd : Reg} {a b : Word} {cin : Bool} {s t : State}
    (h : writeArith rd (subC .notBorrow a b cin) s = .next t) :
    writeArith rd (subC .borrow a b cin) s = .next (t.setFl { t.fl with c := !t.fl.c }) := by
  obtain rfl := Host.Outcome.next.inj h
  rfl

theorem guardDest_writeArith_borrow {rd : Reg} {a b : Word} {cin : Bool} {s t : State}
    (h : guardDest rd s (writeArith rd (subC .notBorrow a b cin) s) = .next t) :
    guardDest rd s (writeArith rd (subC .borrow a b cin) s) = .next (t.setFl { t.fl with c := !t.fl.c }) := by
  obtain ⟨hres, hk⟩ := guardDest_next h
  rw [guardDest_eq, if_pos hres, writeArith_borrow hk]

theorem subOp_borrow {rd rs1 rs2 : Reg} {s t : State} (h : subOp .notBorrow rd rs1 rs2 s = .next t) :
    subOp .borrow rd rs1 rs2 s = .next (t.setFl { t.fl with c := !t.fl.c }) :=
  guardDest_writeArith_borrow h

theorem subbOp_borrow {rd rs1 rs2 : Reg} {s t : State} (h : subbOp .notBorrow rd rs1 rs2 s = .next t) :
    subbOp .borrow rd rs1 rs2 s = .next (t.setFl { t.fl with c := !t.fl.c }) :=
  guardDest_writeArith_borrow h

theorem cmpiOp_borrow {rs : Reg} {imm : BitVec 8} {s t : State} (h : cmpiOp .notBorrow rs imm s = .next t) :
    cmpiOp .borrow rs imm s = .next (t.setFl { t.fl with c := !t.fl.c }) :=
  writeArith_borrow h

theorem execWith_borrow (p : Config.Params) (rd rs1 rs2 : Reg) (imm : BitVec 8) {i : Instr}
    (hi : i ∈ ([.sub rd rs1 rs2, .subb rd rs1 rs2, .neg rd rs2, .cmp rs1 rs2, .cmpi rs1 imm] : List Instr)) {s t : State}
    (h : execWith { p with subCarry := .notBorrow } i s = .next t) :
    execWith { p with subCarry := .borrow } i s = .next (t.setFl { t.fl with c := !t.fl.c }) := by
  simp only [List.mem_cons, List.not_mem_nil, or_false] at hi
  obtain rfl | rfl | rfl | rfl | rfl := hi
  · exact subOp_borrow h
  · exact subbOp_borrow h
  · exact subOp_borrow h
  · exact subOp_borrow h
  · exact cmpiOp_borrow h

/-! REL_BASE (R221, R223, R227): the base of a relative jump, not the link value. -/

theorem jmprOp_current (imm : BitVec 11) (s : State) :
    jmprOp .current imm s = .next (s.setPc (s.pc + BitVec.ofInt 16 (2 * imm.toInt))) := by
  rw [jmprOp, relativeOffset_eq]
  rfl

theorem jmprlOp_current (imm : BitVec 11) {s : State} (h : s.resolved .rp = true) :
    jmprlOp .current imm s = .next ((s.setReg .rp (s.pc + 2)).setPc (s.pc + BitVec.ofInt 16 (2 * imm.toInt))) := by
  rw [jmprlOp, linkTo, guardDest_eq, if_pos h, relativeOffset_eq]
  rfl

theorem brhOp_current (cond : Cond) (imm : BitVec 8) (s : State) :
    brhOp .current cond imm s =
      .next (if condHolds cond s.fl then s.setPc (s.pc + BitVec.ofInt 16 (2 * imm.toInt)) else s.advance) := by
  rw [brhOp, branchOffset_eq]
  split <;> rfl

/-! INTERRUPTS (spec/60_exceptions.md R287). -/

/-- A step of a machine in which no interrupt arrives. -/
theorem stepBy_never (run : Instr → State → Outcome) (o : Config.IFetchOrder) (mmio : List AddrRange) (s : State) :
    stepBy run o mmio .never s = fetch o mmio s.memorySide fun w => run (decode w) s.memorySide := rfl

/-- Settles O60: the lemmas of `Laws/Configured.lean` at the defaults, and one lemma per parameter above. -/
theorem configuredMachine : Obligations.ConfiguredMachine := by
  unfold Obligations.ConfiguredMachine
  refine ⟨fun i s => ⟨execWith_params i s, stepWith_params s⟩, resetWith_params, fun p s => ⟨rfl,
    fun m => stepWith_memOrder p m s, fun hnone => ⟨wfiOp_any s hnone, wfiOp_never s hnone⟩, ?_,
    stepBy_never _ p.ifetchOrder p.mmio s, fun rd rs1 rs2 imm i hi t h => execWith_borrow p rd rs1 rs2 imm hi h,
    fun imm => jmprOp_current imm s, fun imm hrp => jmprlOp_current imm hrp, fun cond imm => brhOp_current cond imm s⟩⟩
  rw [stepWith, stepBy]
  cases harrives : Config.interruptOracle s.draws with
  | none => simp only [arrivingInterrupt, harrives]
  | some src => simp only [arrivingInterrupt, harrives, raise]

end Sys2Proof.Machine
end
